-- ==== Sys2Proof/Word.lean ====
section
/-! DEFINITION. The bit strings of the machine: bytes, 32-bit words (R1, XLEN) and 128-bit vectors (R34, VLEN). -/

namespace Sys2Proof

abbrev Byte := BitVec 8

abbrev Word := BitVec 32

abbrev Vec := BitVec 128

end Sys2Proof
end

