-- ==== Sys2Proof/Syntax.lean ====
section
/-! DEFINITION. The abstract syntax: one constructor for each row of spec/opcode_table.json, with the fields of
30_encoding.md R132 to R136 as operands, in the order they stand in the word. A register field is its number, an
immediate field its bits (R137 to R139). -/

namespace Sys2Proof

/-- The number of a vector register (R34, R137). -/
abbrev VReg := BitVec 5

/-- The number of a general-purpose register (R32, R137). -/
abbrev GReg := BitVec 5

/-- The instructions, in the order of the opcode table: rule and mnemonic stand beside each row there. -/
inductive Instr where
  | vmhaddshs (vD : VReg) (vA : VReg) (vB : VReg) (vC : VReg)
  | vmhraddshs (vD : VReg) (vA : VReg) (vB : VReg) (vC : VReg)
  | vmladduhm (vD : VReg) (vA : VReg) (vB : VReg) (vC : VReg)
  | vmsumubm (vD : VReg) (vA : VReg) (vB : VReg) (vC : VReg)
  | vmsummbm (vD : VReg) (vA : VReg) (vB : VReg) (vC : VReg)
  | vmsumuhm (vD : VReg) (vA : VReg) (vB : VReg) (vC : VReg)
  | vmsumuhs (vD : VReg) (vA : VReg) (vB : VReg) (vC : VReg)
  | vmsumshm (vD : VReg) (vA : VReg) (vB : VReg) (vC : VReg)
  | vmsumshs (vD : VReg) (vA : VReg) (vB : VReg) (vC : VReg)
  | vsel (vD : VReg) (vA : VReg) (vB : VReg) (vC : VReg)
  | vperm (vD : VReg) (vA : VReg) (vB : VReg) (vC : VReg)
  | vsldoi (vD : VReg) (vA : VReg) (vB : VReg) (shb : BitVec 4)
  | vmaddfp (vD : VReg) (vA : VReg) (vB : VReg) (vC : VReg)
  | vnmsubfp (vD : VReg) (vA : VReg) (vB : VReg) (vC : VReg)
  | vaddubm (vD : VReg) (vA : VReg) (vB : VReg)
  | vmaxub (vD : VReg) (vA : VReg) (vB : VReg)
  | vrlb (vD : VReg) (vA : VReg) (vB : VReg)
  | vmuloub (vD : VReg) (vA : VReg) (vB : VReg)
  | vaddfp (vD : VReg) (vA : VReg) (vB : VReg)
  | vmrghb (vD : VReg) (vA : VReg) (vB : VReg)
  | vpkuhum (vD : VReg) (vA : VReg) (vB : VReg)
  | vadduhm (vD : VReg) (vA : VReg) (vB : VReg)
  | vmaxuh (vD : VReg) (vA : VReg) (vB : VReg)
  | vrlh (vD : VReg) (vA : VReg) (vB : VReg)
  | vmulouh (vD : VReg) (vA : VReg) (vB : VReg)
  | vsubfp (vD : VReg) (vA : VReg) (vB : VReg)
  | vmrghh (vD : VReg) (vA : VReg) (vB : VReg)
  | vpkuwum (vD : VReg) (vA : VReg) (vB : VReg)
  | vadduwm (vD : VReg) (vA : VReg) (vB : VReg)
  | vmaxuw (vD : VReg) (vA : VReg) (vB : VReg)
  | vrlw (vD : VReg) (vA : VReg) (vB : VReg)
  | vmrghw (vD : VReg) (vA : VReg) (vB : VReg)
  | vpkuhus (vD : VReg) (vA : VReg) (vB : VReg)
  | vpkuwus (vD : VReg) (vA : VReg) (vB : VReg)
  | vmaxsb (vD : VReg) (vA : VReg) (vB : VReg)
  | vslb (vD : VReg) (vA : VReg) (vB : VReg)
  | vmulosb (vD : VReg) (vA : VReg) (vB : VReg)
  | vrefp (vD : VReg) (vB : VReg)
  | vmrglb (vD : VReg) (vA : VReg) (vB : VReg)
  | vpkshus (vD : VReg) (vA : VReg) (vB : VReg)
  | vmaxsh (vD : VReg) (vA : VReg) (vB : VReg)
  | vslh (vD : VReg) (vA : VReg) (vB : VReg)
  | vmulosh (vD : VReg) (vA : VReg) (vB : VReg)
  | vrsqrtefp (vD : VReg) (vB : VReg)
  | vmrglh (vD : VReg) (vA : VReg) (vB : VReg)
  | vpkswus (vD : VReg) (vA : VReg) (vB : VReg)
  | vaddcuw (vD : VReg) (vA : VReg) (vB : VReg)
  | vmaxsw (vD : VReg) (vA : VReg) (vB : VReg)
  | vslw (vD : VReg) (vA : VReg) (vB : VReg)
  | vexptefp (vD : VReg) (vB : VReg)
  | vmrglw (vD : VReg) (vA : VReg) (vB : VReg)
  | vpkshss (vD : VReg) (vA : VReg) (vB : VReg)
  | vsl (vD : VReg) (vA : VReg) (vB : VReg)
  | vlogefp (vD : VReg) (vB : VReg)
  | vpkswss (vD : VReg) (vA : VReg) (vB : VReg)
  | vaddubs (vD : VReg) (vA : VReg) (vB : VReg)
  | vminub (vD : VReg) (vA : VReg) (vB : VReg)
  | vsrb (vD : VReg) (vA : VReg) (vB : VReg)
  | vmuleub (vD : VReg) (vA : VReg) (vB : VReg)
  | vrfin (vD : VReg) (vB : VReg)
  | vspltb (vD : VReg) (uimm : BitVec 4) (vB : VReg)
  | vupkhsb (vD : VReg) (vB : VReg)
  | vadduhs (vD : VReg) (vA : VReg) (vB : VReg)
  | vminuh (vD : VReg) (vA : VReg) (vB : VReg)
  | vsrh (vD : VReg) (vA : VReg) (vB : VReg)
  | vmuleuh (vD : VReg) (vA : VReg) (vB : VReg)
  | vrfiz (vD : VReg) (vB : VReg)
  | vsplth (vD : VReg) (uimm : BitVec 3) (vB : VReg)
  | vupkhsh (vD : VReg) (vB : VReg)
  | vadduws (vD : VReg) (vA : VReg) (vB : VReg)
  | vminuw (vD : VReg) (vA : VReg) (vB : VReg)
  | vsrw (vD : VReg) (vA : VReg) (vB : VReg)
  | vrfip (vD : VReg) (vB : VReg)
  | vspltw (vD : VReg) (uimm : BitVec 2) (vB : VReg)
  | vupklsb (vD : VReg) (vB : VReg)
  | vsr (vD : VReg) (vA : VReg) (vB : VReg)
  | vrfim (vD : VReg) (vB : VReg)
  | vupklsh (vD : VReg) (vB : VReg)
  | vaddsbs (vD : VReg) (vA : VReg) (vB : VReg)
  | vminsb (vD : VReg) (vA : VReg) (vB : VReg)
  | vsrab (vD : VReg) (vA : VReg) (vB : VReg)
  | vmulesb (vD : VReg) (vA : VReg) (vB : VReg)
  | vcfux (vD : VReg) (uimm : BitVec 5) (vB : VReg)
  | vspltisb (vD : VReg) (simm : BitVec 5)
  | vpkpx (vD : VReg) (vA : VReg) (vB : VReg)
  | vaddshs (vD : VReg) (vA : VReg) (vB : VReg)
  | vminsh (vD : VReg) (vA : VReg) (vB : VReg)
  | vsrah (vD : VReg) (vA : VReg) (vB : VReg)
  | vmulesh (vD : VReg) (vA : VReg) (vB : VReg)
  | vcfsx (vD : VReg) (uimm : BitVec 5) (vB : VReg)
  | vspltish (vD : VReg) (simm : BitVec 5)
  | vupkhpx (vD : VReg) (vB : VReg)
  | vaddsws (vD : VReg) (vA : VReg) (vB : VReg)
  | vminsw (vD : VReg) (vA : VReg) (vB : VReg)
  | vsraw (vD : VReg) (vA : VReg) (vB : VReg)
  | vctuxs (vD : VReg) (uimm : BitVec 5) (vB : VReg)
  | vspltisw (vD : VReg) (simm : BitVec 5)
  | vctsxs (vD : VReg) (uimm : BitVec 5) (vB : VReg)
  | vupklpx (vD : VReg) (vB : VReg)
  | vsububm (vD : VReg) (vA : VReg) (vB : VReg)
  | vavgub (vD : VReg) (vA : VReg) (vB : VReg)
  | vand (vD : VReg) (vA : VReg) (vB : VReg)
  | vmaxfp (vD : VReg) (vA : VReg) (vB : VReg)
  | vslo (vD : VReg) (vA : VReg) (vB : VReg)
  | vsubuhm (vD : VReg) (vA : VReg) (vB : VReg)
  | vavguh (vD : VReg) (vA : VReg) (vB : VReg)
  | vandc (vD : VReg) (vA : VReg) (vB : VReg)
  | vminfp (vD : VReg) (vA : VReg) (vB : VReg)
  | vsro (vD : VReg) (vA : VReg) (vB : VReg)
  | vsubuwm (vD : VReg) (vA : VReg) (vB : VReg)
  | vavguw (vD : VReg) (vA : VReg) (vB : VReg)
  | vor (vD : VReg) (vA : VReg) (vB : VReg)
  | vxor (vD : VReg) (vA : VReg) (vB : VReg)
  | vavgsb (vD : VReg) (vA : VReg) (vB : VReg)
  | vnor (vD : VReg) (vA : VReg) (vB : VReg)
  | vavgsh (vD : VReg) (vA : VReg) (vB : VReg)
  | vsubcuw (vD : VReg) (vA : VReg) (vB : VReg)
  | vavgsw (vD : VReg) (vA : VReg) (vB : VReg)
  | vsububs (vD : VReg) (vA : VReg) (vB : VReg)
  | mfvscr (vD : VReg)
  | vsum4ubs (vD : VReg) (vA : VReg) (vB : VReg)
  | vsubuhs (vD : VReg) (vA : VReg) (vB : VReg)
  | mtvscr (vB : VReg)
  | vsum4shs (vD : VReg) (vA : VReg) (vB : VReg)
  | vsubuws (vD : VReg) (vA : VReg) (vB : VReg)
  | vsum2sws (vD : VReg) (vA : VReg) (vB : VReg)
  | vsubsbs (vD : VReg) (vA : VReg) (vB : VReg)
  | vsum4sbs (vD : VReg) (vA : VReg) (vB : VReg)
  | vsubshs (vD : VReg) (vA : VReg) (vB : VReg)
  | vsubsws (vD : VReg) (vA : VReg) (vB : VReg)
  | vsumsws (vD : VReg) (vA : VReg) (vB : VReg)
  | vcmpequb (vD : VReg) (vA : VReg) (vB : VReg) (rc : Bool)
  | vcmpequh (vD : VReg) (vA : VReg) (vB : VReg) (rc : Bool)
  | vcmpequw (vD : VReg) (vA : VReg) (vB : VReg) (rc : Bool)
  | vcmpeqfp (vD : VReg) (vA : VReg) (vB : VReg) (rc : Bool)
  | vcmpgefp (vD : VReg) (vA : VReg) (vB : VReg) (rc : Bool)
  | vcmpgtub (vD : VReg) (vA : VReg) (vB : VReg) (rc : Bool)
  | vcmpgtuh (vD : VReg) (vA : VReg) (vB : VReg) (rc : Bool)
  | vcmpgtuw (vD : VReg) (vA : VReg) (vB : VReg) (rc : Bool)
  | vcmpgtfp (vD : VReg) (vA : VReg) (vB : VReg) (rc : Bool)
  | vcmpgtsb (vD : VReg) (vA : VReg) (vB : VReg) (rc : Bool)
  | vcmpgtsh (vD : VReg) (vA : VReg) (vB : VReg) (rc : Bool)
  | vcmpgtsw (vD : VReg) (vA : VReg) (vB : VReg) (rc : Bool)
  | vcmpbfp (vD : VReg) (vA : VReg) (vB : VReg) (rc : Bool)
  | lvsl (vD : VReg) (rA : GReg) (rB : GReg)
  | lvebx (vD : VReg) (rA : GReg) (rB : GReg)
  | lvsr (vD : VReg) (rA : GReg) (rB : GReg)
  | lvehx (vD : VReg) (rA : GReg) (rB : GReg)
  | lvewx (vD : VReg) (rA : GReg) (rB : GReg)
  | lvx (vD : VReg) (rA : GReg) (rB : GReg)
  | stvebx (vS : VReg) (rA : GReg) (rB : GReg)
  | stvehx (vS : VReg) (rA : GReg) (rB : GReg)
  | stvewx (vS : VReg) (rA : GReg) (rB : GReg)
  | stvx (vS : VReg) (rA : GReg) (rB : GReg)
  | dst (strm : BitVec 2) (rA : GReg) (rB : GReg)
  | lvxl (vD : VReg) (rA : GReg) (rB : GReg)
  | dstst (strm : BitVec 2) (rA : GReg) (rB : GReg)
  | stvxl (vS : VReg) (rA : GReg) (rB : GReg)
  | dss (strm : BitVec 2)
  | dstt (strm : BitVec 2) (rA : GReg) (rB : GReg)
  | dststt (strm : BitVec 2) (rA : GReg) (rB : GReg)
  | dssall (strm : BitVec 2)
  | mfspr (rD : GReg)
  | mtspr (rS : GReg)
deriving DecidableEq, Repr

end Sys2Proof
end

