-- ==== Sys2Proof/Decode.lean ====
section
/-! DEFINITION. From words to instructions and back: the bit fields of a word (R8), the encoding tables of
30_encoding.md (R132 to R136, R470), the decoder (R141), total on any word and rejecting by name, and the encoder. -/

namespace Sys2Proof

/-- The `len` bits of `w` that start at bit `a`, bit 0 being the most significant (R8). -/
def field (w : Word) (a len : Nat) : BitVec len := w.extractLsb' (32 - a - len) len

/-- Why a word is no instruction of this machine. -/
inductive DecodeError where
  /-- Primary opcode 4 with an unassigned extended opcode: an illegal instruction (R140(a), R512). -/
  | illegal
  /-- An assigned extended opcode with a nonzero bit in a field that must be zero (R140(b), D16). -/
  | reserved
  /-- An instruction of the base architecture, which the spec does not define (R140(c), D3). -/
  | base
deriving DecidableEq, Repr

/-! The operand shapes of R132. Each takes the fields at bits 6-10, 11-15 and 16-20; `none` where a field that must
be zero is not. -/

def vdVaVb (c : VReg → VReg → VReg → Instr) (d a b : BitVec 5) : Option Instr := some (c d a b)

def vdVb (c : VReg → VReg → Instr) (d a b : BitVec 5) : Option Instr := if a = 0 then some (c d b) else none

def vdUimmVb (c : VReg → BitVec 5 → VReg → Instr) (d a b : BitVec 5) : Option Instr := some (c d a b)

/-- An immediate of `n` bits in a 5-bit field, whose other bits must be zero (R138). -/
def vdNarrow (n : Nat) (c : VReg → BitVec n → VReg → Instr) (d a b : BitVec 5) : Option Instr :=
  if a.toNat < 2 ^ n then some (c d (a.setWidth n) b) else none

def vdSimm (c : VReg → BitVec 5 → Instr) (d a b : BitVec 5) : Option Instr := if b = 0 then some (c d a) else none

def vdOnly (c : VReg → Instr) (d a b : BitVec 5) : Option Instr := if a = 0 ∧ b = 0 then some (c d) else none

def vbOnly (c : VReg → Instr) (d a b : BitVec 5) : Option Instr := if d = 0 ∧ a = 0 then some (c b) else none

/-- The shape of `dst` and its kin: T at bit 6, bits 7-8 zero, STRM at bits 9-10 (R136). -/
def stream (c0 c1 : BitVec 2 → GReg → GReg → Instr) (d a b : BitVec 5) : Option Instr :=
  if d.extractLsb' 2 2 = 0 then some ((if d.getLsbD 4 then c1 else c0) (d.extractLsb' 0 2) a b) else none

/-- The shape of `dss` and `dssall`: A at bit 6, bits 7-8 zero, STRM at bits 9-10, bits 11-20 zero (R136). -/
def streamStop (c0 c1 : BitVec 2 → Instr) (d a b : BitVec 5) : Option Instr :=
  if d.extractLsb' 2 2 = 0 ∧ a = 0 ∧ b = 0 then some ((if d.getLsbD 4 then c1 else c0) (d.extractLsb' 0 2)) else none

/-- The VA-form extended opcodes with four register fields (R135); 44 is `vsldoi`, and 35 and 45 are not assigned. -/
def vaTable : List (Nat × (VReg → VReg → VReg → VReg → Instr)) :=
  [(32, .vmhaddshs), (33, .vmhraddshs), (34, .vmladduhm),
   (36, .vmsumubm), (37, .vmsummbm), (38, .vmsumuhm),
   (39, .vmsumuhs), (40, .vmsumshm), (41, .vmsumshs),
   (42, .vsel), (43, .vperm), (46, .vmaddfp),
   (47, .vnmsubfp)]

/-- The VXR-form extended opcodes (R134). -/
def vxrTable : List (Nat × (VReg → VReg → VReg → Bool → Instr)) :=
  [(6, .vcmpequb), (70, .vcmpequh), (134, .vcmpequw),
   (198, .vcmpeqfp), (454, .vcmpgefp), (518, .vcmpgtub),
   (582, .vcmpgtuh), (646, .vcmpgtuw), (710, .vcmpgtfp),
   (774, .vcmpgtsb), (838, .vcmpgtsh), (902, .vcmpgtsw),
   (966, .vcmpbfp)]

/-- The VX-form extended opcodes (R133) with the shape of their operands (R132). -/
def vxTable : List (Nat × (BitVec 5 → BitVec 5 → BitVec 5 → Option Instr)) :=
  [(0, vdVaVb .vaddubm), (2, vdVaVb .vmaxub), (4, vdVaVb .vrlb),
   (8, vdVaVb .vmuloub), (10, vdVaVb .vaddfp), (12, vdVaVb .vmrghb),
   (14, vdVaVb .vpkuhum), (64, vdVaVb .vadduhm), (66, vdVaVb .vmaxuh),
   (68, vdVaVb .vrlh), (72, vdVaVb .vmulouh), (74, vdVaVb .vsubfp),
   (76, vdVaVb .vmrghh), (78, vdVaVb .vpkuwum), (128, vdVaVb .vadduwm),
   (130, vdVaVb .vmaxuw), (132, vdVaVb .vrlw), (140, vdVaVb .vmrghw),
   (142, vdVaVb .vpkuhus), (206, vdVaVb .vpkuwus), (258, vdVaVb .vmaxsb),
   (260, vdVaVb .vslb), (264, vdVaVb .vmulosb), (266, vdVb .vrefp)] ++
  [(268, vdVaVb .vmrglb), (270, vdVaVb .vpkshus), (322, vdVaVb .vmaxsh),
   (324, vdVaVb .vslh), (328, vdVaVb .vmulosh), (330, vdVb .vrsqrtefp),
   (332, vdVaVb .vmrglh), (334, vdVaVb .vpkswus), (384, vdVaVb .vaddcuw),
   (386, vdVaVb .vmaxsw), (388, vdVaVb .vslw), (394, vdVb .vexptefp),
   (396, vdVaVb .vmrglw), (398, vdVaVb .vpkshss), (452, vdVaVb .vsl),
   (458, vdVb .vlogefp), (462, vdVaVb .vpkswss), (512, vdVaVb .vaddubs),
   (514, vdVaVb .vminub), (516, vdVaVb .vsrb), (520, vdVaVb .vmuleub),
   (522, vdVb .vrfin), (524, vdNarrow 4 .vspltb), (526, vdVb .vupkhsb)] ++
  [(576, vdVaVb .vadduhs), (578, vdVaVb .vminuh), (580, vdVaVb .vsrh),
   (584, vdVaVb .vmuleuh), (586, vdVb .vrfiz), (588, vdNarrow 3 .vsplth),
   (590, vdVb .vupkhsh), (640, vdVaVb .vadduws), (642, vdVaVb .vminuw),
   (644, vdVaVb .vsrw), (650, vdVb .vrfip), (652, vdNarrow 2 .vspltw),
   (654, vdVb .vupklsb), (708, vdVaVb .vsr), (714, vdVb .vrfim),
   (718, vdVb .vupklsh), (768, vdVaVb .vaddsbs), (770, vdVaVb .vminsb),
   (772, vdVaVb .vsrab), (776, vdVaVb .vmulesb), (778, vdUimmVb .vcfux),
   (780, vdSimm .vspltisb), (782, vdVaVb .vpkpx), (832, vdVaVb .vaddshs)] ++
  [(834, vdVaVb .vminsh), (836, vdVaVb .vsrah), (840, vdVaVb .vmulesh),
   (842, vdUimmVb .vcfsx), (844, vdSimm .vspltish), (846, vdVb .vupkhpx),
   (896, vdVaVb .vaddsws), (898, vdVaVb .vminsw), (900, vdVaVb .vsraw),
   (906, vdUimmVb .vctuxs), (908, vdSimm .vspltisw), (970, vdUimmVb .vctsxs),
   (974, vdVb .vupklpx), (1024, vdVaVb .vsububm), (1026, vdVaVb .vavgub),
   (1028, vdVaVb .vand), (1034, vdVaVb .vmaxfp), (1036, vdVaVb .vslo),
   (1088, vdVaVb .vsubuhm), (1090, vdVaVb .vavguh), (1092, vdVaVb .vandc),
   (1098, vdVaVb .vminfp), (1100, vdVaVb .vsro), (1152, vdVaVb .vsubuwm)] ++
  [(1154, vdVaVb .vavguw), (1156, vdVaVb .vor), (1220, vdVaVb .vxor),
   (1282, vdVaVb .vavgsb), (1284, vdVaVb .vnor), (1346, vdVaVb .vavgsh),
   (1408, vdVaVb .vsubcuw), (1410, vdVaVb .vavgsw), (1536, vdVaVb .vsububs),
   (1540, vdOnly .mfvscr), (1544, vdVaVb .vsum4ubs), (1600, vdVaVb .vsubuhs),
   (1604, vbOnly .mtvscr), (1608, vdVaVb .vsum4shs), (1664, vdVaVb .vsubuws),
   (1672, vdVaVb .vsum2sws), (1792, vdVaVb .vsubsbs), (1800, vdVaVb .vsum4sbs),
   (1856, vdVaVb .vsubshs), (1920, vdVaVb .vsubsws), (1928, vdVaVb .vsumsws)]

/-- The X-form extended opcodes AltiVec assigns under primary opcode 31 (R136). -/
def xTable : List (Nat × (BitVec 5 → BitVec 5 → BitVec 5 → Option Instr)) :=
  [(6, vdVaVb .lvsl), (7, vdVaVb .lvebx), (38, vdVaVb .lvsr), (39, vdVaVb .lvehx), (71, vdVaVb .lvewx), (103, vdVaVb .lvx),
   (135, vdVaVb .stvebx), (167, vdVaVb .stvehx), (199, vdVaVb .stvewx), (231, vdVaVb .stvx), (359, vdVaVb .lvxl), (487, vdVaVb .stvxl),
   (342, stream .dst .dstt), (374, stream .dstst .dststt), (822, streamStop .dss .dssall)]

/-- A word whose operands do not fit its shape has a nonzero reserved field (R140(b)). -/
def orReserved : Option Instr → Except DecodeError Instr
  | some i => .ok i
  | none => .error .reserved

/-- VA form (R135): bit 21 of `vsldoi` must be zero. -/
def decodeVA (w : Word) : Except DecodeError Instr :=
  let xo := (field w 26 6).toNat
  if xo = 44 then
    if field w 21 1 = 0 then .ok (.vsldoi (field w 6 5) (field w 11 5) (field w 16 5) (field w 22 4))
    else .error .reserved
  else match vaTable.lookup xo with
    | some c => .ok (c (field w 6 5) (field w 11 5) (field w 16 5) (field w 21 5))
    | none => .error .illegal

/-- VXR and VX forms (R132 to R134), VXR tried first. -/
def decodeVX (w : Word) : Except DecodeError Instr :=
  match vxrTable.lookup (field w 22 10).toNat with
  | some c => .ok (c (field w 6 5) (field w 11 5) (field w 16 5) (field w 21 1 == 1))
  | none =>
    match vxTable.lookup (field w 21 11).toNat with
    | some c => orReserved (c (field w 6 5) (field w 11 5) (field w 16 5))
    | none => .error .illegal

/-- Primary opcode 31: X form (R136), and `mfspr` and `mtspr` of SPR 256, whose number stands with its halves
swapped in bits 11-20 (R470; PRESUMED, log entry 15). Any other extended opcode or SPR is the base architecture's
(R140(c), D3). -/
def decode31 (w : Word) : Except DecodeError Instr :=
  let xo := (field w 21 10).toNat
  if xo = 339 ∨ xo = 467 then
    if field w 11 10 = 8 ∧ field w 31 1 = 0 then
      .ok (if xo = 339 then .mfspr (field w 6 5) else .mtspr (field w 6 5))
    else .error .base
  else match xTable.lookup xo with
    | some c => if field w 31 1 = 0 then orReserved (c (field w 6 5) (field w 11 5) (field w 16 5)) else .error .reserved
    | none => .error .base

/-- The decode procedure of R141. -/
def decode (w : Word) : Except DecodeError Instr :=
  if field w 0 6 = 4 then
    if 32 ≤ (field w 26 6).toNat ∧ (field w 26 6).toNat ≤ 47 then decodeVA w else decodeVX w
  else if field w 0 6 = 31 then decode31 w
  else .error .base

/-- VX form: `0x1000_0000 | vD << 21 | vA << 16 | vB << 11 | XO` (R132). -/
def encVX (d a b : BitVec 5) (xo : BitVec 11) : Word := 4#6 ++ d ++ a ++ b ++ xo

/-- VXR form, with Rc at bit 21 (R134). -/
def encVXR (d a b : BitVec 5) (rc : Bool) (xo : BitVec 10) : Word := 4#6 ++ d ++ a ++ b ++ BitVec.ofBool rc ++ xo

/-- VA form (R135). -/
def encVA (d a b c : BitVec 5) (xo : BitVec 6) : Word := 4#6 ++ d ++ a ++ b ++ c ++ xo

/-- X form, bit 31 zero (R136). -/
def encX (d a b : BitVec 5) (xo : BitVec 10) : Word := 31#6 ++ d ++ a ++ b ++ xo ++ 0#1

/-- Bits 6-10 of a stream instruction: the T or A bit, two zeros, STRM (R136). -/
def streamField (t : BitVec 1) (strm : BitVec 2) : BitVec 5 := t ++ 0#2 ++ strm

/-- The word of an instruction, from the encoding tables R132 to R136 and R470. -/
def encode : Instr → Word
  | .vmhaddshs vD vA vB vC => encVA vD vA vB vC 32
  | .vmhraddshs vD vA vB vC => encVA vD vA vB vC 33
  | .vmladduhm vD vA vB vC => encVA vD vA vB vC 34
  | .vmsumubm vD vA vB vC => encVA vD vA vB vC 36
  | .vmsummbm vD vA vB vC => encVA vD vA vB vC 37
  | .vmsumuhm vD vA vB vC => encVA vD vA vB vC 38
  | .vmsumuhs vD vA vB vC => encVA vD vA vB vC 39
  | .vmsumshm vD vA vB vC => encVA vD vA vB vC 40
  | .vmsumshs vD vA vB vC => encVA vD vA vB vC 41
  | .vsel vD vA vB vC => encVA vD vA vB vC 42
  | .vperm vD vA vB vC => encVA vD vA vB vC 43
  | .vsldoi vD vA vB shb => encVA vD vA vB (shb.setWidth 5) 44
  | .vmaddfp vD vA vB vC => encVA vD vA vB vC 46
  | .vnmsubfp vD vA vB vC => encVA vD vA vB vC 47
  | .vaddubm vD vA vB => encVX vD vA vB 0
  | .vmaxub vD vA vB => encVX vD vA vB 2
  | .vrlb vD vA vB => encVX vD vA vB 4
  | .vmuloub vD vA vB => encVX vD vA vB 8
  | .vaddfp vD vA vB => encVX vD vA vB 10
  | .vmrghb vD vA vB => encVX vD vA vB 12
  | .vpkuhum vD vA vB => encVX vD vA vB 14
  | .vadduhm vD vA vB => encVX vD vA vB 64
  | .vmaxuh vD vA vB => encVX vD vA vB 66
  | .vrlh vD vA vB => encVX vD vA vB 68
  | .vmulouh vD vA vB => encVX vD vA vB 72
  | .vsubfp vD vA vB => encVX vD vA vB 74
  | .vmrghh vD vA vB => encVX vD vA vB 76
  | .vpkuwum vD vA vB => encVX vD vA vB 78
  | .vadduwm vD vA vB => encVX vD vA vB 128
  | .vmaxuw vD vA vB => encVX vD vA vB 130
  | .vrlw vD vA vB => encVX vD vA vB 132
  | .vmrghw vD vA vB => encVX vD vA vB 140
  | .vpkuhus vD vA vB => encVX vD vA vB 142
  | .vpkuwus vD vA vB => encVX vD vA vB 206
  | .vmaxsb vD vA vB => encVX vD vA vB 258
  | .vslb vD vA vB => encVX vD vA vB 260
  | .vmulosb vD vA vB => encVX vD vA vB 264
  | .vrefp vD vB => encVX vD 0 vB 266
  | .vmrglb vD vA vB => encVX vD vA vB 268
  | .vpkshus vD vA vB => encVX vD vA vB 270
  | .vmaxsh vD vA vB => encVX vD vA vB 322
  | .vslh vD vA vB => encVX vD vA vB 324
  | .vmulosh vD vA vB => encVX vD vA vB 328
  | .vrsqrtefp vD vB => encVX vD 0 vB 330
  | .vmrglh vD vA vB => encVX vD vA vB 332
  | .vpkswus vD vA vB => encVX vD vA vB 334
  | .vaddcuw vD vA vB => encVX vD vA vB 384
  | .vmaxsw vD vA vB => encVX vD vA vB 386
  | .vslw vD vA vB => encVX vD vA vB 388
  | .vexptefp vD vB => encVX vD 0 vB 394
  | .vmrglw vD vA vB => encVX vD vA vB 396
  | .vpkshss vD vA vB => encVX vD vA vB 398
  | .vsl vD vA vB => encVX vD vA vB 452
  | .vlogefp vD vB => encVX vD 0 vB 458
  | .vpkswss vD vA vB => encVX vD vA vB 462
  | .vaddubs vD vA vB => encVX vD vA vB 512
  | .vminub vD vA vB => encVX vD vA vB 514
  | .vsrb vD vA vB => encVX vD vA vB 516
  | .vmuleub vD vA vB => encVX vD vA vB 520
  | .vrfin vD vB => encVX vD 0 vB 522
  | .vspltb vD uimm vB => encVX vD (uimm.setWidth 5) vB 524
  | .vupkhsb vD vB => encVX vD 0 vB 526
  | .vadduhs vD vA vB => encVX vD vA vB 576
  | .vminuh vD vA vB => encVX vD vA vB 578
  | .vsrh vD vA vB => encVX vD vA vB 580
  | .vmuleuh vD vA vB => encVX vD vA vB 584
  | .vrfiz vD vB => encVX vD 0 vB 586
  | .vsplth vD uimm vB => encVX vD (uimm.setWidth 5) vB 588
  | .vupkhsh vD vB => encVX vD 0 vB 590
  | .vadduws vD vA vB => encVX vD vA vB 640
  | .vminuw vD vA vB => encVX vD vA vB 642
  | .vsrw vD vA vB => encVX vD vA vB 644
  | .vrfip vD vB => encVX vD 0 vB 650
  | .vspltw vD uimm vB => encVX vD (uimm.setWidth 5) vB 652
  | .vupklsb vD vB => encVX vD 0 vB 654
  | .vsr vD vA vB => encVX vD vA vB 708
  | .vrfim vD vB => encVX vD 0 vB 714
  | .vupklsh vD vB => encVX vD 0 vB 718
  | .vaddsbs vD vA vB => encVX vD vA vB 768
  | .vminsb vD vA vB => encVX vD vA vB 770
  | .vsrab vD vA vB => encVX vD vA vB 772
  | .vmulesb vD vA vB => encVX vD vA vB 776
  | .vcfux vD uimm vB => encVX vD uimm vB 778
  | .vspltisb vD simm => encVX vD simm 0 780
  | .vpkpx vD vA vB => encVX vD vA vB 782
  | .vaddshs vD vA vB => encVX vD vA vB 832
  | .vminsh vD vA vB => encVX vD vA vB 834
  | .vsrah vD vA vB => encVX vD vA vB 836
  | .vmulesh vD vA vB => encVX vD vA vB 840
  | .vcfsx vD uimm vB => encVX vD uimm vB 842
  | .vspltish vD simm => encVX vD simm 0 844
  | .vupkhpx vD vB => encVX vD 0 vB 846
  | .vaddsws vD vA vB => encVX vD vA vB 896
  | .vminsw vD vA vB => encVX vD vA vB 898
  | .vsraw vD vA vB => encVX vD vA vB 900
  | .vctuxs vD uimm vB => encVX vD uimm vB 906
  | .vspltisw vD simm => encVX vD simm 0 908
  | .vctsxs vD uimm vB => encVX vD uimm vB 970
  | .vupklpx vD vB => encVX vD 0 vB 974
  | .vsububm vD vA vB => encVX vD vA vB 1024
  | .vavgub vD vA vB => encVX vD vA vB 1026
  | .vand vD vA vB => encVX vD vA vB 1028
  | .vmaxfp vD vA vB => encVX vD vA vB 1034
  | .vslo vD vA vB => encVX vD vA vB 1036
  | .vsubuhm vD vA vB => encVX vD vA vB 1088
  | .vavguh vD vA vB => encVX vD vA vB 1090
  | .vandc vD vA vB => encVX vD vA vB 1092
  | .vminfp vD vA vB => encVX vD vA vB 1098
  | .vsro vD vA vB => encVX vD vA vB 1100
  | .vsubuwm vD vA vB => encVX vD vA vB 1152
  | .vavguw vD vA vB => encVX vD vA vB 1154
  | .vor vD vA vB => encVX vD vA vB 1156
  | .vxor vD vA vB => encVX vD vA vB 1220
  | .vavgsb vD vA vB => encVX vD vA vB 1282
  | .vnor vD vA vB => encVX vD vA vB 1284
  | .vavgsh vD vA vB => encVX vD vA vB 1346
  | .vsubcuw vD vA vB => encVX vD vA vB 1408
  | .vavgsw vD vA vB => encVX vD vA vB 1410
  | .vsububs vD vA vB => encVX vD vA vB 1536
  | .mfvscr vD => encVX vD 0 0 1540
  | .vsum4ubs vD vA vB => encVX vD vA vB 1544
  | .vsubuhs vD vA vB => encVX vD vA vB 1600
  | .mtvscr vB => encVX 0 0 vB 1604
  | .vsum4shs vD vA vB => encVX vD vA vB 1608
  | .vsubuws vD vA vB => encVX vD vA vB 1664
  | .vsum2sws vD vA vB => encVX vD vA vB 1672
  | .vsubsbs vD vA vB => encVX vD vA vB 1792
  | .vsum4sbs vD vA vB => encVX vD vA vB 1800
  | .vsubshs vD vA vB => encVX vD vA vB 1856
  | .vsubsws vD vA vB => encVX vD vA vB 1920
  | .vsumsws vD vA vB => encVX vD vA vB 1928
  | .vcmpequb vD vA vB rc => encVXR vD vA vB rc 6
  | .vcmpequh vD vA vB rc => encVXR vD vA vB rc 70
  | .vcmpequw vD vA vB rc => encVXR vD vA vB rc 134
  | .vcmpeqfp vD vA vB rc => encVXR vD vA vB rc 198
  | .vcmpgefp vD vA vB rc => encVXR vD vA vB rc 454
  | .vcmpgtub vD vA vB rc => encVXR vD vA vB rc 518
  | .vcmpgtuh vD vA vB rc => encVXR vD vA vB rc 582
  | .vcmpgtuw vD vA vB rc => encVXR vD vA vB rc 646
  | .vcmpgtfp vD vA vB rc => encVXR vD vA vB rc 710
  | .vcmpgtsb vD vA vB rc => encVXR vD vA vB rc 774
  | .vcmpgtsh vD vA vB rc => encVXR vD vA vB rc 838
  | .vcmpgtsw vD vA vB rc => encVXR vD vA vB rc 902
  | .vcmpbfp vD vA vB rc => encVXR vD vA vB rc 966
  | .lvsl vD rA rB => encX vD rA rB 6
  | .lvebx vD rA rB => encX vD rA rB 7
  | .lvsr vD rA rB => encX vD rA rB 38
  | .lvehx vD rA rB => encX vD rA rB 39
  | .lvewx vD rA rB => encX vD rA rB 71
  | .lvx vD rA rB => encX vD rA rB 103
  | .stvebx vS rA rB => encX vS rA rB 135
  | .stvehx vS rA rB => encX vS rA rB 167
  | .stvewx vS rA rB => encX vS rA rB 199
  | .stvx vS rA rB => encX vS rA rB 231
  | .dst strm rA rB => encX (streamField 0 strm) rA rB 342
  | .lvxl vD rA rB => encX vD rA rB 359
  | .dstst strm rA rB => encX (streamField 0 strm) rA rB 374
  | .stvxl vS rA rB => encX vS rA rB 487
  | .dss strm => encX (streamField 0 strm) 0 0 822
  | .dstt strm rA rB => encX (streamField 1 strm) rA rB 342
  | .dststt strm rA rB => encX (streamField 1 strm) rA rB 374
  | .dssall strm => encX (streamField 1 strm) 0 0 822
  | .mfspr rD => encX rD 0 8 339
  | .mtspr rS => encX rS 0 8 467

/-- The instruction that the decoder reads from the bits `w` of a row of the opcode table. Every instruction is one
32-bit word (R130), stored most significant byte first (R131). -/
def decodeTableWord (nbits w : Nat) : Option Instr :=
  match decode (BitVec.ofNat 32 (w % 2 ^ nbits)) with
  | .ok i => some i
  | .error _ => none

end Sys2Proof
end

