-- ==== Sys2Proof/Config.lean ====
section
/-! DEFINITION. What the spec leaves to the implementation: the parameters of 00_scope.md R7, which a state carries as
plain data so that a statement about every state holds of every implementation, and the free values, constants
without a body about which nothing can be proved. -/

namespace Sys2Proof

/-- One data access: the aligned effective address, the number of bytes, and whether it stores (D12). -/
abbrev AccessKey := Word × Nat × Bool

/-- The implementation parameters of R7. No instruction and no interrupt changes them (log entry 1). -/
structure Config where
  /-- STREAMS_IMPLEMENTED (R469). -/
  streamsImplemented : Bool
  /-- DSTT_DISTINCT: the transient hint is kept apart from the persistent one (R464). -/
  dsttDistinct : Bool
  /-- DSTST_DISTINCT: `dstst` differs from `dst` (R465). -/
  dststDistinct : Bool
  /-- NJ_ONLY: VSCR[NJ] is always 1 (R36, D8). -/
  njOnly : Bool
  /-- CACHE_BLOCK_SIZE as its base-2 logarithm (R471). -/
  cacheBlockLog2 : Nat
  /-- DABR_IMPLEMENTED (R510(c)). -/
  dabrImplemented : Bool
  /-- TRACE_IMPLEMENTED (R515, D13). -/
  traceImplemented : Bool
  /-- SRR1_EXTRA_BITS as a mask; only bits 1-4 and 10-15 count (R503). -/
  srr1ExtraBits : Word
  /-- IVBASE(0) and IVBASE(1) (R504, D14; the defaults are PRESUMED, log entry 16). -/
  ivBase0 : Word
  ivBase1 : Word
  /-- The accesses for which the environment predicate DataAccessFaults holds (D12). -/
  storageFaults : List AccessKey
  /-- The accesses that match the data address breakpoint, whose format the spec does not give (R106, log entry 18). -/
  breakpoints : List AccessKey
deriving DecidableEq, Repr

/-- The defaults of R7, D7, D8, D12, D13 and D14; 32-byte cache blocks, the source's example (log entry 1). -/
def Config.default : Config where
  streamsImplemented := false
  dsttDistinct := false
  dststDistinct := false
  njOnly := false
  cacheBlockLog2 := 5
  dabrImplemented := false
  traceImplemented := false
  srr1ExtraBits := 0
  ivBase0 := 0x00000000
  ivBase1 := 0xFFF00000
  storageFaults := []
  breakpoints := []

/-- `undefined(N)` of R17: the free value of a draw, of which an instruction uses the bits it needs (log entry 9). -/
opaque Config.undefinedBits : Nat → Vec

/-- What an implementation would answer for a `vrefp`, `vrsqrtefp`, `vlogefp` or `vexptefp` element: a free value of
the draw, the lane and the operand, since results may differ `between different executions` (R375, D9). The meanings
hold it to the bounds of R376 to R379 (log entry 12). -/
opaque Config.estRecip : Nat → Nat → Word → Word

opaque Config.estRsqrt : Nat → Nat → Word → Word

opaque Config.estLog2 : Nat → Nat → Word → Word

opaque Config.estExp2 : Nat → Nat → Word → Word

end Sys2Proof
end

