-- ==== Sys2Proof/Machine/State.lean ====
section
/-! DEFINITION. The state of the machine as plain data, the reasons a step can stop, and the state after reset. -/

namespace Sys2Proof.Machine

/-- A data stream in a slot of the stream table (10_state.md R58; fields of the descriptor, 46 R463). -/
structure Stream where
  /-- Effective address of the first unit. -/
  ea : Word
  /-- Quad words in a unit, 1 to 32. -/
  size : Nat
  /-- Units in the stream, 1 to 256. -/
  count : Nat
  /-- Bytes from one unit to the next, -32768 to -1 or 1 to 32768. -/
  stride : Int
  transient : Bool
  forStore : Bool
  /-- MSR[PR] when the stream was started (R472). -/
  pr : Bool
  /-- Progress: the unit being fetched, and the cache block within it (R471). -/
  unit : Nat
  block : Nat
deriving DecidableEq, Repr

/-- What the stream engine may do between two instructions (R462, R472): nothing, fetch one cache block for the next
enabled stream, or abort a stream. -/
inductive EngineMove where
  | idle
  | prefetch
  | abort (tag : BitVec 2)
deriving DecidableEq, Repr

/-- The machine's state. Registers with 32 numbered bits have bit 0 most significant (R8). -/
structure State where
  /-- VR0 to VR31 (R34). -/
  vr : Vector Vec 32
  /-- The general-purpose registers (R32). -/
  gpr : Vector Word 32
  /-- The address of the instruction to execute (R33). -/
  pc : Word
  /-- VSCR as last written; what a read of its reserved bits gives is said by `State.vscrRead` (R35, R40). -/
  vscr : Word
  /-- VRSAVE, SPR 256 (R41). -/
  vrsave : Word
  /-- CR; CR6 is bits 24-27 (R44). -/
  cr : Word
  /-- MSR as last written; what a read of its reserved bits gives is said by `State.msrRead` (R31, R48). -/
  msr : Word
  /-- SRR0, the saved pc (R55). -/
  srr0 : Word
  /-- SRR1, the saved status (R56). -/
  srr1 : Word
  /-- DAR, set by a breakpoint match (R59, R106). -/
  dar : Word
  /-- Memory: the bytes that differ from what an unlisted address reads as, by rising address (R80). -/
  mem : List Host.Cell
  /-- The data stream table (R58). -/
  streams : Vector (Option Stream) 4
  /-- The slot the round-robin arbitration of streams looks at first (R469; the model's own, log entry 19). -/
  turn : BitVec 2
  /-- The moves the stream engine will make, one after each instruction (the model's own, log entry 19). -/
  schedule : List EngineMove
  /-- How many free values have been drawn (the model's own, log entry 9). -/
  draws : Nat
  /-- The implementation parameters (R7; log entry 1). -/
  cfg : Config
deriving DecidableEq, Repr

/-- Why the machine stops with a fault. -/
inductive Fault where
  /-- Raised by `step` on a word of primary opcode 4 whose extended opcode is unassigned: the program interrupt it
  causes is not described (R512, D15). Safe: hardware goes on in a handler. -/
  | illegalInstruction (w : Word)
  /-- Raised by the ten loads and stores when the access faults or matches the breakpoint: the settings of the data
  storage interrupt are not described (R510, D12). `left` is the state the instruction leaves (R517). Safe: hardware
  goes on in a handler. -/
  | dataStorage (left : State)
deriving DecidableEq, Repr

/-- Why a step has no meaning. All are safe: the machine claims nothing where it refuses. -/
inductive Refusal where
  /-- An instruction of Instr without a meaning yet; no arm of `exec` answers so. -/
  | notModelled (mnemonic : String)
  /-- Raised by `step` on a word of the base architecture, which the spec does not define (D3). -/
  | baseInstruction (w : Word)
  /-- Raised by `step` on an assigned opcode with a nonzero reserved field (R140(b), D16). -/
  | reservedField (w : Word)
  /-- Raised by `dst`, `dstt`, `dstst`, `dststt` with A field 0 when streams are implemented: `the instruction form
  is invalid` (R463, D7). -/
  | invalidStreamForm
  /-- Raised by `dst`, `dstt`, `dstst`, `dststt` with MSR[DR] = 0 when streams are implemented: `results are boundedly
  undefined` (R466, D7). -/
  | streamUntranslated
  /-- Raised by `step` when tracing is implemented and MSR[SE] or MSR[BE] is set: the trace interrupt is not described
  (R515, D13). -/
  | traceEnabled
  /-- Raised by `step` when pc is not a multiple of 4: such a fetch is not described (R86). -/
  | misalignedFetch
deriving DecidableEq, Repr

/-- The machine right after reset. VRSAVE is 0 (R543) and no stream exists (R547); every other value is the model's
(log entries 1 to 7, 9, 19), MSR having VEC = 1 and LE = 0 (log entry 5). -/
def State.reset : State where
  vr := Vector.replicate 32 0
  gpr := Vector.replicate 32 0
  pc := 0
  vscr := 0
  vrsave := 0
  cr := 0
  msr := 0x02000000
  srr0 := 0
  srr1 := 0
  dar := 0
  mem := []
  streams := Vector.replicate 4 none
  turn := 0
  schedule := []
  draws := 0
  cfg := Config.default

end Sys2Proof.Machine
end

