-- ==== Sys2Proof/Machine/Operands.lean ====
section
/-! DEFINITION. Operand forms: elements of a vector (R9), register operands (R32, R34), immediates (R138, R139),
effective addresses (R82, R85), and the stream descriptor (R463). -/

namespace Sys2Proof.Machine

/-! ## Elements -/

/-- Element `i` of `w` bits of `v`, counted from the most significant end (R9). -/
def elem {n : Nat} (w i : Nat) (v : BitVec n) : BitVec w := v.extractLsb' (n - w * (i + 1)) w

abbrev byte (v : Vec) (i : Nat) : BitVec 8 := elem 8 i v

abbrev half (v : Vec) (i : Nat) : BitVec 16 := elem 16 i v

abbrev word (v : Vec) (i : Nat) : BitVec 32 := elem 32 i v

/-- The concatenation of `f 0`, ..., `f (n - 1)`, `f 0` being most significant. -/
def ofElems (w : Nat) : (n : Nat) → (Nat → BitVec w) → BitVec (w * n)
  | 0, _ => 0#(w * 0)
  | n + 1, f => (ofElems w n f ++ f n : BitVec (w * n + w))

def ofBytes (f : Nat → BitVec 8) : Vec := ofElems 8 16 f

def ofHalves (f : Nat → BitVec 16) : Vec := ofElems 16 8 f

def ofWords (f : Nat → BitVec 32) : Vec := ofElems 32 4 f

/-- `v` with its element `i` of `w` bits replaced by `x`. -/
def putElem {w : Nat} (i : Nat) (x : BitVec w) (v : Vec) : Vec :=
  (v &&& ~~~((BitVec.allOnes w).setWidth 128 <<< (128 - w * (i + 1)))) ||| (x.setWidth 128 <<< (128 - w * (i + 1)))

/-! Elements of `a || b` (R411, R443). -/

def byte2 (a b : Vec) (k : Nat) : BitVec 8 := if k < 16 then byte a k else byte b (k - 16)

def half2 (a b : Vec) (k : Nat) : BitVec 16 := if k < 8 then half a k else half b (k - 8)

def word2 (a b : Vec) (k : Nat) : BitVec 32 := if k < 4 then word a k else word b (k - 4)

/-! Elementwise operations. -/

def bytes2 (f : BitVec 8 → BitVec 8 → BitVec 8) (a b : Vec) : Vec := ofBytes fun i => f (byte a i) (byte b i)

def halves2 (f : BitVec 16 → BitVec 16 → BitVec 16) (a b : Vec) : Vec := ofHalves fun i => f (half a i) (half b i)

def words2 (f : BitVec 32 → BitVec 32 → BitVec 32) (a b : Vec) : Vec := ofWords fun i => f (word a i) (word b i)

def words1 (f : BitVec 32 → BitVec 32) (b : Vec) : Vec := ofWords fun i => f (word b i)

def words3 (f : BitVec 32 → BitVec 32 → BitVec 32 → BitVec 32) (a b c : Vec) : Vec :=
  ofWords fun i => f (word a i) (word b i) (word c i)

/-! ## Registers -/

/-- The content of vector register `r` (R34). -/
def State.vreg (s : State) (r : VReg) : Vec := s.vr[r.toNat]'r.isLt

/-- The content of general-purpose register `r` (R32). -/
def State.greg (s : State) (r : GReg) : Word := s.gpr[r.toNat]'r.isLt

/-- `(rA|0)`: 0 when the field is 0, else the register (R82). -/
def State.gregOrZero (s : State) (r : GReg) : Word := if r = 0 then 0 else s.greg r

/-! ## Effective addresses -/

/-- `EA = (rA|0) + (rB) mod 2^32` (R82, D18). -/
def State.ea (s : State) (rA rB : GReg) : Word := s.gregOrZero rA + s.greg rB

/-- The address aligned down to a multiple of `n`, a power of 2 (R85). -/
def alignTo (n : Nat) (ea : Word) : Word := ea &&& ~~~(BitVec.ofNat 32 (n - 1))

/-- The address an element access of `n` bytes uses in little-endian mode (R91). -/
def munge (ea : Word) (n : Nat) : Word := ea ^^^ BitVec.ofNat 32 (8 - n)

/-- The lane of an element of `n` bytes at the aligned address `ea` (R89, R94). -/
def laneOf (le : Bool) (n : Nat) (ea : Word) : Nat :=
  if le then (16 - n - ea.toNat % 16) / n else ea.toNat % 16 / n

/-- The address in memory of an element of `n` bytes at the aligned address `ea` (R94). -/
def elementAddress (le : Bool) (n : Nat) (ea : Word) : Word := if le then munge ea n else ea

/-! ## Immediates and descriptors -/

/-- SIMM sign-extended to `n` bits (R139). -/
def simm (n : Nat) (x : BitVec 5) : BitVec n := x.signExtend n

/-- Block Size, bits 3-7 of rB, 0 meaning 32 (R463). -/
def descriptorSize (d : Word) : Nat := if field d 3 5 = 0 then 32 else (field d 3 5).toNat

/-- Block Count, bits 8-15 of rB, 0 meaning 256 (R463). -/
def descriptorCount (d : Word) : Nat := if field d 8 8 = 0 then 256 else (field d 8 8).toNat

/-- Block Stride, bits 16-31 of rB, signed, 0 meaning 32768 (R463). -/
def descriptorStride (d : Word) : Int := if field d 16 16 = 0 then 32768 else (field d 16 16).toInt

end Sys2Proof.Machine
end

