-- ==== Sys2Proof/Machine/Flags.lean ====
section
/-! DEFINITION. Bits of 32-bit registers (R8), saturation and VSCR[SAT] (R12, R37), VSCR[NJ] (R36), and CR field 6
(R45, R46). -/

namespace Sys2Proof.Machine

/-- Bit `i` of a 32-bit register (R8). -/
def bit (x : Word) (i : Nat) : Bool := x.getLsbD (31 - i)

/-- The register with only bit `i` set. -/
def bitMask (i : Nat) : Word := BitVec.twoPow 32 (31 - i)

/-! ## Saturation: the narrowed value, and whether it differs from the exact one (R12) -/

def uiToUiSat (w k : Nat) : BitVec w × Bool := if 2 ^ w ≤ k then (BitVec.allOnes w, true) else (BitVec.ofNat w k, false)

def siToUiSat (w : Nat) (k : Int) : BitVec w × Bool :=
  if k < 0 then (0, true) else if 2 ^ w ≤ k then (BitVec.allOnes w, true) else (BitVec.ofInt w k, false)

def siToSiSat (w : Nat) (k : Int) : BitVec w × Bool :=
  if k < -2 ^ (w - 1) then (BitVec.ofInt w (-2 ^ (w - 1)), true)
  else if 2 ^ (w - 1) ≤ k then (BitVec.ofInt w (2 ^ (w - 1) - 1), true)
  else (BitVec.ofInt w k, false)

/-- Whether one of the flags `p 0`, ..., `p (n - 1)` is set. -/
def anyLane (n : Nat) (p : Nat → Bool) : Bool := (List.range n).any p

/-! A saturating instruction's vector, and the OR of its elements' flags (R37). -/

def satBytes (g : Nat → BitVec 8 × Bool) : Vec × Bool := (ofBytes fun i => (g i).1, anyLane 16 fun i => (g i).2)

def satHalves (g : Nat → BitVec 16 × Bool) : Vec × Bool := (ofHalves fun i => (g i).1, anyLane 8 fun i => (g i).2)

def satWords (g : Nat → BitVec 32 × Bool) : Vec × Bool := (ofWords fun i => (g i).1, anyLane 4 fun i => (g i).2)

/-! ## VSCR -/

/-- VSCR[SAT], bit 31 (R35). -/
def State.sat (s : State) : Bool := bit s.vscr 31

/-- VSCR[NJ], bit 15; always 1 on an NJ_ONLY implementation (R36, D8). -/
def State.nj (s : State) : Bool := s.cfg.njOnly || bit s.vscr 15

/-- VSCR[SAT] is sticky: it is set when an element saturated and left alone otherwise (R37, D20). -/
def State.orSat (s : State) (sat : Bool) : State :=
  { s with vscr := if sat then s.vscr ||| bitMask 31 else s.vscr }

/-! ## CR field 6 -/

/-- CR[24:27] written, every other bit of CR kept (R44). -/
def State.setCr6 (s : State) (f : BitVec 4) : State :=
  { s with cr := (s.cr &&& (0xFFFFFF0F : Word)) ||| (f.setWidth 32 <<< 4) }

/-- The record field of a compare: all true, 0, all false, 0 (R45, R281). -/
def cr6Compare (d : Vec) : BitVec 4 :=
  BitVec.ofBool (d = BitVec.allOnes 128) ++ 0#1 ++ BitVec.ofBool (d = 0) ++ 0#1

/-- The record field of `vcmpbfp`: 0, 0, all in bounds, 0 (R46). -/
def cr6Bounds (d : Vec) : BitVec 4 := 0#2 ++ BitVec.ofBool (d = 0) ++ 0#1

/-- The element a compare writes: all ones for true, zero for false (R280). -/
def truth (w : Nat) (p : Bool) : BitVec w := if p then BitVec.allOnes w else 0

end Sys2Proof.Machine
end

