-- ==== Sys2Proof/Machine/Ops.lean ====
section
/-! DEFINITION. The operations the meanings share: writing registers, drawing a free value, memory, taking the AltiVec
unavailable interrupt, completing an instruction, accessing memory through translation, and fetching. -/

namespace Sys2Proof.Machine

abbrev Result := Host.Outcome State Fault Refusal

/-! ## Registers -/

def State.setVreg (s : State) (r : VReg) (v : Vec) : State := { s with vr := s.vr.set r.toNat v r.isLt }

def State.setGreg (s : State) (r : GReg) (v : Word) : State := { s with gpr := s.gpr.set r.toNat v r.isLt }

/-- `pc <- pc + 4` mod 2^32 (R33, D2). -/
def State.advance (s : State) : State := { s with pc := s.pc + 4 }

/-- The free value that the next draw gives (R17). -/
def State.undefinedNow (s : State) : Vec := Config.undefinedBits s.draws

/-- A free value has been drawn: the next one is another (D6). -/
def State.drawn (s : State) : State := { s with draws := s.draws + 1 }

/-- What a read of VSCR gives: NJ and SAT, and for each reserved bit 0 if 0 was last written there, else a free bit
(R40). -/
def State.vscrRead (s : State) : Word :=
  ((s.vscr &&& (bitMask 15 ||| bitMask 31 ||| s.undefinedNow.setWidth 32)) ||| (if s.nj then bitMask 15 else 0))

/-- What `mtvscr` makes of the word it writes: NJ stays 1 on an NJ_ONLY implementation (R461). -/
def State.writeVscr (s : State) (w : Word) : State :=
  { s with vscr := if s.cfg.njOnly then w ||| bitMask 15 else w }

/-! ## Memory -/

/-- A byte of memory; one that is not listed reads as 0 (DESIGN CHOICE, log entry 7). -/
def Memory.read : List Host.Cell → Nat → Byte
  | [], _ => 0
  | c :: m, a => if c.1 = a then c.2 else Memory.read m a

/-- The cell put in its place in a list of rising addresses. -/
def Memory.insert (a : Nat) (v : Byte) : List Host.Cell → List Host.Cell
  | [] => [(a, v)]
  | c :: m => if a < c.1 then (a, v) :: c :: m else c :: Memory.insert a v m

/-- A byte written. The form stays canonical: no cell holds 0. -/
def Memory.write (m : List Host.Cell) (a : Nat) (v : Byte) : List Host.Cell :=
  if v = 0 then m.filter (fun c => c.1 ≠ a) else Memory.insert a v (m.filter fun c => c.1 ≠ a)

/-- The canonical form: addresses strictly rising and inside the address space, no cell equal to what an unlisted
address reads as. -/
abbrev Memory.wf (m : List Host.Cell) : Prop :=
  m.Pairwise (fun c d => c.1 < d.1) ∧ ∀ c ∈ m, c.1 < 2 ^ 32 ∧ c.2 ≠ 0

/-- The address `k` bytes after `a` (mod 2^32). -/
def byteAddress (a : Word) (k : Nat) : Nat := (a.toNat + k) % 2 ^ 32

/-- `MemRead(a, n)`: `n` bytes, the one at `a` most significant (R11). -/
def State.memRead (s : State) (a : Word) (n : Nat) : BitVec (8 * n) :=
  ofElems 8 n fun k => Memory.read s.mem (byteAddress a k)

/-- `MemWrite(a, n, v)` (R11). -/
def Memory.writeBytes (m : List Host.Cell) (a : Word) : Nat → (Nat → Byte) → List Host.Cell
  | 0, _ => m
  | n + 1, f => Memory.write (Memory.writeBytes m a n f) (byteAddress a n) (f n)

def State.memWrite (s : State) (a : Word) (n : Nat) (v : BitVec (8 * n)) : State :=
  { s with mem := Memory.writeBytes s.mem a n fun k => elem 8 k v }

/-! ## MSR -/

/-- The reserved bits of MSR: 0-5, 7-12, 14, 24, 28-29 (R48). -/
def msrReserved : Word := 0xFDFA008C

/-- What a read of MSR gives: the defined bits as they are, and for each reserved bit 0 if 0 was last written there,
else a free bit (R31, D6; log entry 11). -/
def State.msrRead (s : State) : Word := s.msr &&& (~~~msrReserved ||| s.undefinedNow.setWidth 32)

/-- MSR[VEC], bit 6 (R49). -/
def State.vecEnabled (s : State) : Bool := bit s.msr 6

/-- MSR[PR], bit 17 (R50). -/
def State.userMode (s : State) : Bool := bit s.msr 17

/-- MSR[DR], bit 27 (R51). -/
def State.translated (s : State) : Bool := bit s.msr 27

/-- MSR[LE], bit 31 (R52). -/
def State.littleEndian (s : State) : Bool := bit s.msr 31

/-- IVBASE(MSR[IP]) (R53, R504). -/
def State.ivBase (s : State) : Word := if bit s.msr 25 then s.cfg.ivBase1 else s.cfg.ivBase0

/-! ## The AltiVec unavailable interrupt (R500, R502 to R504) -/

/-- The MSR bits that SRR1 receives: 0, 5-9, 16-31, and of 1-4, 10-15 those the implementation copies (R56, R503). -/
def srr1Mask (extra : Word) : Word := 0x87C0FFFF ||| (extra &&& 0x783F0000)

/-- The MSR bits the interrupt keeps: all but VEC, POW, EE, PR, FP, FE0, SE, BE, FE1, IR, DR, RI, LE (R503). -/
def msrKept : Word :=
  ~~~(bitMask 6 ||| bitMask 13 ||| bitMask 16 ||| bitMask 17 ||| bitMask 18 ||| bitMask 20 ||| bitMask 21 |||
    bitMask 22 ||| bitMask 23 ||| bitMask 26 ||| bitMask 27 ||| bitMask 30 ||| bitMask 31)

/-- The MSR after the interrupt: LE is the old ILE; reserved bits (what was last written to them), ILE, ME, IP are kept
(R503, D14). -/
def msrOnInterrupt (msr : Word) : Word := (msr &&& msrKept) ||| (if bit msr 15 then bitMask 31 else 0)

/-- The vector offset of the interrupt (R504). -/
def unavailableOffset : Word := 0x00000F20

/-- The AltiVec unavailable interrupt taken: SRR0 holds the address of the instruction, SRR1 the status as MSR reads, and
the handler is at offset 0x00F20. No other register is written (R503). The read of MSR draws a free value (R31). -/
def State.takeUnavailable (s : State) : State :=
  { s.drawn with
    srr0 := s.pc
    srr1 := s.msrRead &&& srr1Mask s.cfg.srr1ExtraBits
    msr := msrOnInterrupt s.msr
    pc := s.ivBase + unavailableOffset }

/-- An instruction that needs the vector facility: with MSR[VEC] = 0 it takes the interrupt instead, before any other
effect (R500). -/
def whenAvailable (s : State) (k : Result) : Result := if s.vecEnabled then k else .next s.takeUnavailable

/-! ## Completing an instruction -/

/-- The instruction writes `v` to `VR[vD]`. -/
def result (s : State) (vD : VReg) (v : Vec) : Result := whenAvailable s (.next (s.setVreg vD v).advance)

/-- The instruction writes the vector and ORs the saturation into SAT (R37). -/
def resultSat (s : State) (vD : VReg) (v : Vec × Bool) : Result :=
  whenAvailable s (.next ((s.setVreg vD v.1).orSat v.2).advance)

/-- A compare: it writes `v`, and with Rc = 1 the record field `f` to CR6 (R45, R46, R134). -/
def resultCompare (s : State) (vD : VReg) (rc : Bool) (v : Vec) (f : BitVec 4) : Result :=
  whenAvailable s (.next (if rc then (s.setVreg vD v).setCr6 f else s.setVreg vD v).advance)

/-- The instruction writes a vector that one draw of free values determines. -/
def resultDrawn (s : State) (vD : VReg) (v : Vec) : Result := whenAvailable s (.next (s.drawn.setVreg vD v).advance)

/-! ## Data accesses -/

/-- The environment's predicate DataAccessFaults (R510, D12). -/
def State.accessFaults (s : State) (ea : Word) (n : Nat) (store : Bool) : Bool :=
  s.cfg.storageFaults.contains (ea, n, store)

/-- The access matches the data address breakpoint, where there is one (R106, R510(c)). -/
def State.breakpointHit (s : State) (ea : Word) (n : Nat) (store : Bool) : Bool :=
  s.cfg.dabrImplemented && s.cfg.breakpoints.contains (ea, n, store)

/-- The DAR after a breakpoint match: a free address from the word the access names to the last byte of the double word
(for a quad word, of the operand) that holds it (R106, log entry 18). -/
def State.setDar (s : State) (ea : Word) (n : Nat) : State :=
  let first := alignTo (max n 4) ea
  let span := if n = 16 then 16 else 8 - (first.toNat % 8)
  { s.drawn with dar := first + BitVec.ofNat 32 (s.undefinedNow.toNat % span) }

/-- An access of `n` bytes at the aligned address `ea`: a data storage interrupt, which stops the machine, leaving the
state `left`; or `k` (R510, R517, D12). DESIGN CHOICE (log entry 30): where the environment's fault and a breakpoint
match meet in one access, the fault comes first and DAR is left alone; R106 and R510 give the two causes no order. -/
def withAccess (s : State) (ea : Word) (n : Nat) (store : Bool) (left : State) (k : Result) : Result :=
  if s.accessFaults ea n store then .fault (.dataStorage left)
  else if s.breakpointHit ea n store then .fault (.dataStorage (left.setDar ea n))
  else k

/-! ## Fetch -/

/-- Where the word at `pc` lies: `pc xor 4` in little-endian mode (R96, D19; PRESUMED, log entry 14). -/
def State.fetchAddress (s : State) : Word := if s.littleEndian then munge s.pc 4 else s.pc

/-- The instruction word at `pc` (R131); fetch reads memory directly (R114, D17). -/
def State.fetch (s : State) : Word := s.memRead s.fetchAddress 4

/-- A state in which the spec gives no step: tracing (R515, D13), or a pc that is no multiple of 4 (R86). -/
def State.refusal (s : State) : Option Refusal :=
  if s.cfg.traceImplemented && (bit s.msr 21 || bit s.msr 22) then some .traceEnabled
  else if s.pc.extractLsb' 0 2 ≠ 0 then some .misalignedFetch
  else none

/-- What a word that is no instruction of this machine does (D3, D15, D16). -/
def undecoded (w : Word) : DecodeError → Result
  | .illegal => .fault (.illegalInstruction w)
  | .reserved => .refused (.reservedField w)
  | .base => .refused (.baseInstruction w)

end Sys2Proof.Machine
end

