-- ==== Sys2Proof/Machine/Streams.lean ====
section
/-! DEFINITION. Data streams: starting and stopping them (46_vscr_and_streams.md R462 to R469) and the moves of the
stream engine (R471 to R473). Streams touch neither registers nor memory (R462). -/

namespace Sys2Proof.Machine

/-- The content of slot `tag` of the stream table (R58). -/
def State.stream (s : State) (tag : BitVec 2) : Option Stream := s.streams[tag.toNat]'tag.isLt

def State.setStream (s : State) (tag : BitVec 2) (st : Option Stream) : State :=
  { s with streams := s.streams.set tag.toNat st tag.isLt }

/-- Every slot empty. -/
def State.clearStreams (s : State) : State := { s with streams := Vector.replicate 4 none }

/-- The stream a touch instruction describes: the address in rA, the descriptor in rB (R463, R464, R465). -/
def State.newStream (s : State) (transient forStore : Bool) (rA rB : GReg) : Stream where
  ea := s.greg rA
  size := descriptorSize (s.greg rB)
  count := descriptorCount (s.greg rB)
  stride := descriptorStride (s.greg rB)
  transient := transient && s.cfg.dsttDistinct
  forStore := forStore && s.cfg.dststDistinct
  pr := s.userMode
  unit := 0
  block := 0

/-- A stream touch. Without the stream facility it is a no-op (R469); with it, the invalid form and the untranslated
case are refused (R463, R466, D7), and otherwise the slot holds the new stream. No MSR[VEC] check (R468). -/
def streamTouch (s : State) (transient forStore : Bool) (strm : BitVec 2) (rA rB : GReg) : Result :=
  if !s.cfg.streamsImplemented then .next s.advance
  else if rA = 0 then .refused .invalidStreamForm
  else if !s.translated then .refused .streamUntranslated
  else .next (s.setStream strm (some (s.newStream transient forStore rA rB))).advance

/-! ## The engine -/

/-- `BlockAddr_n = ea + n * stride` mod 2^32 (R471). -/
def Stream.unitAddress (st : Stream) : Word := st.ea + BitVec.ofInt 32 (st.unit * st.stride)

/-- The number of cache blocks of `2 ^ k` bytes that hold the unit (R471). -/
def Stream.blocksInUnit (st : Stream) (k : Nat) : Nat :=
  (16 * st.size + st.unitAddress.toNat % 2 ^ k + (2 ^ k - 1)) / 2 ^ k

/-- The address of the cache block fetched next (R471). -/
def Stream.blockAddress (st : Stream) (k : Nat) : Word :=
  BitVec.ofNat 32 (st.unitAddress.toNat / 2 ^ k * 2 ^ k + st.block * 2 ^ k)

/-- The stream after that block: the next block, the first of the next unit, or nothing after the last (R472). -/
def Stream.next (st : Stream) (k : Nat) : Option Stream :=
  if st.block + 1 < st.blocksInUnit k then some { st with block := st.block + 1 }
  else if st.unit + 1 < st.count then some { st with unit := st.unit + 1, block := 0 }
  else none

/-- Prefetching is enabled if MSR[DR] = 1 and MSR[PR] has the value it had when the stream was started (R472). -/
def State.streamEnabled (s : State) (st : Stream) : Bool := s.translated && (s.userMode == st.pr)

/-- One cache block of the first enabled stream among the slots `tag`, `tag + 1`, ... (`fuel` of them): the stream
advances, or ends silently where a load of the block would fault (R468, R472, R473). -/
def State.prefetchFrom (s : State) : Nat → BitVec 2 → State
  | 0, _ => s
  | fuel + 1, tag =>
    match s.stream tag with
    | some st =>
      if s.streamEnabled st then
        let k := s.cfg.cacheBlockLog2
        { s.setStream tag (if s.accessFaults (st.blockAddress k) (2 ^ k) false then none else st.next k) with
          turn := tag + 1 }
      else s.prefetchFrom fuel (tag + 1)
    | none => s.prefetchFrom fuel (tag + 1)

/-- What one move does (R462, R472). -/
def State.makeMove (s : State) : EngineMove → State
  | .idle => s
  | .prefetch => s.prefetchFrom 4 s.turn
  | .abort tag => s.setStream tag none

/-- The stream engine between two instructions: the next move of the schedule, or none (log entry 19). -/
def State.engine (s : State) : State :=
  if s.cfg.streamsImplemented then
    match s.schedule with
    | [] => s
    | m :: rest => { s with schedule := rest }.makeMove m
  else s

end Sys2Proof.Machine
end

