-- ==== Sys2Proof/Machine/Control.lean ====
section
/-! DEFINITION. VSCR moves, data streams and VRSAVE access (46_vscr_and_streams.md, R460 to R476). -/

namespace Sys2Proof.Machine

/-- `mfvscr` (R460). VSCR right-justified in vD, bits 0-95 zero. VSCR is not changed. -/
def execMfvscr (vD : VReg) (s : State) : Result := resultDrawn s vD (s.vscrRead.setWidth 128)

/-- `mtvscr` (R461). The low-order word of vB to VSCR. -/
def execMtvscr (vB : VReg) (s : State) : Result :=
  whenAvailable s (.next (s.writeVscr (word (s.vreg vB) 3)).advance)

/-- `dst` (R464). -/
def execDst (strm : BitVec 2) (rA rB : GReg) (s : State) : Result := streamTouch s false false strm rA rB

/-- `dstt` (R464). -/
def execDstt (strm : BitVec 2) (rA rB : GReg) (s : State) : Result := streamTouch s true false strm rA rB

/-- `dstst` (R465). -/
def execDstst (strm : BitVec 2) (rA rB : GReg) (s : State) : Result := streamTouch s false true strm rA rB

/-- `dststt` (R465). -/
def execDststt (strm : BitVec 2) (rA rB : GReg) (s : State) : Result := streamTouch s true true strm rA rB

/-- `dss` (R467). The stream of slot STRM is stopped; a no-op without the facility (R469). -/
def execDss (strm : BitVec 2) (s : State) : Result :=
  .next (if s.cfg.streamsImplemented then s.setStream strm none else s).advance

/-- `dssall` (R467). Every stream is stopped, whatever STRM is; a no-op without the facility (R469). -/
def execDssall (_strm : BitVec 2) (s : State) : Result :=
  .next (if s.cfg.streamsImplemented then s.clearStreams else s).advance

/-- `mfspr rD,256` (R470, R42). Neither privileged nor gated by MSR[VEC] (D11). -/
def execMfspr (rD : GReg) (s : State) : Result := .next (s.setGreg rD s.vrsave).advance

/-- `mtspr 256,rS` (R470, R42). -/
def execMtspr (rS : GReg) (s : State) : Result := .next { s.advance with vrsave := s.greg rS }

end Sys2Proof.Machine
end

