-- ==== Sys2Proof/Machine/Fp.lean ====
section
/-! DEFINITION. Single-precision numbers (43_floating_point.md R340 to R349): their values as integers in units of
2^-149, rounding from exact rationals, and the elementwise operations of the floating-point instructions. The values of
the bit patterns and the arithmetic on infinities and signed zeros are the spec's from IEEE 754 (R340, R349, R369; log
entry 28). -/

namespace Sys2Proof.Machine

/-! ## Format (R340) -/

def fpSign (x : Word) : Bool := x.getLsbD 31

def fpExp (x : Word) : Nat := (x.extractLsb' 23 8).toNat

def fpFrac (x : Word) : Nat := (x.extractLsb' 0 23).toNat

def isNaN (x : Word) : Bool := fpExp x = 255 ∧ fpFrac x ≠ 0

def isInf (x : Word) : Bool := fpExp x = 255 ∧ fpFrac x = 0

def isZero (x : Word) : Bool := fpExp x = 0 ∧ fpFrac x = 0

def isDenormal (x : Word) : Bool := fpExp x = 0 ∧ fpFrac x ≠ 0

/-- The magnitude in units of 2^-149. For an infinity it is 2^277, above every finite one. -/
def fpMag (x : Word) : Nat := if fpExp x = 0 then fpFrac x else (2 ^ 23 + fpFrac x) * 2 ^ (fpExp x - 1)

/-- The value in units of 2^-149; both zeros have the value 0 (R349). -/
def fpVal (x : Word) : Int := if fpSign x then -(fpMag x : Int) else fpMag x

def signMask : Word := 0x80000000

/-- The word with its sign inverted. -/
def negate (x : Word) : Word := x ^^^ signMask

/-- A magnitude given a sign. -/
def withSign (sign : Bool) (x : Word) : Word := if sign then x ||| signMask else x

/-- The infinity of a sign. -/
def infinity (sign : Bool) : Word := withSign sign 0x7F800000

/-- The NaN of an invalid operation (R347). -/
def defaultNaN : Word := 0x7FC00000

/-- A NaN quieted (R346). -/
def quiet (x : Word) : Word := x ||| 0x00400000

/-- In non-Java mode a denormalized number becomes the zero of its sign: `IN` and `OUT` (R342). -/
def flush (nj : Bool) (x : Word) : Word := if nj && isDenormal x then x &&& signMask else x

/-! ## Rounding -/

/-- `num / den` rounded to the nearest integer, ties to even (R343). -/
def roundNearest (num den : Nat) : Nat :=
  let q := num / den
  let r := num % den
  if den < 2 * r ∨ (2 * r = den ∧ q % 2 = 1) then q + 1 else q

/-- `ROUND` of the magnitude `num / den`, in units of 2^-149 (R348). Below 2^-126, before rounding, it underflows: a
zero in non-Java mode, else the nearest multiple of the unit, whose bit pattern is that multiple. Otherwise the nearest
number of 24 significant bits, or an infinity when it reaches 2^128. -/
def roundMag (nj : Bool) (num den : Nat) : Word :=
  if num / den < 2 ^ 23 then (if nj then 0 else BitVec.ofNat 32 (roundNearest num den))
  else
    let k := Nat.log2 (num / den) - 23
    let w := k * 2 ^ 23 + roundNearest num (den * 2 ^ k)
    if 0x7F800000 ≤ w then 0x7F800000 else BitVec.ofNat 32 w

/-- `ROUND` of a value given by its sign and its magnitude `num / den` in units of 2^-149 (R348). -/
def roundFp (nj sign : Bool) (num den : Nat) : Word := withSign sign (roundMag nj num den)

/-! ## Arithmetic. The operands have been passed through `IN`. -/

/-- `x + y` (R350). -/
def fpAdd (nj : Bool) (x y : Word) : Word :=
  if isNaN x then quiet x
  else if isNaN y then quiet y
  else if isInf x ∧ isInf y ∧ fpSign x ≠ fpSign y then defaultNaN
  else if isInf x then x
  else if isInf y then y
  else if fpVal x + fpVal y = 0 then withSign (fpSign x && fpSign y) 0
  else roundFp nj (fpVal x + fpVal y < 0) (fpVal x + fpVal y).natAbs 1

/-- `x - y`: the sign of `y` inverted after the NaN test (R351). -/
def fpSub (nj : Bool) (x y : Word) : Word :=
  if isNaN x then quiet x else if isNaN y then quiet y else fpAdd nj x (negate y)

/-- `x * z + y`, rounded once (R352). -/
def fpMulAdd (nj : Bool) (x y z : Word) : Word :=
  if isNaN x then quiet x
  else if isNaN y then quiet y
  else if isNaN z then quiet z
  else if (isInf x ∧ isZero z) ∨ (isZero x ∧ isInf z) then defaultNaN
  else
    let sp := fpSign x ^^ fpSign z
    if isInf x ∨ isInf z then
      if isInf y ∧ fpSign y ≠ sp then defaultNaN else infinity sp
    else if isInf y then y
    else
      let v := fpVal x * fpVal z + fpVal y * 2 ^ 149
      if v = 0 then withSign (sp && fpSign y) 0 else roundFp nj (v < 0) v.natAbs (2 ^ 149)

/-- `-(x * z - y)`; a NaN is not negated (R353). -/
def fpNegMulSub (nj : Bool) (x y z : Word) : Word :=
  if isNaN x then quiet x
  else if isNaN y then quiet y
  else if isNaN z then quiet z
  else
    let r := fpMulAdd nj x (negate y) z
    if isNaN r then r else negate r

/-- R354. -/
def fpMax (x y : Word) : Word :=
  if isNaN x then quiet x
  else if isNaN y then quiet y
  else if isZero x ∧ isZero y then withSign (fpSign x && fpSign y) 0
  else if fpVal y ≤ fpVal x then x else y

/-- R355. -/
def fpMin (x y : Word) : Word :=
  if isNaN x then quiet x
  else if isNaN y then quiet y
  else if isZero x ∧ isZero y then withSign (fpSign x || fpSign y) 0
  else if fpVal x < fpVal y then x else y

/-! ## Integral values and conversions -/

/-- The rounding of the four `vrfi*` (R343). -/
inductive IntRounding where
  | nearest
  | towardZero
  | up
  | down
deriving DecidableEq, Repr

/-- The integer magnitude of `mag` units of 2^-149 and a sign (R13, R356 to R359). -/
def integralMag (mode : IntRounding) (sign : Bool) (mag : Nat) : Nat :=
  match mode with
  | .nearest => roundNearest mag (2 ^ 149)
  | .towardZero => mag / 2 ^ 149
  | .up => if sign then mag / 2 ^ 149 else (mag + (2 ^ 149 - 1)) / 2 ^ 149
  | .down => if sign then (mag + (2 ^ 149 - 1)) / 2 ^ 149 else mag / 2 ^ 149

/-- The floating-point integer; a zero result keeps the operand's sign (R369). -/
def fpRoundInt (mode : IntRounding) (x : Word) : Word :=
  if isNaN x then quiet x
  else if 150 ≤ fpExp x then x
  else roundFp false (fpSign x) (integralMag mode (fpSign x) (fpMag x) * 2 ^ 149) 1

/-- `n / 2^u`, rounded to nearest (R360). -/
def fixedToFp (n : Int) (u : Nat) : Word := roundFp false (n < 0) (n.natAbs * 2 ^ 149) (2 ^ u)

/-- The value times 2^u truncated toward zero; an infinity gives a number outside every range (R362). -/
def fpTruncate (x : Word) (u : Nat) : Int :=
  if fpSign x then -((fpMag x * 2 ^ u / 2 ^ 149 : Nat) : Int) else (fpMag x * 2 ^ u / 2 ^ 149 : Nat)

/-- R364. -/
def fpToUnsigned (u : Nat) (x : Word) : BitVec 32 × Bool :=
  if isNaN x then (0, false) else siToUiSat 32 (fpTruncate x u)

/-- R365. -/
def fpToSigned (u : Nat) (x : Word) : BitVec 32 × Bool :=
  if isNaN x then (0, false) else siToSiSat 32 (fpTruncate x u)

/-! ## Comparison: a relation with a NaN is false (R370) -/

def fpCompare (rel : Int → Int → Bool) (x y : Word) : Bool := !isNaN x && !isNaN y && rel (fpVal x) (fpVal y)

/-- The two bits of `vcmpbfp` (R373). -/
def fpBounds (x y : Word) : Word :=
  (if fpCompare (fun v w => v ≤ w) x y then 0 else 0x80000000) |||
    (if fpCompare (fun v w => -w ≤ v) x y then 0 else 0x40000000)

end Sys2Proof.Machine
end

