-- ==== Sys2Proof/Machine/Estimate.lean ====
section
/-! DEFINITION. The estimate instructions' elements (47_fp_compare_estimate.md R375 to R379). The result for an ordinary
operand is the implementation's own value, a free value, where that value meets the instruction's bound; an arbitrary
choice that breaks the bound is replaced by a value inside it (log entry 12). The operands have been passed through
`IN`. -/

namespace Sys2Proof.Machine

/-- The least magnitude that overflows, (2^25 - 1) * 2^103, in units of 2^-149: halfway to 2^128 (R348). -/
def overflowUnits : Nat := (2 ^ 25 - 1) * 2 ^ 252

/-- 2^-126, below which a result underflows, in units of 2^-149 (R348). -/
def underflowUnits : Nat := 2 ^ 23

/-- The value inside the bound, and `OUT` (R375(e)). -/
def choose (nj : Bool) (ok : Word → Bool) (raw fallback : Word) : Word := flush nj (if ok raw then raw else fallback)

/-! ## `vrefp` (R376) -/

/-- What R375(d) and R376 allow: the sign of 1/x; a relative error of at most 1/4096; an infinity or a zero only where
the bound reaches an overflow or an underflow. -/
def recipOk (x r : Word) : Bool :=
  !isNaN r && (fpSign r == fpSign x) &&
    (if isInf r then 4096 * fpMag x * overflowUnits ≤ 4097 * 2 ^ 298
     else if isZero r then 4095 * 2 ^ 298 < 4096 * fpMag x * underflowUnits
     else 4095 * 2 ^ 298 ≤ 4096 * fpMag r * fpMag x && 4096 * fpMag r * fpMag x ≤ 4097 * 2 ^ 298)

/-- R376. In non-Java mode an operand above 2^126 gives the zero of its sign. -/
def fpRecip (nj : Bool) (raw x : Word) : Word :=
  if isNaN x then quiet x
  else if isZero x then infinity (fpSign x)
  else if isInf x then withSign (fpSign x) 0
  else if nj ∧ 2 ^ 275 < fpMag x then withSign (fpSign x) 0
  else choose nj (recipOk x) raw (roundFp false (fpSign x) (2 ^ 298) (fpMag x))

/-! ## `vrsqrtefp` (R377) -/

/-- A positive finite number with a relative error of at most 1/4096 of 1/sqrt(x), both sides squared. -/
def rsqrtOk (x r : Word) : Bool :=
  !isNaN r && !isInf r && !fpSign r &&
    4095 ^ 2 * 2 ^ 447 ≤ 4096 ^ 2 * fpMag r ^ 2 * fpMag x && 4096 ^ 2 * fpMag r ^ 2 * fpMag x ≤ 4097 ^ 2 * 2 ^ 447

/-- The integer square root of `n`, from `acc` on, with the bits below `2 ^ i`. -/
def sqrtFrom (n : Nat) : Nat → Nat → Nat
  | 0, acc => acc
  | i + 1, acc => sqrtFrom n i (if (acc + 2 ^ i) ^ 2 ≤ n then acc + 2 ^ i else acc)

/-- R377. -/
def fpRsqrt (nj : Bool) (raw x : Word) : Word :=
  if isNaN x then quiet x
  else if isZero x then infinity (fpSign x)
  else if fpSign x then defaultNaN
  else if isInf x then 0
  else choose nj (rsqrtOk x) raw (roundFp false false (sqrtFrom (2 ^ 447 / fpMag x) 224 0) 1)

/-! ## Logarithms -/

/-- `n` binary digits of the logarithm of `m / 2^256`, a number from 1 to 2, after those in `acc`. -/
def logDigits : Nat → Nat → Nat → Nat
  | 0, _, acc => acc
  | n + 1, m, acc =>
    let m2 := m * m / 2 ^ 256
    if 2 ^ 257 ≤ m2 then logDigits n (m2 / 2) (2 * acc + 1) else logDigits n m2 (2 * acc)

/-- log2 of `num / den` in units of 2^-80: at most the logarithm, and less than two units below it. -/
def log2Units (num den : Nat) : Int :=
  let e : Int := (num.log2 : Int) - den.log2
  let scale (i : Int) : Nat := num * 2 ^ (256 + den.log2) / (den * 2 ^ num.log2) * 2 ^ (e - i).toNat
  let e' := if scale e < 2 ^ 256 then e - 1 else e
  e' * 2 ^ 80 + logDigits 80 (scale e') 0

/-- `log2 (num / den) ≤ v / 2^149`, decided exactly. The digits of `log2Units` settle it unless `v` lies within two
units of 2^-80; then a power of 2 has its integer for logarithm, and any other quotient is raised to the power 2^149
(log entry 13). -/
def logAtMost (num den : Nat) (v : Int) : Bool :=
  if (log2Units num den + 2) * 2 ^ 69 ≤ v then true
  else if v < log2Units num den * 2 ^ 69 then false
  else if num * 2 ^ den.log2 = den * 2 ^ num.log2 then ((num.log2 : Int) - den.log2) * 2 ^ 149 ≤ v
  else num ^ (2 ^ 149) * 2 ^ (-v).toNat ≤ den ^ (2 ^ 149) * 2 ^ v.toNat

/-- `v / 2^149 ≤ log2 (num / den)`: the inverse quotient has the opposite logarithm. -/
def logAtLeast (num den : Nat) (v : Int) : Bool := logAtMost den num (-v)

/-! ## `vlogefp` (R378) -/

/-- |x - 1| ≤ 1/8. -/
def nearOne (x : Word) : Bool := 7 * 2 ^ 146 ≤ fpMag x && fpMag x ≤ 9 * 2 ^ 146

/-- Near 1 any finite number; elsewhere an absolute error of at most 1/32 (R378). -/
def logOk (x r : Word) : Bool :=
  !isNaN r && !isInf r &&
    (nearOne x ||
      (logAtMost (fpMag x) (2 ^ 149) (fpVal r + 2 ^ 144) && logAtLeast (fpMag x) (2 ^ 149) (fpVal r - 2 ^ 144)))

/-- R378. -/
def fpLog2 (nj : Bool) (raw x : Word) : Word :=
  if isNaN x then quiet x
  else if isZero x then infinity true
  else if fpSign x then defaultNaN
  else if isInf x then x
  else
    let v := log2Units (fpMag x) (2 ^ 149)
    choose nj (logOk x) raw (roundFp false (v < 0) (v.natAbs * 2 ^ 69) 1)

/-! ## `vexptefp` (R379) -/

/-- A number of positive sign with a relative error of at most 1/16; an infinity or a zero only where the bound reaches
an overflow or an underflow (R375(d)). -/
def expOk (x r : Word) : Bool :=
  !isNaN r && !fpSign r &&
    (if isInf r then logAtMost (16 * overflowUnits) (17 * 2 ^ 149) (fpVal x)
     else if isZero r then !logAtMost (16 * underflowUnits) (15 * 2 ^ 149) (fpVal x)
     else logAtMost (16 * fpMag r) (17 * 2 ^ 149) (fpVal x) && logAtLeast (16 * fpMag r) (15 * 2 ^ 149) (fpVal x))

/-- `2^k * (1 + f)` for `x = k + f`, whose relative error is below 1/16; 0 below -150 and where rounding it breaks the
bound. -/
def expFallback (x : Word) : Word :=
  if fpVal x < -150 * 2 ^ 149 then 0 else
  let k := fpVal x / 2 ^ 149
  let f := (fpVal x % 2 ^ 149).toNat
  let r := roundFp false false ((2 ^ 149 + f) * 2 ^ (k + 149).toNat) (2 ^ (149 + (-(k + 149)).toNat))
  if expOk x r then r else 0

/-- R379. An integral operand from -149 to 127 gives exactly 2^k. -/
def fpExp2 (nj : Bool) (raw x : Word) : Word :=
  if isNaN x then quiet x
  else if isInf x then (if fpSign x then 0 else x)
  else if isZero x then 0x3F800000
  else if 128 * 2 ^ 149 ≤ fpVal x then infinity false
  else if fpVal x % 2 ^ 149 = 0 ∧ -149 * 2 ^ 149 ≤ fpVal x then
    flush nj (roundFp false false (2 ^ (fpVal x / 2 ^ 149 + 149).toNat) 1)
  else choose nj (expOk x) raw (expFallback x)

end Sys2Proof.Machine
end

