-- ==== Sys2Proof/Machine/Float.lean ====
section
/-! DEFINITION. The floating-point instructions (43_floating_point.md R350 to R369, 47_fp_compare_estimate.md R370 to
R379). Each treats its operands as four words (R340), read through `IN` where R342 says so. -/

namespace Sys2Proof.Machine

/-- The words of `VR[r]` after `IN` (R342). -/
def State.fpIn (s : State) (r : VReg) (i : Nat) : Word := flush s.nj (word (s.vreg r) i)

/-- `vaddfp` (R350). -/
def execVaddfp (vD vA vB : VReg) (s : State) : Result :=
  result s vD (ofWords fun i => fpAdd s.nj (s.fpIn vA i) (s.fpIn vB i))

/-- `vsubfp` (R351). -/
def execVsubfp (vD vA vB : VReg) (s : State) : Result :=
  result s vD (ofWords fun i => fpSub s.nj (s.fpIn vA i) (s.fpIn vB i))

/-- `vmaddfp` (R352): `vA * vC + vB`. -/
def execVmaddfp (vD vA vB vC : VReg) (s : State) : Result :=
  result s vD (ofWords fun i => fpMulAdd s.nj (s.fpIn vA i) (s.fpIn vB i) (s.fpIn vC i))

/-- `vnmsubfp` (R353): `-(vA * vC - vB)`. -/
def execVnmsubfp (vD vA vB vC : VReg) (s : State) : Result :=
  result s vD (ofWords fun i => fpNegMulSub s.nj (s.fpIn vA i) (s.fpIn vB i) (s.fpIn vC i))

/-- `vmaxfp` (R354). -/
def execVmaxfp (vD vA vB : VReg) (s : State) : Result := result s vD (ofWords fun i => fpMax (s.fpIn vA i) (s.fpIn vB i))

/-- `vminfp` (R355). -/
def execVminfp (vD vA vB : VReg) (s : State) : Result := result s vD (ofWords fun i => fpMin (s.fpIn vA i) (s.fpIn vB i))

/-- `vrfin` (R356). Independent of NJ. -/
def execVrfin (vD vB : VReg) (s : State) : Result := result s vD (words1 (fpRoundInt .nearest) (s.vreg vB))

/-- `vrfiz` (R357). Independent of NJ. -/
def execVrfiz (vD vB : VReg) (s : State) : Result := result s vD (words1 (fpRoundInt .towardZero) (s.vreg vB))

/-- `vrfip` (R358). -/
def execVrfip (vD vB : VReg) (s : State) : Result := result s vD (ofWords fun i => fpRoundInt .up (s.fpIn vB i))

/-- `vrfim` (R359). -/
def execVrfim (vD vB : VReg) (s : State) : Result := result s vD (ofWords fun i => fpRoundInt .down (s.fpIn vB i))

/-- `vcfux` (R361). -/
def execVcfux (vD : VReg) (uimm : BitVec 5) (vB : VReg) (s : State) : Result :=
  result s vD (words1 (fun x => fixedToFp x.toNat uimm.toNat) (s.vreg vB))

/-- `vcfsx` (R363). -/
def execVcfsx (vD : VReg) (uimm : BitVec 5) (vB : VReg) (s : State) : Result :=
  result s vD (words1 (fun x => fixedToFp x.toInt uimm.toNat) (s.vreg vB))

/-- `vctuxs` (R364). -/
def execVctuxs (vD : VReg) (uimm : BitVec 5) (vB : VReg) (s : State) : Result :=
  resultSat s vD (satWords fun i => fpToUnsigned uimm.toNat (word (s.vreg vB) i))

/-- `vctsxs` (R365). -/
def execVctsxs (vD : VReg) (uimm : BitVec 5) (vB : VReg) (s : State) : Result :=
  resultSat s vD (satWords fun i => fpToSigned uimm.toNat (word (s.vreg vB) i))

/-- The mask of a floating-point compare (R370). -/
def fpMask (s : State) (vA vB : VReg) (rel : Int → Int → Bool) : Vec :=
  ofWords fun i => truth 32 (fpCompare rel (s.fpIn vA i) (s.fpIn vB i))

/-- `vcmpeqfp` (R371). -/
def execVcmpeqfp (vD vA vB : VReg) (rc : Bool) (s : State) : Result :=
  resultCompare s vD rc (fpMask s vA vB fun v w => v = w) (cr6Compare (fpMask s vA vB fun v w => v = w))

/-- `vcmpgefp` (R372). -/
def execVcmpgefp (vD vA vB : VReg) (rc : Bool) (s : State) : Result :=
  resultCompare s vD rc (fpMask s vA vB fun v w => w ≤ v) (cr6Compare (fpMask s vA vB fun v w => w ≤ v))

/-- `vcmpgtfp` (R374). -/
def execVcmpgtfp (vD vA vB : VReg) (rc : Bool) (s : State) : Result :=
  resultCompare s vD rc (fpMask s vA vB fun v w => w < v) (cr6Compare (fpMask s vA vB fun v w => w < v))

/-- The bound bits of the four words (R373). -/
def fpBoundsMask (s : State) (vA vB : VReg) : Vec := ofWords fun i => fpBounds (s.fpIn vA i) (s.fpIn vB i)

/-- `vcmpbfp` (R373). -/
def execVcmpbfp (vD vA vB : VReg) (rc : Bool) (s : State) : Result :=
  resultCompare s vD rc (fpBoundsMask s vA vB) (cr6Bounds (fpBoundsMask s vA vB))

/-- The four estimates of one instruction: `f` of what the implementation answers for each operand (R375). -/
def estimates (s : State) (vB : VReg) (answer : Nat → Nat → Word → Word) (f : Bool → Word → Word → Word) : Vec :=
  ofWords fun i => f s.nj (answer s.draws i (s.fpIn vB i)) (s.fpIn vB i)

/-- `vrefp` (R376). -/
def execVrefp (vD vB : VReg) (s : State) : Result := resultDrawn s vD (estimates s vB Config.estRecip fpRecip)

/-- `vrsqrtefp` (R377). -/
def execVrsqrtefp (vD vB : VReg) (s : State) : Result := resultDrawn s vD (estimates s vB Config.estRsqrt fpRsqrt)

/-- `vlogefp` (R378). -/
def execVlogefp (vD vB : VReg) (s : State) : Result := resultDrawn s vD (estimates s vB Config.estLog2 fpLog2)

/-- `vexptefp` (R379). -/
def execVexptefp (vD vB : VReg) (s : State) : Result := resultDrawn s vD (estimates s vB Config.estExp2 fpExp2)

end Sys2Proof.Machine
end

