-- ==== Sys2Proof/Machine/IntAddSub.lean ====
section
/-! DEFINITION. Integer add and subtract (40_int_arith_add_sub.md, R200 to R223). -/

namespace Sys2Proof.Machine

/-! A saturating operation on the elements of two vectors. -/

def satBytes2 (f : BitVec 8 → BitVec 8 → BitVec 8 × Bool) (a b : Vec) : Vec × Bool :=
  satBytes fun i => f (byte a i) (byte b i)

def satHalves2 (f : BitVec 16 → BitVec 16 → BitVec 16 × Bool) (a b : Vec) : Vec × Bool :=
  satHalves fun i => f (half a i) (half b i)

def satWords2 (f : BitVec 32 → BitVec 32 → BitVec 32 × Bool) (a b : Vec) : Vec × Bool :=
  satWords fun i => f (word a i) (word b i)

/-! The exact sum or difference of two elements, narrowed with saturation (R12). -/

def addUnsignedSat {w : Nat} (x y : BitVec w) : BitVec w × Bool := uiToUiSat w (x.toNat + y.toNat)

def addSignedSat {w : Nat} (x y : BitVec w) : BitVec w × Bool := siToSiSat w (x.toInt + y.toInt)

def subUnsignedSat {w : Nat} (x y : BitVec w) : BitVec w × Bool := siToUiSat w (x.toNat - y.toNat : Int)

def subSignedSat {w : Nat} (x y : BitVec w) : BitVec w × Bool := siToSiSat w (x.toInt - y.toInt)

/-- `vaddubm` (R202). The sum modulo 2^8. -/
def execVaddubm (vD vA vB : VReg) (s : State) : Result :=
  result s vD (bytes2 (· + ·) (s.vreg vA) (s.vreg vB))

/-- `vadduhm` (R203). The sum modulo 2^16. -/
def execVadduhm (vD vA vB : VReg) (s : State) : Result :=
  result s vD (halves2 (· + ·) (s.vreg vA) (s.vreg vB))

/-- `vadduwm` (R204). The sum modulo 2^32. -/
def execVadduwm (vD vA vB : VReg) (s : State) : Result :=
  result s vD (words2 (· + ·) (s.vreg vA) (s.vreg vB))

/-- `vaddcuw` (R205). The carry out of the sum. -/
def execVaddcuw (vD vA vB : VReg) (s : State) : Result :=
  result s vD (words2 (fun x y => if 2 ^ 32 ≤ x.toNat + y.toNat then 1 else 0) (s.vreg vA) (s.vreg vB))

/-- `vaddubs` (R206). The unsigned sum, saturated. -/
def execVaddubs (vD vA vB : VReg) (s : State) : Result :=
  resultSat s vD (satBytes2 addUnsignedSat (s.vreg vA) (s.vreg vB))

/-- `vadduhs` (R207). The unsigned sum, saturated. -/
def execVadduhs (vD vA vB : VReg) (s : State) : Result :=
  resultSat s vD (satHalves2 addUnsignedSat (s.vreg vA) (s.vreg vB))

/-- `vadduws` (R208). The unsigned sum, saturated. -/
def execVadduws (vD vA vB : VReg) (s : State) : Result :=
  resultSat s vD (satWords2 addUnsignedSat (s.vreg vA) (s.vreg vB))

/-- `vaddsbs` (R209). The signed sum, saturated. -/
def execVaddsbs (vD vA vB : VReg) (s : State) : Result :=
  resultSat s vD (satBytes2 addSignedSat (s.vreg vA) (s.vreg vB))

/-- `vaddshs` (R210). The signed sum, saturated. -/
def execVaddshs (vD vA vB : VReg) (s : State) : Result :=
  resultSat s vD (satHalves2 addSignedSat (s.vreg vA) (s.vreg vB))

/-- `vaddsws` (R211). The signed sum, saturated. -/
def execVaddsws (vD vA vB : VReg) (s : State) : Result :=
  resultSat s vD (satWords2 addSignedSat (s.vreg vA) (s.vreg vB))

/-- `vsububm` (R212). The difference modulo 2^8. -/
def execVsububm (vD vA vB : VReg) (s : State) : Result :=
  result s vD (bytes2 (· - ·) (s.vreg vA) (s.vreg vB))

/-- `vsubuhm` (R213). The difference modulo 2^16. -/
def execVsubuhm (vD vA vB : VReg) (s : State) : Result :=
  result s vD (halves2 (· - ·) (s.vreg vA) (s.vreg vB))

/-- `vsubuwm` (R214). The difference modulo 2^32. -/
def execVsubuwm (vD vA vB : VReg) (s : State) : Result :=
  result s vD (words2 (· - ·) (s.vreg vA) (s.vreg vB))

/-- `vsubcuw` (R215). The complement of the borrow out of the difference. -/
def execVsubcuw (vD vA vB : VReg) (s : State) : Result :=
  result s vD (words2 (fun x y => if y.toNat ≤ x.toNat then 1 else 0) (s.vreg vA) (s.vreg vB))

/-- `vsububs` (R216). The unsigned difference, saturated. -/
def execVsububs (vD vA vB : VReg) (s : State) : Result :=
  resultSat s vD (satBytes2 subUnsignedSat (s.vreg vA) (s.vreg vB))

/-- `vsubuhs` (R217). The unsigned difference, saturated. -/
def execVsubuhs (vD vA vB : VReg) (s : State) : Result :=
  resultSat s vD (satHalves2 subUnsignedSat (s.vreg vA) (s.vreg vB))

/-- `vsubuws` (R218). The unsigned difference, saturated. -/
def execVsubuws (vD vA vB : VReg) (s : State) : Result :=
  resultSat s vD (satWords2 subUnsignedSat (s.vreg vA) (s.vreg vB))

/-- `vsubsbs` (R219). The signed difference, saturated. -/
def execVsubsbs (vD vA vB : VReg) (s : State) : Result :=
  resultSat s vD (satBytes2 subSignedSat (s.vreg vA) (s.vreg vB))

/-- `vsubshs` (R220). The signed difference, saturated. -/
def execVsubshs (vD vA vB : VReg) (s : State) : Result :=
  resultSat s vD (satHalves2 subSignedSat (s.vreg vA) (s.vreg vB))

/-- `vsubsws` (R221). The signed difference, saturated. -/
def execVsubsws (vD vA vB : VReg) (s : State) : Result :=
  resultSat s vD (satWords2 subSignedSat (s.vreg vA) (s.vreg vB))

end Sys2Proof.Machine
end

