-- ==== Sys2Proof/Machine/IntLogic.lean ====
section
/-! DEFINITION. Integer compare, logical, rotate and element shift (42_int_compare_logical_rotate_shift.md, R280 to
R310). -/

namespace Sys2Proof.Machine

/-- A compare that is recorded as R281 says. -/
def compared (s : State) (vD : VReg) (rc : Bool) (d : Vec) : Result := resultCompare s vD rc d (cr6Compare d)

/-! The relations (R280). -/

def isEqual {w : Nat} (x y : BitVec w) : BitVec w := truth w (x = y)

def isGreaterUnsigned {w : Nat} (x y : BitVec w) : BitVec w := truth w (y.toNat < x.toNat)

def isGreaterSigned {w : Nat} (x y : BitVec w) : BitVec w := truth w (y.toInt < x.toInt)

/-! Rotates and shifts: only the low-order log2(w) bits of the count element are read (R298 to R309). -/

def rotateLeftBy {w : Nat} (x y : BitVec w) : BitVec w := x.rotateLeft (y.toNat % w)

def shiftLeftBy {w : Nat} (x y : BitVec w) : BitVec w := x <<< (y.toNat % w)

def shiftRightBy {w : Nat} (x y : BitVec w) : BitVec w := x >>> (y.toNat % w)

def shiftRightAlgebraicBy {w : Nat} (x y : BitVec w) : BitVec w := x.sshiftRight (y.toNat % w)

/-- `vcmpequb` (R282). Equal-to. -/
def execVcmpequb (vD vA vB : VReg) (rc : Bool) (s : State) : Result :=
  compared s vD rc (bytes2 isEqual (s.vreg vA) (s.vreg vB))

/-- `vcmpequh` (R283). Equal-to. -/
def execVcmpequh (vD vA vB : VReg) (rc : Bool) (s : State) : Result :=
  compared s vD rc (halves2 isEqual (s.vreg vA) (s.vreg vB))

/-- `vcmpequw` (R284). Equal-to. -/
def execVcmpequw (vD vA vB : VReg) (rc : Bool) (s : State) : Result :=
  compared s vD rc (words2 isEqual (s.vreg vA) (s.vreg vB))

/-- `vcmpgtub` (R285). Unsigned greater-than. -/
def execVcmpgtub (vD vA vB : VReg) (rc : Bool) (s : State) : Result :=
  compared s vD rc (bytes2 isGreaterUnsigned (s.vreg vA) (s.vreg vB))

/-- `vcmpgtuh` (R286). Unsigned greater-than. -/
def execVcmpgtuh (vD vA vB : VReg) (rc : Bool) (s : State) : Result :=
  compared s vD rc (halves2 isGreaterUnsigned (s.vreg vA) (s.vreg vB))

/-- `vcmpgtuw` (R287). Unsigned greater-than. -/
def execVcmpgtuw (vD vA vB : VReg) (rc : Bool) (s : State) : Result :=
  compared s vD rc (words2 isGreaterUnsigned (s.vreg vA) (s.vreg vB))

/-- `vcmpgtsb` (R288). Signed greater-than. -/
def execVcmpgtsb (vD vA vB : VReg) (rc : Bool) (s : State) : Result :=
  compared s vD rc (bytes2 isGreaterSigned (s.vreg vA) (s.vreg vB))

/-- `vcmpgtsh` (R289). Signed greater-than. -/
def execVcmpgtsh (vD vA vB : VReg) (rc : Bool) (s : State) : Result :=
  compared s vD rc (halves2 isGreaterSigned (s.vreg vA) (s.vreg vB))

/-- `vcmpgtsw` (R290). Signed greater-than. -/
def execVcmpgtsw (vD vA vB : VReg) (rc : Bool) (s : State) : Result :=
  compared s vD rc (words2 isGreaterSigned (s.vreg vA) (s.vreg vB))

/-- `vand` (R293). -/
def execVand (vD vA vB : VReg) (s : State) : Result := result s vD (s.vreg vA &&& s.vreg vB)

/-- `vandc` (R294). -/
def execVandc (vD vA vB : VReg) (s : State) : Result := result s vD (s.vreg vA &&& ~~~s.vreg vB)

/-- `vor` (R295). -/
def execVor (vD vA vB : VReg) (s : State) : Result := result s vD (s.vreg vA ||| s.vreg vB)

/-- `vxor` (R296). -/
def execVxor (vD vA vB : VReg) (s : State) : Result := result s vD (s.vreg vA ^^^ s.vreg vB)

/-- `vnor` (R297). -/
def execVnor (vD vA vB : VReg) (s : State) : Result := result s vD (~~~(s.vreg vA ||| s.vreg vB))

/-- `vrlb` (R298). Rotate left. -/
def execVrlb (vD vA vB : VReg) (s : State) : Result :=
  result s vD (bytes2 rotateLeftBy (s.vreg vA) (s.vreg vB))

/-- `vrlh` (R299). Rotate left. -/
def execVrlh (vD vA vB : VReg) (s : State) : Result :=
  result s vD (halves2 rotateLeftBy (s.vreg vA) (s.vreg vB))

/-- `vrlw` (R300). Rotate left. -/
def execVrlw (vD vA vB : VReg) (s : State) : Result :=
  result s vD (words2 rotateLeftBy (s.vreg vA) (s.vreg vB))

/-- `vslb` (R301). Shift left. -/
def execVslb (vD vA vB : VReg) (s : State) : Result :=
  result s vD (bytes2 shiftLeftBy (s.vreg vA) (s.vreg vB))

/-- `vslh` (R302). Shift left. -/
def execVslh (vD vA vB : VReg) (s : State) : Result :=
  result s vD (halves2 shiftLeftBy (s.vreg vA) (s.vreg vB))

/-- `vslw` (R303). Shift left. -/
def execVslw (vD vA vB : VReg) (s : State) : Result :=
  result s vD (words2 shiftLeftBy (s.vreg vA) (s.vreg vB))

/-- `vsrb` (R304). Shift right, zero fill. -/
def execVsrb (vD vA vB : VReg) (s : State) : Result :=
  result s vD (bytes2 shiftRightBy (s.vreg vA) (s.vreg vB))

/-- `vsrh` (R305). Shift right, zero fill. -/
def execVsrh (vD vA vB : VReg) (s : State) : Result :=
  result s vD (halves2 shiftRightBy (s.vreg vA) (s.vreg vB))

/-- `vsrw` (R306). Shift right, zero fill. -/
def execVsrw (vD vA vB : VReg) (s : State) : Result :=
  result s vD (words2 shiftRightBy (s.vreg vA) (s.vreg vB))

/-- `vsrab` (R307). Shift right, sign fill. -/
def execVsrab (vD vA vB : VReg) (s : State) : Result :=
  result s vD (bytes2 shiftRightAlgebraicBy (s.vreg vA) (s.vreg vB))

/-- `vsrah` (R308). Shift right, sign fill. -/
def execVsrah (vD vA vB : VReg) (s : State) : Result :=
  result s vD (halves2 shiftRightAlgebraicBy (s.vreg vA) (s.vreg vB))

/-- `vsraw` (R309). Shift right, sign fill. -/
def execVsraw (vD vA vB : VReg) (s : State) : Result :=
  result s vD (words2 shiftRightAlgebraicBy (s.vreg vA) (s.vreg vB))

end Sys2Proof.Machine
end

