-- ==== Sys2Proof/Machine/IntMul.lean ====
section
/-! DEFINITION. Integer multiply, multiply-add, multiply-sum, sum across, average, maximum and minimum
(41_int_arith_mul_sum_avg_minmax.md, R230 to R273). -/

namespace Sys2Proof.Machine

/-! The exact products of two elements, as integers (R231). -/

def mulUU {w : Nat} (x y : BitVec w) : Int := x.toNat * y.toNat

def mulSS {w : Nat} (x y : BitVec w) : Int := x.toInt * y.toInt

def mulSU {w : Nat} (x y : BitVec w) : Int := x.toInt * y.toNat

/-- The products of the byte elements `2k + odd`, each in the half word `k` (R230). -/
def mulBytes (f : BitVec 8 → BitVec 8 → Int) (odd : Nat) (a b : Vec) : Vec :=
  ofHalves fun k => BitVec.ofInt 16 (f (byte a (2 * k + odd)) (byte b (2 * k + odd)))

/-- The products of the half-word elements `2k + odd`, each in the word `k` (R230). -/
def mulHalves (f : BitVec 16 → BitVec 16 → Int) (odd : Nat) (a b : Vec) : Vec :=
  ofWords fun k => BitVec.ofInt 32 (f (half a (2 * k + odd)) (half b (2 * k + odd)))

/-- The signed product plus `round`, its high part (the floor of a division by 2^15), plus `z`, saturated (R241, R242). -/
def mulHighAdd (round : Int) (x y z : BitVec 16) : BitVec 16 × Bool :=
  siToSiSat 16 ((mulSS x y + round) / 2 ^ 15 + z.toInt)

/-- The sum of the products of the four byte elements in word `i` (R244, R245). -/
def sumProducts4 (f : BitVec 8 → BitVec 8 → Int) (a b : Vec) (i : Nat) : Int :=
  f (byte a (4 * i)) (byte b (4 * i)) + f (byte a (4 * i + 1)) (byte b (4 * i + 1)) +
    f (byte a (4 * i + 2)) (byte b (4 * i + 2)) + f (byte a (4 * i + 3)) (byte b (4 * i + 3))

/-- The sum of the products of the two half-word elements in word `i` (R246 to R249). -/
def sumProducts2 (f : BitVec 16 → BitVec 16 → Int) (a b : Vec) (i : Nat) : Int :=
  f (half a (2 * i)) (half b (2 * i)) + f (half a (2 * i + 1)) (half b (2 * i + 1))

/-- The average rounded up: half of the sum plus 1 (R255 to R260). -/
def avgUnsigned {w : Nat} (x y : BitVec w) : BitVec w := BitVec.ofNat w ((x.toNat + y.toNat + 1) / 2)

def avgSigned {w : Nat} (x y : BitVec w) : BitVec w := BitVec.ofInt w ((x.toInt + y.toInt + 1) / 2)

def maxUnsigned {w : Nat} (x y : BitVec w) : BitVec w := if y.toNat ≤ x.toNat then x else y

def maxSigned {w : Nat} (x y : BitVec w) : BitVec w := if y.toInt ≤ x.toInt then x else y

def minUnsigned {w : Nat} (x y : BitVec w) : BitVec w := if x.toNat < y.toNat then x else y

def minSigned {w : Nat} (x y : BitVec w) : BitVec w := if x.toInt < y.toInt then x else y

/-- `vmuloub` (R233). The products of the odd-numbered unsigned elements. -/
def execVmuloub (vD vA vB : VReg) (s : State) : Result :=
  result s vD (mulBytes mulUU 1 (s.vreg vA) (s.vreg vB))

/-- `vmulouh` (R234). The products of the odd-numbered unsigned elements. -/
def execVmulouh (vD vA vB : VReg) (s : State) : Result :=
  result s vD (mulHalves mulUU 1 (s.vreg vA) (s.vreg vB))

/-- `vmulosb` (R235). The products of the odd-numbered signed elements. -/
def execVmulosb (vD vA vB : VReg) (s : State) : Result :=
  result s vD (mulBytes mulSS 1 (s.vreg vA) (s.vreg vB))

/-- `vmulosh` (R236). The products of the odd-numbered signed elements. -/
def execVmulosh (vD vA vB : VReg) (s : State) : Result :=
  result s vD (mulHalves mulSS 1 (s.vreg vA) (s.vreg vB))

/-- `vmuleub` (R237). The products of the even-numbered unsigned elements. -/
def execVmuleub (vD vA vB : VReg) (s : State) : Result :=
  result s vD (mulBytes mulUU 0 (s.vreg vA) (s.vreg vB))

/-- `vmuleuh` (R238). The products of the even-numbered unsigned elements. -/
def execVmuleuh (vD vA vB : VReg) (s : State) : Result :=
  result s vD (mulHalves mulUU 0 (s.vreg vA) (s.vreg vB))

/-- `vmulesb` (R239). The products of the even-numbered signed elements. -/
def execVmulesb (vD vA vB : VReg) (s : State) : Result :=
  result s vD (mulBytes mulSS 0 (s.vreg vA) (s.vreg vB))

/-- `vmulesh` (R240). The products of the even-numbered signed elements. -/
def execVmulesh (vD vA vB : VReg) (s : State) : Result :=
  result s vD (mulHalves mulSS 0 (s.vreg vA) (s.vreg vB))

/-- `vmhaddshs` (R241). The high part of the product plus vC, saturated. -/
def execVmhaddshs (vD vA vB vC : VReg) (s : State) : Result :=
  resultSat s vD (satHalves fun i => mulHighAdd 0 (half (s.vreg vA) i) (half (s.vreg vB) i) (half (s.vreg vC) i))

/-- `vmhraddshs` (R242). The rounded high part of the product plus vC, saturated. -/
def execVmhraddshs (vD vA vB vC : VReg) (s : State) : Result :=
  resultSat s vD (satHalves fun i => mulHighAdd 0x4000 (half (s.vreg vA) i) (half (s.vreg vB) i) (half (s.vreg vC) i))

/-- `vmladduhm` (R243). The low half of the product plus vC. -/
def execVmladduhm (vD vA vB vC : VReg) (s : State) : Result :=
  result s vD (ofHalves fun i => half (s.vreg vA) i * half (s.vreg vB) i + half (s.vreg vC) i)

/-- `vmsumubm` (R244). vC plus the unsigned products, modulo 2^32. -/
def execVmsumubm (vD vA vB vC : VReg) (s : State) : Result :=
  result s vD (ofWords fun i => BitVec.ofInt 32 ((word (s.vreg vC) i).toNat + sumProducts4 mulUU (s.vreg vA) (s.vreg vB) i))

/-- `vmsummbm` (R245). vC plus the products of signed by unsigned bytes, modulo 2^32. -/
def execVmsummbm (vD vA vB vC : VReg) (s : State) : Result :=
  result s vD (ofWords fun i => BitVec.ofInt 32 ((word (s.vreg vC) i).toInt + sumProducts4 mulSU (s.vreg vA) (s.vreg vB) i))

/-- `vmsumuhm` (R246). vC plus the unsigned products, modulo 2^32. -/
def execVmsumuhm (vD vA vB vC : VReg) (s : State) : Result :=
  result s vD (ofWords fun i => BitVec.ofInt 32 ((word (s.vreg vC) i).toNat + sumProducts2 mulUU (s.vreg vA) (s.vreg vB) i))

/-- `vmsumuhs` (R247). vC plus the unsigned products, saturated once. -/
def execVmsumuhs (vD vA vB vC : VReg) (s : State) : Result :=
  resultSat s vD (satWords fun i => uiToUiSat 32 ((word (s.vreg vC) i).toNat + sumProducts2 mulUU (s.vreg vA) (s.vreg vB) i).toNat)

/-- `vmsumshm` (R248). vC plus the signed products, modulo 2^32. -/
def execVmsumshm (vD vA vB vC : VReg) (s : State) : Result :=
  result s vD (ofWords fun i => BitVec.ofInt 32 ((word (s.vreg vC) i).toInt + sumProducts2 mulSS (s.vreg vA) (s.vreg vB) i))

/-- `vmsumshs` (R249). vC plus the signed products, saturated once. -/
def execVmsumshs (vD vA vB vC : VReg) (s : State) : Result :=
  resultSat s vD (satWords fun i => siToSiSat 32 ((word (s.vreg vC) i).toInt + sumProducts2 mulSS (s.vreg vA) (s.vreg vB) i))

/-- `vsumsws` (R250). The sum of the words of vA and word 3 of vB, in word 3; words 0 to 2 are cleared. -/
def execVsumsws (vD vA vB : VReg) (s : State) : Result :=
  resultSat s vD (satWords fun i =>
    if i = 3 then
      siToSiSat 32 ((word (s.vreg vB) 3).toInt + (word (s.vreg vA) 0).toInt + (word (s.vreg vA) 1).toInt +
        (word (s.vreg vA) 2).toInt + (word (s.vreg vA) 3).toInt)
    else (0, false))

/-- `vsum2sws` (R251). In words 1 and 3 the sum of two words of vA and that word of vB; words 0 and 2 are cleared. -/
def execVsum2sws (vD vA vB : VReg) (s : State) : Result :=
  resultSat s vD (satWords fun i =>
    if i % 2 = 1 then
      siToSiSat 32 ((word (s.vreg vA) (i - 1)).toInt + (word (s.vreg vA) i).toInt + (word (s.vreg vB) i).toInt)
    else (0, false))

/-- `vsum4ubs` (R252). Each word of vB plus the unsigned bytes of that word of vA, saturated. -/
def execVsum4ubs (vD vA vB : VReg) (s : State) : Result :=
  resultSat s vD (satWords fun i =>
    uiToUiSat 32 ((word (s.vreg vB) i).toNat + (byte (s.vreg vA) (4 * i)).toNat + (byte (s.vreg vA) (4 * i + 1)).toNat +
      (byte (s.vreg vA) (4 * i + 2)).toNat + (byte (s.vreg vA) (4 * i + 3)).toNat))

/-- `vsum4sbs` (R253). Each word of vB plus the signed bytes of that word of vA, saturated. -/
def execVsum4sbs (vD vA vB : VReg) (s : State) : Result :=
  resultSat s vD (satWords fun i =>
    siToSiSat 32 ((word (s.vreg vB) i).toInt + (byte (s.vreg vA) (4 * i)).toInt + (byte (s.vreg vA) (4 * i + 1)).toInt +
      (byte (s.vreg vA) (4 * i + 2)).toInt + (byte (s.vreg vA) (4 * i + 3)).toInt))

/-- `vsum4shs` (R254). Each word of vB plus the signed half words of that word of vA, saturated. -/
def execVsum4shs (vD vA vB : VReg) (s : State) : Result :=
  resultSat s vD (satWords fun i =>
    siToSiSat 32 ((word (s.vreg vB) i).toInt + (half (s.vreg vA) (2 * i)).toInt + (half (s.vreg vA) (2 * i + 1)).toInt))

/-- `vavgub` (R255). The rounded unsigned averages. -/
def execVavgub (vD vA vB : VReg) (s : State) : Result :=
  result s vD (bytes2 avgUnsigned (s.vreg vA) (s.vreg vB))

/-- `vavguh` (R256). The rounded unsigned averages. -/
def execVavguh (vD vA vB : VReg) (s : State) : Result :=
  result s vD (halves2 avgUnsigned (s.vreg vA) (s.vreg vB))

/-- `vavguw` (R257). The rounded unsigned averages. -/
def execVavguw (vD vA vB : VReg) (s : State) : Result :=
  result s vD (words2 avgUnsigned (s.vreg vA) (s.vreg vB))

/-- `vavgsb` (R258). The rounded signed averages. -/
def execVavgsb (vD vA vB : VReg) (s : State) : Result :=
  result s vD (bytes2 avgSigned (s.vreg vA) (s.vreg vB))

/-- `vavgsh` (R259). The rounded signed averages. -/
def execVavgsh (vD vA vB : VReg) (s : State) : Result :=
  result s vD (halves2 avgSigned (s.vreg vA) (s.vreg vB))

/-- `vavgsw` (R260). The rounded signed averages. -/
def execVavgsw (vD vA vB : VReg) (s : State) : Result :=
  result s vD (words2 avgSigned (s.vreg vA) (s.vreg vB))

/-- `vmaxub` (R261). The larger of the unsigned elements. -/
def execVmaxub (vD vA vB : VReg) (s : State) : Result :=
  result s vD (bytes2 maxUnsigned (s.vreg vA) (s.vreg vB))

/-- `vmaxuh` (R262). The larger of the unsigned elements. -/
def execVmaxuh (vD vA vB : VReg) (s : State) : Result :=
  result s vD (halves2 maxUnsigned (s.vreg vA) (s.vreg vB))

/-- `vmaxuw` (R263). The larger of the unsigned elements. -/
def execVmaxuw (vD vA vB : VReg) (s : State) : Result :=
  result s vD (words2 maxUnsigned (s.vreg vA) (s.vreg vB))

/-- `vmaxsb` (R264). The larger of the signed elements. -/
def execVmaxsb (vD vA vB : VReg) (s : State) : Result :=
  result s vD (bytes2 maxSigned (s.vreg vA) (s.vreg vB))

/-- `vmaxsh` (R265). The larger of the signed elements. -/
def execVmaxsh (vD vA vB : VReg) (s : State) : Result :=
  result s vD (halves2 maxSigned (s.vreg vA) (s.vreg vB))

/-- `vmaxsw` (R266). The larger of the signed elements. -/
def execVmaxsw (vD vA vB : VReg) (s : State) : Result :=
  result s vD (words2 maxSigned (s.vreg vA) (s.vreg vB))

/-- `vminub` (R267). The smaller of the unsigned elements. -/
def execVminub (vD vA vB : VReg) (s : State) : Result :=
  result s vD (bytes2 minUnsigned (s.vreg vA) (s.vreg vB))

/-- `vminuh` (R268). The smaller of the unsigned elements. -/
def execVminuh (vD vA vB : VReg) (s : State) : Result :=
  result s vD (halves2 minUnsigned (s.vreg vA) (s.vreg vB))

/-- `vminuw` (R269). The smaller of the unsigned elements. -/
def execVminuw (vD vA vB : VReg) (s : State) : Result :=
  result s vD (words2 minUnsigned (s.vreg vA) (s.vreg vB))

/-- `vminsb` (R270). The smaller of the signed elements. -/
def execVminsb (vD vA vB : VReg) (s : State) : Result :=
  result s vD (bytes2 minSigned (s.vreg vA) (s.vreg vB))

/-- `vminsh` (R271). The smaller of the signed elements. -/
def execVminsh (vD vA vB : VReg) (s : State) : Result :=
  result s vD (halves2 minSigned (s.vreg vA) (s.vreg vB))

/-- `vminsw` (R272). The smaller of the signed elements. -/
def execVminsw (vD vA vB : VReg) (s : State) : Result :=
  result s vD (words2 minSigned (s.vreg vA) (s.vreg vB))

end Sys2Proof.Machine
end

