-- ==== Sys2Proof/Machine/LoadStore.lean ====
section
/-! DEFINITION. Loads, stores and the shift-control generators (44_load_store.md, R380 to R402). -/

namespace Sys2Proof.Machine

/-- An element load of `n` bytes: the element in the lane its address names, every other bit of vD free; a data storage
interrupt leaves vD unchanged (R385, R387 to R389, R517). -/
def loadElement (n : Nat) (vD : VReg) (rA rB : GReg) (s : State) : Result :=
  let ea := alignTo n (s.ea rA rB)
  let x := s.memRead (elementAddress s.littleEndian n ea) n
  whenAvailable s (withAccess s ea n false s
    (.next (s.drawn.setVreg vD (putElem (laneOf s.littleEndian n ea) x s.undefinedNow)).advance))

/-- The quad word at the aligned address `q`, its double words swapped in little-endian mode (R93, R390). -/
def State.quadRead (s : State) (q : Word) : Vec :=
  if s.littleEndian then s.memRead (q + 8) 8 ++ s.memRead q 8 else s.memRead q 16

/-- A quad-word load; a data storage interrupt leaves vD undefined (R390, R517). -/
def loadQuad (vD : VReg) (rA rB : GReg) (s : State) : Result :=
  let q := alignTo 16 (s.ea rA rB)
  whenAvailable s (withAccess s q 16 false (s.drawn.setVreg vD s.undefinedNow)
    (.next (s.setVreg vD (s.quadRead q)).advance))

/-- An element store of `n` bytes: the element in the lane its address names; a data storage interrupt writes no byte
(R395 to R397, R517). -/
def storeElement (n : Nat) (vS : VReg) (rA rB : GReg) (s : State) : Result :=
  let ea := alignTo n (s.ea rA rB)
  whenAvailable s (withAccess s ea n true s
    (.next (s.memWrite (elementAddress s.littleEndian n ea) n
      (elem (8 * n) (laneOf s.littleEndian n ea) (s.vreg vS))).advance))

/-- The sixteen bytes a quad-word store writes, the double words swapped in little-endian mode (R93, R398). -/
def quadImage (le : Bool) (v : Vec) : BitVec (8 * 16) :=
  if le then v.extractLsb' 0 64 ++ v.extractLsb' 64 64 else v

/-- A quad-word store; a data storage interrupt writes no byte (R398, R517). -/
def storeQuad (vS : VReg) (rA rB : GReg) (s : State) : Result :=
  let q := alignTo 16 (s.ea rA rB)
  whenAvailable s (withAccess s q 16 true s (.next (s.memWrite q 16 (quadImage s.littleEndian (s.vreg vS))).advance))

/-- `sh <- EA[28:31]` (R392). -/
def shiftControl (s : State) (rA rB : GReg) : Nat := (s.ea rA rB).toNat % 16

/-- `lvebx` (R387). A byte. -/
def execLvebx (vD : VReg) (rA rB : GReg) (s : State) : Result :=
  loadElement 1 vD rA rB s

/-- `lvehx` (R388). A half word. -/
def execLvehx (vD : VReg) (rA rB : GReg) (s : State) : Result :=
  loadElement 2 vD rA rB s

/-- `lvewx` (R389). A word. -/
def execLvewx (vD : VReg) (rA rB : GReg) (s : State) : Result :=
  loadElement 4 vD rA rB s

/-- `lvx` (R390). A quad word. -/
def execLvx (vD : VReg) (rA rB : GReg) (s : State) : Result :=
  loadQuad vD rA rB s

/-- `lvxl` (R391). A quad word; the replacement hint has no architectural effect (R386). -/
def execLvxl (vD : VReg) (rA rB : GReg) (s : State) : Result :=
  loadQuad vD rA rB s

/-- `lvsl` (R392). Bytes sh, sh + 1, ..., sh + 15. No memory access; independent of MSR[LE] (D25). -/
def execLvsl (vD : VReg) (rA rB : GReg) (s : State) : Result :=
  result s vD (ofBytes fun i => BitVec.ofNat 8 (shiftControl s rA rB + i))

/-- `lvsr` (R393). Bytes 16 - sh, ..., 31 - sh. No memory access; independent of MSR[LE] (D25). -/
def execLvsr (vD : VReg) (rA rB : GReg) (s : State) : Result :=
  result s vD (ofBytes fun i => BitVec.ofNat 8 (16 - shiftControl s rA rB + i))

/-- `stvebx` (R395). A byte. -/
def execStvebx (vS : VReg) (rA rB : GReg) (s : State) : Result :=
  storeElement 1 vS rA rB s

/-- `stvehx` (R396). A half word. -/
def execStvehx (vS : VReg) (rA rB : GReg) (s : State) : Result :=
  storeElement 2 vS rA rB s

/-- `stvewx` (R397). A word. -/
def execStvewx (vS : VReg) (rA rB : GReg) (s : State) : Result :=
  storeElement 4 vS rA rB s

/-- `stvx` (R398). A quad word. -/
def execStvx (vS : VReg) (rA rB : GReg) (s : State) : Result :=
  storeQuad vS rA rB s

/-- `stvxl` (R399). A quad word; the replacement hint has no architectural effect (R386). -/
def execStvxl (vS : VReg) (rA rB : GReg) (s : State) : Result :=
  storeQuad vS rA rB s

end Sys2Proof.Machine
end

