-- ==== Sys2Proof/Machine/Permute.lean ====
section
/-! DEFINITION. Pack, unpack, splat, merge, permute, select and whole-register shifts (45_permute_format.md, R410
to R456). -/

namespace Sys2Proof.Machine

/-- A word packed to a pixel: bits 7, 8-12, 16-20, 24-28 (R420). -/
def packPixel (w : BitVec 32) : BitVec 16 := field w 7 1 ++ field w 8 5 ++ field w 16 5 ++ field w 24 5

/-- A pixel unpacked to a word: bit 0 sign-extended, the three 5-bit fields zero-extended (R426). -/
def unpackPixel (h : BitVec 16) : BitVec 32 :=
  (h.extractLsb' 15 1).signExtend 8 ++ (h.extractLsb' 10 5).setWidth 8 ++ (h.extractLsb' 5 5).setWidth 8 ++
    (h.extractLsb' 0 5).setWidth 8

/-- The elements of `a` and `b` from element `first` on, interleaved, those of `a` in the even positions (R436). -/
def interleave {w : Nat} (a b : Vec) (first i : Nat) : BitVec w :=
  if i % 2 = 0 then elem w (first + i / 2) a else elem w (first + i / 2) b

/-- The shift count of `vsl` and `vsr`, bits 125-127 of vB (R449). -/
def bitCount (b : Vec) : Nat := b.toNat % 8

/-- Every byte of vB holds the same bit count (R449). -/
def countsAgree (b : Vec) : Bool := (List.range 16).all fun i => (byte b i).toNat % 8 = bitCount b

/-- The octet count of `vslo` and `vsro`, bits 121-124 of vB (R446). -/
def octetCount (b : Vec) : Nat := b.toNat / 8 % 16

/-- A whole-register bit shift: where the counts disagree vD is undefined (R449). -/
def shiftWhole (s : State) (vD vB : VReg) (d : Vec) : Result :=
  if countsAgree (s.vreg vB) then result s vD d else resultDrawn s vD s.undefinedNow

/-- `vpkuhum` (R412). The low-order bytes. -/
def execVpkuhum (vD vA vB : VReg) (s : State) : Result :=
  result s vD (ofBytes fun i => (half2 (s.vreg vA) (s.vreg vB) i).setWidth 8)

/-- `vpkuwum` (R413). The low-order half words. -/
def execVpkuwum (vD vA vB : VReg) (s : State) : Result :=
  result s vD (ofHalves fun i => (word2 (s.vreg vA) (s.vreg vB) i).setWidth 16)

/-- `vpkuhus` (R414). Unsigned to unsigned, saturated. -/
def execVpkuhus (vD vA vB : VReg) (s : State) : Result :=
  resultSat s vD (satBytes fun i => uiToUiSat 8 (half2 (s.vreg vA) (s.vreg vB) i).toNat)

/-- `vpkuwus` (R415). Unsigned to unsigned, saturated. -/
def execVpkuwus (vD vA vB : VReg) (s : State) : Result :=
  resultSat s vD (satHalves fun i => uiToUiSat 16 (word2 (s.vreg vA) (s.vreg vB) i).toNat)

/-- `vpkshus` (R416). Signed to unsigned, saturated. -/
def execVpkshus (vD vA vB : VReg) (s : State) : Result :=
  resultSat s vD (satBytes fun i => siToUiSat 8 (half2 (s.vreg vA) (s.vreg vB) i).toInt)

/-- `vpkswus` (R417). Signed to unsigned, saturated. -/
def execVpkswus (vD vA vB : VReg) (s : State) : Result :=
  resultSat s vD (satHalves fun i => siToUiSat 16 (word2 (s.vreg vA) (s.vreg vB) i).toInt)

/-- `vpkshss` (R418). Signed to signed, saturated. -/
def execVpkshss (vD vA vB : VReg) (s : State) : Result :=
  resultSat s vD (satBytes fun i => siToSiSat 8 (half2 (s.vreg vA) (s.vreg vB) i).toInt)

/-- `vpkswss` (R419). Signed to signed, saturated. -/
def execVpkswss (vD vA vB : VReg) (s : State) : Result :=
  resultSat s vD (satHalves fun i => siToSiSat 16 (word2 (s.vreg vA) (s.vreg vB) i).toInt)

/-- `vpkpx` (R420). Words packed to 16-bit pixels. -/
def execVpkpx (vD vA vB : VReg) (s : State) : Result :=
  result s vD (ofHalves fun i => packPixel (word2 (s.vreg vA) (s.vreg vB) i))

/-- `vupkhsb` (R422). The high bytes, sign-extended. -/
def execVupkhsb (vD vB : VReg) (s : State) : Result :=
  result s vD (ofHalves fun i => (byte (s.vreg vB) i).signExtend 16)

/-- `vupkhsh` (R423). The high half words, sign-extended. -/
def execVupkhsh (vD vB : VReg) (s : State) : Result :=
  result s vD (ofWords fun i => (half (s.vreg vB) i).signExtend 32)

/-- `vupklsb` (R424). The low bytes, sign-extended. -/
def execVupklsb (vD vB : VReg) (s : State) : Result :=
  result s vD (ofHalves fun i => (byte (s.vreg vB) (8 + i)).signExtend 16)

/-- `vupklsh` (R425). The low half words, sign-extended. -/
def execVupklsh (vD vB : VReg) (s : State) : Result :=
  result s vD (ofWords fun i => (half (s.vreg vB) (4 + i)).signExtend 32)

/-- `vupkhpx` (R426). The high pixels, unpacked. -/
def execVupkhpx (vD vB : VReg) (s : State) : Result :=
  result s vD (ofWords fun i => unpackPixel (half (s.vreg vB) i))

/-- `vupklpx` (R427). The low pixels, unpacked. -/
def execVupklpx (vD vB : VReg) (s : State) : Result :=
  result s vD (ofWords fun i => unpackPixel (half (s.vreg vB) (4 + i)))

/-- `vspltb` (R430). Element UIMM in every element. -/
def execVspltb (vD : VReg) (uimm : BitVec 4) (vB : VReg) (s : State) : Result :=
  result s vD (ofBytes fun _ => byte (s.vreg vB) uimm.toNat)

/-- `vsplth` (R431). Element UIMM in every element. -/
def execVsplth (vD : VReg) (uimm : BitVec 3) (vB : VReg) (s : State) : Result :=
  result s vD (ofHalves fun _ => half (s.vreg vB) uimm.toNat)

/-- `vspltw` (R432). Element UIMM in every element. -/
def execVspltw (vD : VReg) (uimm : BitVec 2) (vB : VReg) (s : State) : Result :=
  result s vD (ofWords fun _ => word (s.vreg vB) uimm.toNat)

/-- `vspltisb` (R433). SIMM, sign-extended, in every element. -/
def execVspltisb (vD : VReg) (imm : BitVec 5) (s : State) : Result :=
  result s vD (ofBytes fun _ => simm 8 imm)

/-- `vspltish` (R434). SIMM, sign-extended, in every element. -/
def execVspltish (vD : VReg) (imm : BitVec 5) (s : State) : Result :=
  result s vD (ofHalves fun _ => simm 16 imm)

/-- `vspltisw` (R435). SIMM, sign-extended, in every element. -/
def execVspltisw (vD : VReg) (imm : BitVec 5) (s : State) : Result :=
  result s vD (ofWords fun _ => simm 32 imm)

/-- `vmrghb` (R437). The high halves, interleaved. -/
def execVmrghb (vD vA vB : VReg) (s : State) : Result :=
  result s vD (ofBytes (interleave (s.vreg vA) (s.vreg vB) 0))

/-- `vmrghh` (R438). The high halves, interleaved. -/
def execVmrghh (vD vA vB : VReg) (s : State) : Result :=
  result s vD (ofHalves (interleave (s.vreg vA) (s.vreg vB) 0))

/-- `vmrghw` (R439). The high halves, interleaved. -/
def execVmrghw (vD vA vB : VReg) (s : State) : Result :=
  result s vD (ofWords (interleave (s.vreg vA) (s.vreg vB) 0))

/-- `vmrglb` (R440). The low halves, interleaved. -/
def execVmrglb (vD vA vB : VReg) (s : State) : Result :=
  result s vD (ofBytes (interleave (s.vreg vA) (s.vreg vB) 8))

/-- `vmrglh` (R441). The low halves, interleaved. -/
def execVmrglh (vD vA vB : VReg) (s : State) : Result :=
  result s vD (ofHalves (interleave (s.vreg vA) (s.vreg vB) 4))

/-- `vmrglw` (R442). The low halves, interleaved. -/
def execVmrglw (vD vA vB : VReg) (s : State) : Result :=
  result s vD (ofWords (interleave (s.vreg vA) (s.vreg vB) 2))

/-- `vperm` (R443). Byte i is the byte of vA || vB that the low 5 bits of byte i of vC name. -/
def execVperm (vD vA vB vC : VReg) (s : State) : Result :=
  result s vD (ofBytes fun i => byte2 (s.vreg vA) (s.vreg vB) ((byte (s.vreg vC) i).toNat % 32))

/-- `vsel` (R445). Each bit from vA where vC has 0, from vB where it has 1. -/
def execVsel (vD vA vB vC : VReg) (s : State) : Result :=
  result s vD ((s.vreg vA &&& ~~~(s.vreg vC)) ||| (s.vreg vB &&& s.vreg vC))

/-- `vsldoi` (R447). Bytes SHB to SHB + 15 of vA || vB. -/
def execVsldoi (vD vA vB : VReg) (shb : BitVec 4) (s : State) : Result :=
  result s vD (ofBytes fun i => byte2 (s.vreg vA) (s.vreg vB) (shb.toNat + i))

/-- `vsl` (R450). Shift left by 0 to 7 bits. -/
def execVsl (vD vA vB : VReg) (s : State) : Result :=
  shiftWhole s vD vB (s.vreg vA <<< bitCount (s.vreg vB))

/-- `vsr` (R451). Shift right by 0 to 7 bits. -/
def execVsr (vD vA vB : VReg) (s : State) : Result :=
  shiftWhole s vD vB (s.vreg vA >>> bitCount (s.vreg vB))

/-- `vslo` (R452). Shift left by 0 to 15 bytes. -/
def execVslo (vD vA vB : VReg) (s : State) : Result :=
  result s vD (s.vreg vA <<< (8 * octetCount (s.vreg vB)))

/-- `vsro` (R453). Shift right by 0 to 15 bytes. -/
def execVsro (vD vA vB : VReg) (s : State) : Result :=
  result s vD (s.vreg vA >>> (8 * octetCount (s.vreg vB)))

end Sys2Proof.Machine
end

