-- ==== Sys2Proof/Machine/Step.lean ====
section
/-! DEFINITION. One step: the instruction at pc is fetched, decoded and executed, and the stream engine then makes its
next move. -/

namespace Sys2Proof.Machine

/-- One instruction is one step (R550, D17). -/
def step (s : State) : Host.Outcome State Fault Refusal :=
  match s.refusal with
  | some r => .refused r
  | none =>
    match decode s.fetch with
    | .error e => undecoded s.fetch e
    | .ok i =>
      match exec i s with
      | .next t => .next t.engine
      | .fault f => .fault f
      | .refused r => .refused r

/-- The instruction whose bits are `w` stored where `step` fetches: one 32-bit word (R130), in big-endian order at
`State.fetchAddress` (R131). It stands for loading a program from outside the machine (log entry 21). -/
def State.withFetchWord (s : State) (nbits w : Nat) : State :=
  s.memWrite s.fetchAddress 4 (BitVec.ofNat 32 (w % 2 ^ nbits))

end Sys2Proof.Machine
end

