-- ==== Sys2Proof/Safety.lean ====
section
/-! DEFINITION. What statements about every state speak of: the invariant that every step keeps, which instructions
need the vector facility, what an instruction leaves alone, how it completes, and the values of floating-point
numbers. -/

namespace Sys2Proof.Machine

/-- A stream within the ranges of its descriptor, its progress within the stream (R463, R471). -/
def Stream.legal (st : Stream) (k : Nat) : Bool :=
  1 ≤ st.size && st.size ≤ 32 && 1 ≤ st.count && st.count ≤ 256 && -32768 ≤ st.stride && st.stride ≤ 32768 &&
    st.stride ≠ 0 && st.unit < st.count && st.block < st.blocksInUnit k

/-- Every stream of the table is legal, and without the stream facility none exists (R58, R469). -/
def State.streamsLegal (s : State) : Prop :=
  ∀ tag st, s.stream tag = some st → s.cfg.streamsImplemented = true ∧ st.legal s.cfg.cacheBlockLog2 = true

/-- The parameters an implementation can have: interrupt vectors are word-aligned (R86, R504). -/
abbrev Config.legal (c : Config) : Prop := c.ivBase0.extractLsb' 0 2 = 0 ∧ c.ivBase1.extractLsb' 0 2 = 0

/-- What holds of the machine at all times: the memory is in its canonical form, pc is a multiple of 4 (R33), NJ reads 1
on an NJ_ONLY implementation (R36), and the stream table is legal (R58). -/
structure State.Inv (s : State) : Prop where
  memory : Memory.wf s.mem
  pcAligned : s.pc.extractLsb' 0 2 = 0
  config : Config.legal s.cfg
  njFixed : s.cfg.njOnly = true → bit s.vscr 15 = true
  streams : s.streamsLegal

/-- The instructions that need the vector facility: all but the six stream instructions and the two moves of VRSAVE
(R49, D10). -/
def needsVector : Instr → Bool
  | .dst .. => false
  | .dstt .. => false
  | .dstst .. => false
  | .dststt .. => false
  | .dss .. => false
  | .dssall .. => false
  | .mfspr .. => false
  | .mtspr .. => false
  | _ => true

/-! ## What an instruction leaves alone (R18, R201, R273, R368, R402, R456) -/

/-- Everything but pc, VSCR, CR and the vector registers is the same in `t` as in `s`: the GPRs, VRSAVE, MSR, SRR0,
SRR1, DAR, the stream table and its engine, the parameters, and every byte of memory. -/
structure KeptBesideVectors (s t : State) : Prop where
  gpr : t.gpr = s.gpr
  vrsave : t.vrsave = s.vrsave
  msr : t.msr = s.msr
  srr0 : t.srr0 = s.srr0
  srr1 : t.srr1 = s.srr1
  dar : t.dar = s.dar
  streams : t.streams = s.streams
  turn : t.turn = s.turn
  schedule : t.schedule = s.schedule
  cfg : t.cfg = s.cfg
  memory : ∀ a, Memory.read t.mem a = Memory.read s.mem a

/-- Every vector register but `VR[vD]` is the same. -/
def othersKept (s t : State) (vD : VReg) : Prop := ∀ r, r ≠ vD → t.vreg r = s.vreg r

/-! ## How an instruction completes. Each says that the encoder gives the instruction the word `w`, that `exec` answers
a next state `t` with pc advanced by 4 (R33), and what `t` holds. -/

/-- It writes `VR[vD]`, whose new value satisfies `P`, and changes nothing else: VSCR and CR are kept. -/
def Writes (i : Instr) (w : Word) (s : State) (vD : VReg) (P : Vec → Prop) : Prop :=
  encode i = w ∧
    ∃ t, exec i s = .next t ∧ t.pc = s.pc + 4 ∧ P (t.vreg vD) ∧ othersKept s t vD ∧ t.vscr = s.vscr ∧ t.cr = s.cr ∧
      KeptBesideVectors s t

/-- It writes `VR[vD]`, and VSCR[SAT] becomes 1 if `saturated` and otherwise keeps its value, as does every other bit of
VSCR (R37). CR is kept. -/
def WritesSat (i : Instr) (w : Word) (s : State) (vD : VReg) (P : Vec → Prop) (saturated : Prop) : Prop :=
  encode i = w ∧
    ∃ t, exec i s = .next t ∧ t.pc = s.pc + 4 ∧ P (t.vreg vD) ∧ othersKept s t vD ∧
      (∀ k < 32, bit t.vscr k = true ↔ bit s.vscr k = true ∨ (k = 31 ∧ saturated)) ∧ t.cr = s.cr ∧
      KeptBesideVectors s t

/-- It writes `VR[vD]`; with Rc = 1 bit `24 + k` of CR, for k from 0 to 3, becomes bit `k` of the record field `f` of the
new value, and every other bit of CR is kept; with Rc = 0 CR is kept (R44, R281). VSCR is kept. -/
def WritesRecord (i : Instr) (w : Word) (s : State) (vD : VReg) (rc : Bool) (P : Vec → Prop) (f : Vec → Nat → Prop) :
    Prop :=
  encode i = w ∧
    ∃ t, exec i s = .next t ∧ t.pc = s.pc + 4 ∧ P (t.vreg vD) ∧ othersKept s t vD ∧ t.vscr = s.vscr ∧
      (∀ k < 32, bit t.cr k = true ↔
        if rc = true ∧ 24 ≤ k ∧ k < 28 then f (t.vreg vD) (k - 24) else bit s.cr k = true) ∧
      KeptBesideVectors s t

/-- The record field of a compare: all true, 0, all false, 0 (R45, R281). -/
def allOrNone (d : Vec) (k : Nat) : Prop := (k = 0 ∧ d = BitVec.allOnes 128) ∨ (k = 2 ∧ d = 0)

/-- The record field of `vcmpbfp`: 0, 0, all in bounds, 0 (R46, R373). -/
def allInBounds (d : Vec) (k : Nat) : Prop := k = 2 ∧ d = 0

/-- It writes the `n` bytes of memory from address `a` on, byte `k` becoming `v k`, and changes nothing else: no register
but pc, and no other byte (R101). -/
def Stores (i : Instr) (w : Word) (s : State) (a : Word) (n : Nat) (v : Nat → Byte) : Prop :=
  encode i = w ∧
    ∃ t, exec i s = .next t ∧ t = { s with pc := s.pc + 4, mem := t.mem } ∧
      (∀ k < n, Memory.read t.mem (byteAddress a k) = v k) ∧
      ∀ b, (∀ k < n, b ≠ byteAddress a k) → Memory.read t.mem b = Memory.read s.mem b

/-- The access of `n` bytes at the aligned address `ea` neither faults nor matches the breakpoint (R510). -/
abbrev State.accessible (s : State) (ea : Word) (n : Nat) (store : Bool) : Prop :=
  s.accessFaults ea n store = false ∧ s.breakpointHit ea n store = false

/-! ## The values of single-precision numbers (R340, R343, R348) -/

/-- The value of a finite number (R340). -/
def fpValue (x : Word) : ℚ :=
  (if fpSign x then -1 else 1) *
    if fpExp x = 0 then (fpFrac x : ℚ) * 2 ^ (-149 : ℤ) else (2 ^ 23 + fpFrac x : ℚ) * 2 ^ ((fpExp x : ℤ) - 150)

/-- Neither an infinity nor a NaN. -/
def isFinite (x : Word) : Prop := fpExp x ≠ 255

/-- `r` is the single-precision number nearest to `v`, the one with an even fraction where two are equally near, and has
the sign of `v` (R343). -/
structure NearestTo (v : ℚ) (r : Word) : Prop where
  finite : isFinite r
  sign : fpSign r = decide (v < 0)
  nearest : ∀ y, isFinite y → |fpValue r - v| ≤ |fpValue y - v|
  even : ∀ y, isFinite y → fpValue y ≠ fpValue r → |fpValue y - v| = |fpValue r - v| → fpFrac r % 2 = 0

/-- `r` is `ROUND(v)` for a nonzero `v` (R348): the infinity of its sign where v rounded to 24 significant bits reaches
2^128; in non-Java mode the zero of its sign below 2^-126; else the nearest number. -/
def Rounded (nj : Bool) (v : ℚ) (r : Word) : Prop :=
  if 2 ^ 128 - 2 ^ 103 ≤ |v| then r = if v < 0 then 0xFF800000 else 0x7F800000
  else if nj = true ∧ |v| < 2 ^ (-126 : ℤ) then r = if v < 0 then 0x80000000 else 0
  else NearestTo v r

/-- `x ≤ y` for two numbers, with -infinity below and +infinity above every finite one, and +0 equal to -0; false where
either is a NaN (R349, R370). -/
def fpLe (x y : Word) : Prop :=
  isNaN x = false ∧ isNaN y = false ∧
    (x = 0xFF800000 ∨ y = 0x7F800000 ∨ (isFinite x ∧ isFinite y ∧ fpValue x ≤ fpValue y))

/-! The element `r` that an instruction gives for the elements `x`, `y`, `z`, after `IN`. -/

/-- The sum `x + y` (R350). -/
def SumOf (nj : Bool) (x y r : Word) : Prop :=
  if isNaN x then r = x ||| 0x00400000
  else if isNaN y then r = y ||| 0x00400000
  else if isInf x ∧ isInf y ∧ fpSign x ≠ fpSign y then r = 0x7FC00000
  else if isInf x then r = x
  else if isInf y then r = y
  else if fpValue x + fpValue y = 0 then r = if fpSign x ∧ fpSign y then 0x80000000 else 0
  else Rounded nj (fpValue x + fpValue y) r

/-- The difference `x - y` (R351): the sum with the sign of `y` inverted after the NaN test. -/
def DifferenceOf (nj : Bool) (x y r : Word) : Prop :=
  if isNaN x then r = x ||| 0x00400000
  else if isNaN y then r = y ||| 0x00400000
  else SumOf nj x (y ^^^ 0x80000000) r

/-- The fused `x * z + y` (R352). -/
def FusedOf (nj : Bool) (x y z r : Word) : Prop :=
  if isNaN x then r = x ||| 0x00400000
  else if isNaN y then r = y ||| 0x00400000
  else if isNaN z then r = z ||| 0x00400000
  else if (isInf x ∧ isZero z) ∨ (isZero x ∧ isInf z) then r = 0x7FC00000
  else if isInf x ∨ isInf z then
    if isInf y ∧ fpSign y ≠ (fpSign x ^^ fpSign z) then r = 0x7FC00000
    else r = if fpSign x ^^ fpSign z then 0xFF800000 else 0x7F800000
  else if isInf y then r = y
  else if fpValue x * fpValue z + fpValue y = 0 then
    r = if (fpSign x ^^ fpSign z) ∧ fpSign y then 0x80000000 else 0
  else Rounded nj (fpValue x * fpValue z + fpValue y) r

/-- The fused `-(x * z - y)` (R353): a NaN, propagated or generated, is not negated. -/
def NegatedFusedOf (nj : Bool) (x y z r : Word) : Prop :=
  if isNaN x then r = x ||| 0x00400000
  else if isNaN y then r = y ||| 0x00400000
  else if isNaN z then r = z ||| 0x00400000
  else ∃ q, FusedOf nj x (y ^^^ 0x80000000) z q ∧ r = if q = 0x7FC00000 then q else q ^^^ 0x80000000

/-- The integer to which a number that is no integer is rounded (R356 to R359). -/
def IntegralOf (f : ℚ → ℤ → Prop) (x r : Word) : Prop :=
  if isNaN x then r = x ||| 0x00400000
  else if isInf x ∨ isZero x ∨ 150 ≤ fpExp x then r = x
  else isFinite r ∧ fpSign r = fpSign x ∧ ∃ n : ℤ, fpValue r = (n : ℚ) ∧ f (fpValue x) n

/-- `n` is the integer nearest to `v`, the even one of two (R13, R356). -/
def nearestInteger (v : ℚ) (n : ℤ) : Prop := |v - n| ≤ 1 / 2 ∧ (|v - n| = 1 / 2 → n % 2 = 0)

/-- `v` rounded toward zero (R357, R362). -/
def towardZero (v : ℚ) : ℤ := if v < 0 then ⌈v⌉ else ⌊v⌋

/-- The integer between `lo` and `hi` to which `x * 2^u` is converted (R362). -/
def fixedOf (lo hi : ℤ) (u : Nat) (x : Word) : ℤ :=
  if isNaN x then 0
  else if x = 0x7F800000 then hi
  else if x = 0xFF800000 then lo
  else max lo (min hi (towardZero (fpValue x * 2 ^ u)))

/-- That conversion saturates (R362). -/
def fixedSaturates (lo hi : ℤ) (u : Nat) (x : Word) : Prop :=
  isNaN x = false ∧ (isInf x = true ∨ towardZero (fpValue x * 2 ^ u) < lo ∨ hi < towardZero (fpValue x * 2 ^ u))

end Sys2Proof.Machine
end

