-- ==== Sys2Proof/WellFormed.lean ====
section
/-! DEFINITION. When an instruction is of a valid form. Every operand at every value of its field is valid but for the
stream touches: `if rA = 0, the instruction form is invalid` (46_vscr_and_streams.md R463). -/

namespace Sys2Proof

/-- The instruction is not one of the invalid forms of R463. -/
def Instr.wellFormed : Instr → Bool
  | .dst _ rA _ => rA ≠ 0
  | .dstt _ rA _ => rA ≠ 0
  | .dstst _ rA _ => rA ≠ 0
  | .dststt _ rA _ => rA ≠ 0
  | _ => true

end Sys2Proof
end

