-- ==== Sys2Proof/Certificates/Slice0/Obligations.lean ====
section
/-! DEFINITION. The statements for the provers. `Writes`, `WritesSat`, `WritesRecord` and `Stores`, which are in
Sys2Proof/Safety.lean, say that `exec` answers a next state, what the state holds, and what it keeps. -/

open Sys2Proof Sys2Proof.Machine

/-- R202 to R204, R212 to R214. -/
def Obligations.AddSubModulo : Prop :=
  ∀ (s : State) (vD vA vB : VReg), s.vecEnabled = true →
    let a := s.vreg vA
    let b := s.vreg vB
    Writes (.vaddubm vD vA vB) (encVX vD vA vB 0) s vD (fun d =>
      ∀ i < 16, (byte d i).toNat = ((byte a i).toNat + (byte b i).toNat) % 2 ^ 8) ∧
    Writes (.vadduhm vD vA vB) (encVX vD vA vB 64) s vD (fun d =>
      ∀ i < 8, (half d i).toNat = ((half a i).toNat + (half b i).toNat) % 2 ^ 16) ∧
    Writes (.vadduwm vD vA vB) (encVX vD vA vB 128) s vD (fun d =>
      ∀ i < 4, (word d i).toNat = ((word a i).toNat + (word b i).toNat) % 2 ^ 32) ∧
    Writes (.vsububm vD vA vB) (encVX vD vA vB 1024) s vD (fun d =>
      ∀ i < 16, ((byte d i).toNat : Int) = ((byte a i).toNat - (byte b i).toNat) % 2 ^ 8) ∧
    Writes (.vsubuhm vD vA vB) (encVX vD vA vB 1088) s vD (fun d =>
      ∀ i < 8, ((half d i).toNat : Int) = ((half a i).toNat - (half b i).toNat) % 2 ^ 16) ∧
    Writes (.vsubuwm vD vA vB) (encVX vD vA vB 1152) s vD (fun d =>
      ∀ i < 4, ((word d i).toNat : Int) = ((word a i).toNat - (word b i).toNat) % 2 ^ 32)

/-- R205, R215. -/
def Obligations.CarryOuts : Prop :=
  ∀ (s : State) (vD vA vB : VReg), s.vecEnabled = true →
    let a := s.vreg vA
    let b := s.vreg vB
    Writes (.vaddcuw vD vA vB) (encVX vD vA vB 384) s vD (fun d =>
      ∀ i < 4, (word d i).toNat = if (word a i).toNat + (word b i).toNat ≥ 2 ^ 32 then 1 else 0) ∧
    Writes (.vsubcuw vD vA vB) (encVX vD vA vB 1408) s vD (fun d =>
      ∀ i < 4, (word d i).toNat = if (word a i).toNat ≥ (word b i).toNat then 1 else 0)

/-- R206 to R208, R216 to R218. -/
def Obligations.UnsignedSaturatingAddSub : Prop :=
  ∀ (s : State) (vD vA vB : VReg), s.vecEnabled = true →
    let a := s.vreg vA
    let b := s.vreg vB
    WritesSat (.vaddubs vD vA vB) (encVX vD vA vB 512) s vD
      (fun d => ∀ i < 16, (byte d i).toNat = min ((byte a i).toNat + (byte b i).toNat) (2 ^ 8 - 1))
      (∃ i < 16, (byte a i).toNat + (byte b i).toNat > 2 ^ 8 - 1) ∧
    WritesSat (.vadduhs vD vA vB) (encVX vD vA vB 576) s vD
      (fun d => ∀ i < 8, (half d i).toNat = min ((half a i).toNat + (half b i).toNat) (2 ^ 16 - 1))
      (∃ i < 8, (half a i).toNat + (half b i).toNat > 2 ^ 16 - 1) ∧
    WritesSat (.vadduws vD vA vB) (encVX vD vA vB 640) s vD
      (fun d => ∀ i < 4, (word d i).toNat = min ((word a i).toNat + (word b i).toNat) (2 ^ 32 - 1))
      (∃ i < 4, (word a i).toNat + (word b i).toNat > 2 ^ 32 - 1) ∧
    WritesSat (.vsububs vD vA vB) (encVX vD vA vB 1536) s vD
      (fun d => ∀ i < 16, ((byte d i).toNat : Int) = max 0 ((byte a i).toNat - (byte b i).toNat : Int))
      (∃ i < 16, ((byte a i).toNat - (byte b i).toNat : Int) < 0) ∧
    WritesSat (.vsubuhs vD vA vB) (encVX vD vA vB 1600) s vD
      (fun d => ∀ i < 8, ((half d i).toNat : Int) = max 0 ((half a i).toNat - (half b i).toNat : Int))
      (∃ i < 8, ((half a i).toNat - (half b i).toNat : Int) < 0) ∧
    WritesSat (.vsubuws vD vA vB) (encVX vD vA vB 1664) s vD
      (fun d => ∀ i < 4, ((word d i).toNat : Int) = max 0 ((word a i).toNat - (word b i).toNat : Int))
      (∃ i < 4, ((word a i).toNat - (word b i).toNat : Int) < 0)

/-- R209 to R211, R219 to R221. -/
def Obligations.SignedSaturatingAddSub : Prop :=
  ∀ (s : State) (vD vA vB : VReg), s.vecEnabled = true →
    let a := s.vreg vA
    let b := s.vreg vB
    WritesSat (.vaddsbs vD vA vB) (encVX vD vA vB 768) s vD
      (fun d => ∀ i < 16, (byte d i).toInt = max (-2 ^ 7) (min ((byte a i).toInt + (byte b i).toInt) (2 ^ 7 - 1)))
      (∃ i < 16, (byte a i).toInt + (byte b i).toInt < -2 ^ 7 ∨ (byte a i).toInt + (byte b i).toInt > 2 ^ 7 - 1) ∧
    WritesSat (.vaddshs vD vA vB) (encVX vD vA vB 832) s vD
      (fun d => ∀ i < 8, (half d i).toInt = max (-2 ^ 15) (min ((half a i).toInt + (half b i).toInt) (2 ^ 15 - 1)))
      (∃ i < 8, (half a i).toInt + (half b i).toInt < -2 ^ 15 ∨ (half a i).toInt + (half b i).toInt > 2 ^ 15 - 1) ∧
    WritesSat (.vaddsws vD vA vB) (encVX vD vA vB 896) s vD
      (fun d => ∀ i < 4, (word d i).toInt = max (-2 ^ 31) (min ((word a i).toInt + (word b i).toInt) (2 ^ 31 - 1)))
      (∃ i < 4, (word a i).toInt + (word b i).toInt < -2 ^ 31 ∨ (word a i).toInt + (word b i).toInt > 2 ^ 31 - 1) ∧
    WritesSat (.vsubsbs vD vA vB) (encVX vD vA vB 1792) s vD
      (fun d => ∀ i < 16, (byte d i).toInt = max (-2 ^ 7) (min ((byte a i).toInt - (byte b i).toInt) (2 ^ 7 - 1)))
      (∃ i < 16, (byte a i).toInt - (byte b i).toInt < -2 ^ 7 ∨ (byte a i).toInt - (byte b i).toInt > 2 ^ 7 - 1) ∧
    WritesSat (.vsubshs vD vA vB) (encVX vD vA vB 1856) s vD
      (fun d => ∀ i < 8, (half d i).toInt = max (-2 ^ 15) (min ((half a i).toInt - (half b i).toInt) (2 ^ 15 - 1)))
      (∃ i < 8, (half a i).toInt - (half b i).toInt < -2 ^ 15 ∨ (half a i).toInt - (half b i).toInt > 2 ^ 15 - 1) ∧
    WritesSat (.vsubsws vD vA vB) (encVX vD vA vB 1920) s vD
      (fun d => ∀ i < 4, (word d i).toInt = max (-2 ^ 31) (min ((word a i).toInt - (word b i).toInt) (2 ^ 31 - 1)))
      (∃ i < 4, (word a i).toInt - (word b i).toInt < -2 ^ 31 ∨ (word a i).toInt - (word b i).toInt > 2 ^ 31 - 1)

/-- R233 to R240. -/
def Obligations.Multiplies : Prop :=
  ∀ (s : State) (vD vA vB : VReg), s.vecEnabled = true →
    let a := s.vreg vA
    let b := s.vreg vB
    Writes (.vmuloub vD vA vB) (encVX vD vA vB 8) s vD (fun d =>
      ∀ k < 8, (half d k).toNat = (byte a (2 * k + 1)).toNat * (byte b (2 * k + 1)).toNat) ∧
    Writes (.vmulouh vD vA vB) (encVX vD vA vB 72) s vD (fun d =>
      ∀ k < 4, (word d k).toNat = (half a (2 * k + 1)).toNat * (half b (2 * k + 1)).toNat) ∧
    Writes (.vmulosb vD vA vB) (encVX vD vA vB 264) s vD (fun d =>
      ∀ k < 8, (half d k).toInt = (byte a (2 * k + 1)).toInt * (byte b (2 * k + 1)).toInt) ∧
    Writes (.vmulosh vD vA vB) (encVX vD vA vB 328) s vD (fun d =>
      ∀ k < 4, (word d k).toInt = (half a (2 * k + 1)).toInt * (half b (2 * k + 1)).toInt) ∧
    Writes (.vmuleub vD vA vB) (encVX vD vA vB 520) s vD (fun d =>
      ∀ k < 8, (half d k).toNat = (byte a (2 * k)).toNat * (byte b (2 * k)).toNat) ∧
    Writes (.vmuleuh vD vA vB) (encVX vD vA vB 584) s vD (fun d =>
      ∀ k < 4, (word d k).toNat = (half a (2 * k)).toNat * (half b (2 * k)).toNat) ∧
    Writes (.vmulesb vD vA vB) (encVX vD vA vB 776) s vD (fun d =>
      ∀ k < 8, (half d k).toInt = (byte a (2 * k)).toInt * (byte b (2 * k)).toInt) ∧
    Writes (.vmulesh vD vA vB) (encVX vD vA vB 840) s vD (fun d =>
      ∀ k < 4, (word d k).toInt = (half a (2 * k)).toInt * (half b (2 * k)).toInt)

/-- R241 to R243. -/
def Obligations.MultiplyAdds : Prop :=
  ∀ (s : State) (vD vA vB vC : VReg), s.vecEnabled = true →
    let a := s.vreg vA
    let b := s.vreg vB
    let c := s.vreg vC
    (let t := fun i : Nat => ⌊((half a i).toInt * (half b i).toInt : ℚ) / 2 ^ 15⌋ + (half c i).toInt
     WritesSat (.vmhaddshs vD vA vB vC) (encVA vD vA vB vC 32) s vD
      (fun d => ∀ i < 8, (half d i).toInt = max (-2 ^ 15) (min (t i) (2 ^ 15 - 1)))
      (∃ i < 8, t i < -2 ^ 15 ∨ t i > 2 ^ 15 - 1)) ∧
    (let t := fun i : Nat => ⌊((half a i).toInt * (half b i).toInt + 0x4000 : ℚ) / 2 ^ 15⌋ + (half c i).toInt
     WritesSat (.vmhraddshs vD vA vB vC) (encVA vD vA vB vC 33) s vD
      (fun d => ∀ i < 8, (half d i).toInt = max (-2 ^ 15) (min (t i) (2 ^ 15 - 1)))
      (∃ i < 8, t i < -2 ^ 15 ∨ t i > 2 ^ 15 - 1)) ∧
    Writes (.vmladduhm vD vA vB vC) (encVA vD vA vB vC 34) s vD (fun d => ∀ i < 8, (half d i).toNat =
      ((half a i).toNat * (half b i).toNat + (half c i).toNat) % 2 ^ 16)

/-- R244 to R246, R248. -/
def Obligations.MultiplySumsModulo : Prop :=
  ∀ (s : State) (vD vA vB vC : VReg), s.vecEnabled = true →
    let a := s.vreg vA
    let b := s.vreg vB
    let c := s.vreg vC
    Writes (.vmsumubm vD vA vB vC) (encVA vD vA vB vC 36) s vD (fun d =>
      ∀ i < 4, (word d i).toNat = ((word c i).toNat +
      ((byte a (4 * i)).toNat * (byte b (4 * i)).toNat + (byte a (4 * i + 1)).toNat * (byte b (4 * i + 1)).toNat +
      (byte a (4 * i + 2)).toNat * (byte b (4 * i + 2)).toNat + (byte a (4 * i + 3)).toNat * (byte b (4 * i +
        3)).toNat)) % 2 ^ 32) ∧
    Writes (.vmsummbm vD vA vB vC) (encVA vD vA vB vC 37) s vD (fun d =>
      ∀ i < 4, ((word d i).toNat : Int) = ((word c i).toInt +
      ((byte a (4 * i)).toInt * (byte b (4 * i)).toNat + (byte a (4 * i + 1)).toInt * (byte b (4 * i + 1)).toNat +
      (byte a (4 * i + 2)).toInt * (byte b (4 * i + 2)).toNat + (byte a (4 * i + 3)).toInt * (byte b (4 * i +
        3)).toNat)) % 2 ^ 32) ∧
    Writes (.vmsumuhm vD vA vB vC) (encVA vD vA vB vC 38) s vD (fun d =>
      ∀ i < 4, (word d i).toNat = ((word c i).toNat +
      ((half a (2 * i)).toNat * (half b (2 * i)).toNat + (half a (2 * i + 1)).toNat * (half b (2 * i +
        1)).toNat)) % 2 ^ 32) ∧
    Writes (.vmsumshm vD vA vB vC) (encVA vD vA vB vC 40) s vD (fun d =>
      ∀ i < 4, ((word d i).toNat : Int) = ((word c i).toInt +
      ((half a (2 * i)).toInt * (half b (2 * i)).toInt + (half a (2 * i + 1)).toInt * (half b (2 * i +
        1)).toInt)) % 2 ^ 32)

/-- R247, R249. -/
def Obligations.MultiplySumsSaturating : Prop :=
  ∀ (s : State) (vD vA vB vC : VReg), s.vecEnabled = true →
    let a := s.vreg vA
    let b := s.vreg vB
    let c := s.vreg vC
    (let t := fun i : Nat => (word c i).toNat + (half a (2 * i)).toNat * (half b (2 * i)).toNat +
      (half a (2 * i + 1)).toNat * (half b (2 * i + 1)).toNat
     WritesSat (.vmsumuhs vD vA vB vC) (encVA vD vA vB vC 39) s vD
      (fun d => ∀ i < 4, (word d i).toNat = min (t i) (2 ^ 32 - 1))
      (∃ i < 4, t i > 2 ^ 32 - 1)) ∧
    (let t := fun i : Nat => (word c i).toInt + (half a (2 * i)).toInt * (half b (2 * i)).toInt +
      (half a (2 * i + 1)).toInt * (half b (2 * i + 1)).toInt
     WritesSat (.vmsumshs vD vA vB vC) (encVA vD vA vB vC 41) s vD
      (fun d => ∀ i < 4, (word d i).toInt = max (-2 ^ 31) (min (t i) (2 ^ 31 - 1)))
      (∃ i < 4, t i < -2 ^ 31 ∨ t i > 2 ^ 31 - 1))

/-- R250 to R254. -/
def Obligations.SumsAcross : Prop :=
  ∀ (s : State) (vD vA vB : VReg), s.vecEnabled = true →
    let a := s.vreg vA
    let b := s.vreg vB
    (let t := (word b 3).toInt + (word a 0).toInt + (word a 1).toInt + (word a 2).toInt + (word a 3).toInt
     WritesSat (.vsumsws vD vA vB) (encVX vD vA vB 1928) s vD
      (fun d => word d 0 = 0 ∧ word d 1 = 0 ∧ word d 2 = 0 ∧
        (word d 3).toInt = max (-2 ^ 31) (min t (2 ^ 31 - 1)))
      (t < -2 ^ 31 ∨ t > 2 ^ 31 - 1)) ∧
    (let t := fun j : Nat => (word b (2 * j + 1)).toInt + (word a (2 * j)).toInt + (word a (2 * j + 1)).toInt
     WritesSat (.vsum2sws vD vA vB) (encVX vD vA vB 1672) s vD
      (fun d => ∀ j < 2, word d (2 * j) = 0 ∧
        (word d (2 * j + 1)).toInt = max (-2 ^ 31) (min (t j) (2 ^ 31 - 1)))
      (∃ j < 2, t j < -2 ^ 31 ∨ t j > 2 ^ 31 - 1)) ∧
    (let t := fun i : Nat => (word b i).toNat + (byte a (4 * i)).toNat + (byte a (4 * i + 1)).toNat +
      (byte a (4 * i + 2)).toNat + (byte a (4 * i + 3)).toNat
     WritesSat (.vsum4ubs vD vA vB) (encVX vD vA vB 1544) s vD
      (fun d => ∀ i < 4, (word d i).toNat = min (t i) (2 ^ 32 - 1))
      (∃ i < 4, t i > 2 ^ 32 - 1)) ∧
    (let t := fun i : Nat => (word b i).toInt + (byte a (4 * i)).toInt + (byte a (4 * i + 1)).toInt +
      (byte a (4 * i + 2)).toInt + (byte a (4 * i + 3)).toInt
     WritesSat (.vsum4sbs vD vA vB) (encVX vD vA vB 1800) s vD
      (fun d => ∀ i < 4, (word d i).toInt = max (-2 ^ 31) (min (t i) (2 ^ 31 - 1)))
      (∃ i < 4, t i < -2 ^ 31 ∨ t i > 2 ^ 31 - 1)) ∧
    (let t := fun i : Nat => (word b i).toInt + (half a (2 * i)).toInt + (half a (2 * i + 1)).toInt
     WritesSat (.vsum4shs vD vA vB) (encVX vD vA vB 1608) s vD
      (fun d => ∀ i < 4, (word d i).toInt = max (-2 ^ 31) (min (t i) (2 ^ 31 - 1)))
      (∃ i < 4, t i < -2 ^ 31 ∨ t i > 2 ^ 31 - 1))

/-- R255 to R260. -/
def Obligations.Averages : Prop :=
  ∀ (s : State) (vD vA vB : VReg), s.vecEnabled = true →
    let a := s.vreg vA
    let b := s.vreg vB
    Writes (.vavgub vD vA vB) (encVX vD vA vB 1026) s vD (fun d =>
      ∀ i < 16, (byte d i).toNat = ((byte a i).toNat + (byte b i).toNat + 1) / 2) ∧
    Writes (.vavguh vD vA vB) (encVX vD vA vB 1090) s vD (fun d =>
      ∀ i < 8, (half d i).toNat = ((half a i).toNat + (half b i).toNat + 1) / 2) ∧
    Writes (.vavguw vD vA vB) (encVX vD vA vB 1154) s vD (fun d =>
      ∀ i < 4, (word d i).toNat = ((word a i).toNat + (word b i).toNat + 1) / 2) ∧
    Writes (.vavgsb vD vA vB) (encVX vD vA vB 1282) s vD (fun d =>
      ∀ i < 16, (byte d i).toInt = ((byte a i).toInt + (byte b i).toInt + 1) / 2) ∧
    Writes (.vavgsh vD vA vB) (encVX vD vA vB 1346) s vD (fun d =>
      ∀ i < 8, (half d i).toInt = ((half a i).toInt + (half b i).toInt + 1) / 2) ∧
    Writes (.vavgsw vD vA vB) (encVX vD vA vB 1410) s vD (fun d =>
      ∀ i < 4, (word d i).toInt = ((word a i).toInt + (word b i).toInt + 1) / 2)

/-- R261 to R272. -/
def Obligations.MaximaMinima : Prop :=
  ∀ (s : State) (vD vA vB : VReg), s.vecEnabled = true →
    let a := s.vreg vA
    let b := s.vreg vB
    Writes (.vmaxub vD vA vB) (encVX vD vA vB 2) s vD (fun d =>
      ∀ i < 16, (byte d i).toNat = max (byte a i).toNat (byte b i).toNat) ∧
    Writes (.vmaxuh vD vA vB) (encVX vD vA vB 66) s vD (fun d =>
      ∀ i < 8, (half d i).toNat = max (half a i).toNat (half b i).toNat) ∧
    Writes (.vmaxuw vD vA vB) (encVX vD vA vB 130) s vD (fun d =>
      ∀ i < 4, (word d i).toNat = max (word a i).toNat (word b i).toNat) ∧
    Writes (.vmaxsb vD vA vB) (encVX vD vA vB 258) s vD (fun d =>
      ∀ i < 16, (byte d i).toInt = max (byte a i).toInt (byte b i).toInt) ∧
    Writes (.vmaxsh vD vA vB) (encVX vD vA vB 322) s vD (fun d =>
      ∀ i < 8, (half d i).toInt = max (half a i).toInt (half b i).toInt) ∧
    Writes (.vmaxsw vD vA vB) (encVX vD vA vB 386) s vD (fun d =>
      ∀ i < 4, (word d i).toInt = max (word a i).toInt (word b i).toInt) ∧
    Writes (.vminub vD vA vB) (encVX vD vA vB 514) s vD (fun d =>
      ∀ i < 16, (byte d i).toNat = min (byte a i).toNat (byte b i).toNat) ∧
    Writes (.vminuh vD vA vB) (encVX vD vA vB 578) s vD (fun d =>
      ∀ i < 8, (half d i).toNat = min (half a i).toNat (half b i).toNat) ∧
    Writes (.vminuw vD vA vB) (encVX vD vA vB 642) s vD (fun d =>
      ∀ i < 4, (word d i).toNat = min (word a i).toNat (word b i).toNat) ∧
    Writes (.vminsb vD vA vB) (encVX vD vA vB 770) s vD (fun d =>
      ∀ i < 16, (byte d i).toInt = min (byte a i).toInt (byte b i).toInt) ∧
    Writes (.vminsh vD vA vB) (encVX vD vA vB 834) s vD (fun d =>
      ∀ i < 8, (half d i).toInt = min (half a i).toInt (half b i).toInt) ∧
    Writes (.vminsw vD vA vB) (encVX vD vA vB 898) s vD (fun d =>
      ∀ i < 4, (word d i).toInt = min (word a i).toInt (word b i).toInt)

/-- R281 to R290. -/
def Obligations.IntegerCompares : Prop :=
  ∀ (s : State) (vD vA vB : VReg) (rc : Bool), s.vecEnabled = true →
    let a := s.vreg vA
    let b := s.vreg vB
    WritesRecord (.vcmpequb vD vA vB rc) (encVXR vD vA vB rc 6) s vD rc
      (fun d => ∀ i < 16, byte d i = if byte a i = byte b i then BitVec.allOnes 8 else 0) allOrNone ∧
    WritesRecord (.vcmpequh vD vA vB rc) (encVXR vD vA vB rc 70) s vD rc
      (fun d => ∀ i < 8, half d i = if half a i = half b i then BitVec.allOnes 16 else 0) allOrNone ∧
    WritesRecord (.vcmpequw vD vA vB rc) (encVXR vD vA vB rc 134) s vD rc
      (fun d => ∀ i < 4, word d i = if word a i = word b i then BitVec.allOnes 32 else 0) allOrNone ∧
    WritesRecord (.vcmpgtub vD vA vB rc) (encVXR vD vA vB rc 518) s vD rc
      (fun d => ∀ i < 16, byte d i = if (byte a i).toNat > (byte b i).toNat then BitVec.allOnes 8 else 0) allOrNone ∧
    WritesRecord (.vcmpgtuh vD vA vB rc) (encVXR vD vA vB rc 582) s vD rc
      (fun d => ∀ i < 8, half d i = if (half a i).toNat > (half b i).toNat then BitVec.allOnes 16 else 0) allOrNone ∧
    WritesRecord (.vcmpgtuw vD vA vB rc) (encVXR vD vA vB rc 646) s vD rc
      (fun d => ∀ i < 4, word d i = if (word a i).toNat > (word b i).toNat then BitVec.allOnes 32 else 0) allOrNone ∧
    WritesRecord (.vcmpgtsb vD vA vB rc) (encVXR vD vA vB rc 774) s vD rc
      (fun d => ∀ i < 16, byte d i = if (byte a i).toInt > (byte b i).toInt then BitVec.allOnes 8 else 0) allOrNone ∧
    WritesRecord (.vcmpgtsh vD vA vB rc) (encVXR vD vA vB rc 838) s vD rc
      (fun d => ∀ i < 8, half d i = if (half a i).toInt > (half b i).toInt then BitVec.allOnes 16 else 0) allOrNone ∧
    WritesRecord (.vcmpgtsw vD vA vB rc) (encVXR vD vA vB rc 902) s vD rc
      (fun d => ∀ i < 4, word d i = if (word a i).toInt > (word b i).toInt then BitVec.allOnes 32 else 0) allOrNone

/-- R293 to R297; bit `k` counts from the most significant. -/
def Obligations.Logicals : Prop :=
  ∀ (s : State) (vD vA vB : VReg), s.vecEnabled = true →
    let a := s.vreg vA
    let b := s.vreg vB
    Writes (.vand vD vA vB) (encVX vD vA vB 1028) s vD (fun d =>
      ∀ k < 128, d.getMsbD k = (a.getMsbD k && b.getMsbD k)) ∧
    Writes (.vandc vD vA vB) (encVX vD vA vB 1092) s vD (fun d =>
      ∀ k < 128, d.getMsbD k = (a.getMsbD k && !b.getMsbD k)) ∧
    Writes (.vor vD vA vB) (encVX vD vA vB 1156) s vD (fun d =>
      ∀ k < 128, d.getMsbD k = (a.getMsbD k || b.getMsbD k)) ∧
    Writes (.vxor vD vA vB) (encVX vD vA vB 1220) s vD (fun d =>
      ∀ k < 128, d.getMsbD k = (a.getMsbD k != b.getMsbD k)) ∧
    Writes (.vnor vD vA vB) (encVX vD vA vB 1284) s vD (fun d =>
      ∀ k < 128, d.getMsbD k = !(a.getMsbD k || b.getMsbD k))

/-- R298 to R309; the division of integers is the floor. -/
def Obligations.RotatesShifts : Prop :=
  ∀ (s : State) (vD vA vB : VReg), s.vecEnabled = true →
    let a := s.vreg vA
    let b := s.vreg vB
    Writes (.vrlb vD vA vB) (encVX vD vA vB 4) s vD (fun d =>
      ∀ i < 16, (byte d i).toNat = (byte a i).toNat * 2 ^ ((byte b i).toNat % 8) % 2 ^ 8 +
        (byte a i).toNat * 2 ^ ((byte b i).toNat % 8) / 2 ^ 8) ∧
    Writes (.vrlh vD vA vB) (encVX vD vA vB 68) s vD (fun d =>
      ∀ i < 8, (half d i).toNat = (half a i).toNat * 2 ^ ((half b i).toNat % 16) % 2 ^ 16 +
        (half a i).toNat * 2 ^ ((half b i).toNat % 16) / 2 ^ 16) ∧
    Writes (.vrlw vD vA vB) (encVX vD vA vB 132) s vD (fun d =>
      ∀ i < 4, (word d i).toNat = (word a i).toNat * 2 ^ ((word b i).toNat % 32) % 2 ^ 32 +
        (word a i).toNat * 2 ^ ((word b i).toNat % 32) / 2 ^ 32) ∧
    Writes (.vslb vD vA vB) (encVX vD vA vB 260) s vD (fun d =>
      ∀ i < 16, (byte d i).toNat = (byte a i).toNat * 2 ^ ((byte b i).toNat % 8) % 2 ^ 8) ∧
    Writes (.vslh vD vA vB) (encVX vD vA vB 324) s vD (fun d =>
      ∀ i < 8, (half d i).toNat = (half a i).toNat * 2 ^ ((half b i).toNat % 16) % 2 ^ 16) ∧
    Writes (.vslw vD vA vB) (encVX vD vA vB 388) s vD (fun d =>
      ∀ i < 4, (word d i).toNat = (word a i).toNat * 2 ^ ((word b i).toNat % 32) % 2 ^ 32) ∧
    Writes (.vsrb vD vA vB) (encVX vD vA vB 516) s vD (fun d =>
      ∀ i < 16, (byte d i).toNat = (byte a i).toNat / 2 ^ ((byte b i).toNat % 8)) ∧
    Writes (.vsrh vD vA vB) (encVX vD vA vB 580) s vD (fun d =>
      ∀ i < 8, (half d i).toNat = (half a i).toNat / 2 ^ ((half b i).toNat % 16)) ∧
    Writes (.vsrw vD vA vB) (encVX vD vA vB 644) s vD (fun d =>
      ∀ i < 4, (word d i).toNat = (word a i).toNat / 2 ^ ((word b i).toNat % 32)) ∧
    Writes (.vsrab vD vA vB) (encVX vD vA vB 772) s vD (fun d =>
      ∀ i < 16, (byte d i).toInt = (byte a i).toInt / 2 ^ ((byte b i).toNat % 8)) ∧
    Writes (.vsrah vD vA vB) (encVX vD vA vB 836) s vD (fun d =>
      ∀ i < 8, (half d i).toInt = (half a i).toInt / 2 ^ ((half b i).toNat % 16)) ∧
    Writes (.vsraw vD vA vB) (encVX vD vA vB 900) s vD (fun d =>
      ∀ i < 4, (word d i).toInt = (word a i).toInt / 2 ^ ((word b i).toNat % 32))

/-- R412, R413, R420; the elements of `half2 a b` and `word2 a b` are those of a || b (R411). -/
def Obligations.PacksModulo : Prop :=
  ∀ (s : State) (vD vA vB : VReg), s.vecEnabled = true →
    let a := s.vreg vA
    let b := s.vreg vB
    Writes (.vpkuhum vD vA vB) (encVX vD vA vB 14) s vD (fun d =>
      ∀ i < 16, (byte d i).toNat = (half2 a b i).toNat % 2 ^ 8) ∧
    Writes (.vpkuwum vD vA vB) (encVX vD vA vB 78) s vD (fun d =>
      ∀ i < 8, (half d i).toNat = (word2 a b i).toNat % 2 ^ 16) ∧
    Writes (.vpkpx vD vA vB) (encVX vD vA vB 782) s vD (fun d =>
      ∀ i < 8, ∀ k < 16, (half d i).getMsbD k = (word2 a b i).getMsbD
      (if k = 0 then 7 else if k < 6 then k + 7 else if k < 11 then k + 10 else k + 13))

/-- R414 to R419. -/
def Obligations.PacksSaturating : Prop :=
  ∀ (s : State) (vD vA vB : VReg), s.vecEnabled = true →
    let a := s.vreg vA
    let b := s.vreg vB
    WritesSat (.vpkuhus vD vA vB) (encVX vD vA vB 142) s vD
      (fun d => ∀ i < 16, (byte d i).toNat = min (half2 a b i).toNat (2 ^ 8 - 1))
      (∃ i < 16, (half2 a b i).toNat > 2 ^ 8 - 1) ∧
    WritesSat (.vpkuwus vD vA vB) (encVX vD vA vB 206) s vD
      (fun d => ∀ i < 8, (half d i).toNat = min (word2 a b i).toNat (2 ^ 16 - 1))
      (∃ i < 8, (word2 a b i).toNat > 2 ^ 16 - 1) ∧
    WritesSat (.vpkshus vD vA vB) (encVX vD vA vB 270) s vD
      (fun d => ∀ i < 16, ((byte d i).toNat : Int) = max 0 (min (half2 a b i).toInt (2 ^ 8 - 1)))
      (∃ i < 16, (half2 a b i).toInt < 0 ∨ (half2 a b i).toInt > 2 ^ 8 - 1) ∧
    WritesSat (.vpkswus vD vA vB) (encVX vD vA vB 334) s vD
      (fun d => ∀ i < 8, ((half d i).toNat : Int) = max 0 (min (word2 a b i).toInt (2 ^ 16 - 1)))
      (∃ i < 8, (word2 a b i).toInt < 0 ∨ (word2 a b i).toInt > 2 ^ 16 - 1) ∧
    WritesSat (.vpkshss vD vA vB) (encVX vD vA vB 398) s vD
      (fun d => ∀ i < 16, (byte d i).toInt = max (-2 ^ 7) (min (half2 a b i).toInt (2 ^ 7 - 1)))
      (∃ i < 16, (half2 a b i).toInt < -2 ^ 7 ∨ (half2 a b i).toInt > 2 ^ 7 - 1) ∧
    WritesSat (.vpkswss vD vA vB) (encVX vD vA vB 462) s vD
      (fun d => ∀ i < 8, (half d i).toInt = max (-2 ^ 15) (min (word2 a b i).toInt (2 ^ 15 - 1)))
      (∃ i < 8, (word2 a b i).toInt < -2 ^ 15 ∨ (word2 a b i).toInt > 2 ^ 15 - 1)

/-- R422 to R427. -/
def Obligations.Unpacks : Prop :=
  ∀ (s : State) (vD vB : VReg), s.vecEnabled = true →
    let b := s.vreg vB
    Writes (.vupkhsb vD vB) (encVX vD 0 vB 526) s vD (fun d => ∀ i < 8, (half d i).toInt = (byte b i).toInt) ∧
    Writes (.vupkhsh vD vB) (encVX vD 0 vB 590) s vD (fun d => ∀ i < 4, (word d i).toInt = (half b i).toInt) ∧
    Writes (.vupklsb vD vB) (encVX vD 0 vB 654) s vD (fun d => ∀ i < 8, (half d i).toInt = (byte b (8 + i)).toInt) ∧
    Writes (.vupklsh vD vB) (encVX vD 0 vB 718) s vD (fun d => ∀ i < 4, (word d i).toInt = (half b (4 + i)).toInt) ∧
    Writes (.vupkhpx vD vB) (encVX vD 0 vB 846) s vD (fun d => ∀ i < 4, ∀ k < 32, (word d i).getMsbD k =
      if k < 8 then (half b i).getMsbD 0
      else if k % 8 < 3 then false else (half b i).getMsbD (5 * (k / 8 - 1) + k % 8 - 2)) ∧
    Writes (.vupklpx vD vB) (encVX vD 0 vB 974) s vD (fun d => ∀ i < 4, ∀ k < 32, (word d i).getMsbD k =
      if k < 8 then (half b (4 + i)).getMsbD 0
      else if k % 8 < 3 then false else (half b (4 + i)).getMsbD (5 * (k / 8 - 1) + k % 8 - 2))

/-- R430 to R435; the unused high bits of UIMM are zero in the word. -/
def Obligations.Splats : Prop :=
  ∀ (s : State) (vD vB : VReg), s.vecEnabled = true →
    let b := s.vreg vB
    (∀ uimm : BitVec 4, Writes (.vspltb vD uimm vB) (encVX vD (uimm.setWidth 5) vB 524) s vD
      (fun d => ∀ i < 16, byte d i = byte b uimm.toNat)) ∧
    (∀ uimm : BitVec 3, Writes (.vsplth vD uimm vB) (encVX vD (uimm.setWidth 5) vB 588) s vD
      (fun d => ∀ i < 8, half d i = half b uimm.toNat)) ∧
    (∀ uimm : BitVec 2, Writes (.vspltw vD uimm vB) (encVX vD (uimm.setWidth 5) vB 652) s vD
      (fun d => ∀ i < 4, word d i = word b uimm.toNat)) ∧
    ∀ simm : BitVec 5,
      Writes (.vspltisb vD simm) (encVX vD simm 0 780) s vD (fun d => ∀ i < 16, (byte d i).toInt = simm.toInt) ∧
      Writes (.vspltish vD simm) (encVX vD simm 0 844) s vD (fun d => ∀ i < 8, (half d i).toInt = simm.toInt) ∧
      Writes (.vspltisw vD simm) (encVX vD simm 0 908) s vD (fun d => ∀ i < 4, (word d i).toInt = simm.toInt)

/-- R437 to R442. -/
def Obligations.Merges : Prop :=
  ∀ (s : State) (vD vA vB : VReg), s.vecEnabled = true →
    let a := s.vreg vA
    let b := s.vreg vB
    Writes (.vmrghb vD vA vB) (encVX vD vA vB 12) s vD (fun d =>
      ∀ i < 8, byte d (2 * i) = byte a i ∧ byte d (2 * i + 1) = byte b i) ∧
    Writes (.vmrghh vD vA vB) (encVX vD vA vB 76) s vD (fun d =>
      ∀ i < 4, half d (2 * i) = half a i ∧ half d (2 * i + 1) = half b i) ∧
    Writes (.vmrghw vD vA vB) (encVX vD vA vB 140) s vD (fun d =>
      ∀ i < 2, word d (2 * i) = word a i ∧ word d (2 * i + 1) = word b i) ∧
    Writes (.vmrglb vD vA vB) (encVX vD vA vB 268) s vD (fun d =>
      ∀ i < 8, byte d (2 * i) = byte a (8 + i) ∧ byte d (2 * i + 1) = byte b (8 + i)) ∧
    Writes (.vmrglh vD vA vB) (encVX vD vA vB 332) s vD (fun d =>
      ∀ i < 4, half d (2 * i) = half a (4 + i) ∧ half d (2 * i + 1) = half b (4 + i)) ∧
    Writes (.vmrglw vD vA vB) (encVX vD vA vB 396) s vD (fun d =>
      ∀ i < 2, word d (2 * i) = word a (2 + i) ∧ word d (2 * i + 1) = word b (2 + i))

/-- R443, R445, R447; byte `k` of a || b is `byte2 a b k`. -/
def Obligations.PermuteSelectShift : Prop :=
  ∀ (s : State) (vD vA vB vC : VReg), s.vecEnabled = true →
    let a := s.vreg vA
    let b := s.vreg vB
    let c := s.vreg vC
    Writes (.vperm vD vA vB vC) (encVA vD vA vB vC 43) s vD (fun d =>
      ∀ i < 16, byte d i = byte2 a b ((byte c i).toNat % 32)) ∧
    Writes (.vsel vD vA vB vC) (encVA vD vA vB vC 42) s vD (fun d =>
      ∀ k < 128, d.getMsbD k = if c.getMsbD k then b.getMsbD k else a.getMsbD k) ∧
    ∀ shb : BitVec 4, Writes (.vsldoi vD vA vB shb) (encVA vD vA vB (shb.setWidth 5) 44) s vD
      (fun d => ∀ i < 16, byte d i = byte2 a b (shb.toNat + i))

/-- R449 to R453. Where the counts disagree the new value of VR[vD] is not constrained. -/
def Obligations.WholeShifts : Prop :=
  ∀ (s : State) (vD vA vB : VReg), s.vecEnabled = true →
    let a := s.vreg vA
    let b := s.vreg vB
    Writes (.vslo vD vA vB) (encVX vD vA vB 1036) s vD (fun d => ∀ i < 16, byte d i =
      if i + b.toNat / 8 % 16 ≤ 15 then byte a (i + b.toNat / 8 % 16) else 0) ∧
    Writes (.vsro vD vA vB) (encVX vD vA vB 1100) s vD (fun d => ∀ i < 16, byte d i =
      if i ≥ b.toNat / 8 % 16 then byte a (i - b.toNat / 8 % 16) else 0) ∧
    Writes (.vsl vD vA vB) (encVX vD vA vB 452) s vD (fun d => (∀ i < 16, (byte b i).toNat % 8 = b.toNat % 8) →
      d.toNat = a.toNat * 2 ^ (b.toNat % 8) % 2 ^ 128) ∧
    Writes (.vsr vD vA vB) (encVX vD vA vB 708) s vD (fun d => (∀ i < 16, (byte b i).toNat % 8 = b.toNat % 8) →
      d.toNat = a.toNat / 2 ^ (b.toNat % 8))

/-- R350, R351, with ROUND (R348) stated over the rationals: see `SumOf`, `DifferenceOf`, `Rounded`, `NearestTo`. The
values of bit patterns, infinities and zeros are those of IEEE 754 (R340, R349; log entry 28). -/
def Obligations.FloatAddSub : Prop :=
  ∀ (s : State) (vD vA vB : VReg), s.vecEnabled = true →
    Writes (.vaddfp vD vA vB) (encVX vD vA vB 10) s vD (fun d =>
      ∀ i < 4, SumOf s.nj (s.fpIn vA i) (s.fpIn vB i) (word d i)) ∧
    Writes (.vsubfp vD vA vB) (encVX vD vA vB 74) s vD (fun d =>
      ∀ i < 4, DifferenceOf s.nj (s.fpIn vA i) (s.fpIn vB i) (word d i))

/-- R352, R353: see `FusedOf`, `NegatedFusedOf`. The values of bit patterns, infinities and zeros are those of IEEE
754 (R340, R349; log entry 28). -/
def Obligations.FloatMultiplyAdd : Prop :=
  ∀ (s : State) (vD vA vB vC : VReg), s.vecEnabled = true →
    Writes (.vmaddfp vD vA vB vC) (encVA vD vA vB vC 46) s vD (fun d =>
      ∀ i < 4, FusedOf s.nj (s.fpIn vA i) (s.fpIn vB i) (s.fpIn vC i) (word d i)) ∧
    Writes (.vnmsubfp vD vA vB vC) (encVA vD vA vB vC 47) s vD (fun d =>
      ∀ i < 4, NegatedFusedOf s.nj (s.fpIn vA i) (s.fpIn vB i) (s.fpIn vC i) (word d i))

/-- R354, R355. The values of bit patterns, infinities and zeros are those of IEEE 754 (R340, R349; log entry 28). -/
def Obligations.FloatMaximumMinimum : Prop :=
  ∀ (s : State) (vD vA vB : VReg), s.vecEnabled = true →
    Writes (.vmaxfp vD vA vB) (encVX vD vA vB 1034) s vD (fun d => ∀ i < 4,
      let x := s.fpIn vA i
      let y := s.fpIn vB i
      if isNaN x then word d i = x ||| 0x00400000
      else if isNaN y then word d i = y ||| 0x00400000
      else if isZero x ∧ isZero y then
        (x = 0 ∨ y = 0 → word d i = 0) ∧ (x = 0x80000000 → y = 0x80000000 → word d i = 0x80000000)
      else (fpLe y x → word d i = x) ∧ (¬ fpLe y x → word d i = y)) ∧
    Writes (.vminfp vD vA vB) (encVX vD vA vB 1098) s vD (fun d => ∀ i < 4,
      let x := s.fpIn vA i
      let y := s.fpIn vB i
      if isNaN x then word d i = x ||| 0x00400000
      else if isNaN y then word d i = y ||| 0x00400000
      else if isZero x ∧ isZero y then
        (x = 0x80000000 ∨ y = 0x80000000 → word d i = 0x80000000) ∧ (x = 0 → y = 0 → word d i = 0)
      else ((fpLe x y ∧ ¬ fpLe y x) → word d i = x) ∧ (¬ (fpLe x y ∧ ¬ fpLe y x) → word d i = y))

/-- R356 to R359, R369: see `IntegralOf`. The sign of a zero result is R369's from general knowledge, and the values
of bit patterns are those of IEEE 754 (log entry 28). -/
def Obligations.RoundsToInteger : Prop :=
  ∀ (s : State) (vD vB : VReg), s.vecEnabled = true →
    let b := s.vreg vB
    Writes (.vrfin vD vB) (encVX vD 0 vB 522) s vD (fun d =>
      ∀ i < 4, IntegralOf nearestInteger (word b i) (word d i)) ∧
    Writes (.vrfiz vD vB) (encVX vD 0 vB 586) s vD (fun d =>
      ∀ i < 4, IntegralOf (fun v n => n = towardZero v) (word b i) (word d i)) ∧
    Writes (.vrfip vD vB) (encVX vD 0 vB 650) s vD (fun d =>
      ∀ i < 4, IntegralOf (fun v n => n = ⌈v⌉) (s.fpIn vB i) (word d i)) ∧
    Writes (.vrfim vD vB) (encVX vD 0 vB 714) s vD (fun d =>
      ∀ i < 4, IntegralOf (fun v n => n = ⌊v⌋) (s.fpIn vB i) (word d i))

/-- R361, R363 (R360). The values of bit patterns, infinities and zeros are those of IEEE 754 (R340, R349; log entry
28). -/
def Obligations.ConvertsFromFixed : Prop :=
  ∀ (s : State) (vD vB : VReg) (uimm : BitVec 5), s.vecEnabled = true →
    let b := s.vreg vB
    Writes (.vcfux vD uimm vB) (encVX vD uimm vB 778) s vD (fun d => ∀ i < 4,
      if word b i = 0 then word d i = 0 else NearestTo ((word b i).toNat / 2 ^ uimm.toNat) (word d i)) ∧
    Writes (.vcfsx vD uimm vB) (encVX vD uimm vB 842) s vD (fun d => ∀ i < 4,
      if word b i = 0 then word d i = 0 else NearestTo ((word b i).toInt / 2 ^ uimm.toNat) (word d i))

/-- R364, R365 (R362): see `fixedOf`, `fixedSaturates`. The values of bit patterns, infinities and zeros are those of
IEEE 754 (R340, R349; log entry 28). -/
def Obligations.ConvertsToFixed : Prop :=
  ∀ (s : State) (vD vB : VReg) (uimm : BitVec 5), s.vecEnabled = true →
    let b := s.vreg vB
    WritesSat (.vctuxs vD uimm vB) (encVX vD uimm vB 906) s vD
      (fun d => ∀ i < 4, ((word d i).toNat : Int) = fixedOf 0 (2 ^ 32 - 1) uimm.toNat (word b i))
      (∃ i < 4, fixedSaturates 0 (2 ^ 32 - 1) uimm.toNat (word b i)) ∧
    WritesSat (.vctsxs vD uimm vB) (encVX vD uimm vB 970) s vD
      (fun d => ∀ i < 4, (word d i).toInt = fixedOf (-2 ^ 31) (2 ^ 31 - 1) uimm.toNat (word b i))
      (∃ i < 4, fixedSaturates (-2 ^ 31) (2 ^ 31 - 1) uimm.toNat (word b i))

/-- R371, R372, R374. The values of bit patterns, infinities and zeros are those of IEEE 754 (R340, R349; log entry
28). -/
def Obligations.FloatCompares : Prop :=
  ∀ (s : State) (vD vA vB : VReg) (rc : Bool), s.vecEnabled = true →
    WritesRecord (.vcmpeqfp vD vA vB rc) (encVXR vD vA vB rc 198) s vD rc (fun d => ∀ i < 4,
      (fpLe (s.fpIn vA i) (s.fpIn vB i) ∧ fpLe (s.fpIn vB i) (s.fpIn vA i) → word d i = 0xFFFFFFFF) ∧
      (¬ (fpLe (s.fpIn vA i) (s.fpIn vB i) ∧ fpLe (s.fpIn vB i) (s.fpIn vA i)) → word d i = 0)) allOrNone ∧
    WritesRecord (.vcmpgefp vD vA vB rc) (encVXR vD vA vB rc 454) s vD rc (fun d => ∀ i < 4,
      (fpLe (s.fpIn vB i) (s.fpIn vA i) → word d i = 0xFFFFFFFF) ∧
      (¬ (fpLe (s.fpIn vB i) (s.fpIn vA i)) → word d i = 0)) allOrNone ∧
    WritesRecord (.vcmpgtfp vD vA vB rc) (encVXR vD vA vB rc 710) s vD rc (fun d => ∀ i < 4,
      (fpLe (s.fpIn vB i) (s.fpIn vA i) ∧ ¬ fpLe (s.fpIn vA i) (s.fpIn vB i) → word d i = 0xFFFFFFFF) ∧
      (¬ (fpLe (s.fpIn vB i) (s.fpIn vA i) ∧ ¬ fpLe (s.fpIn vA i) (s.fpIn vB i)) → word d i = 0)) allOrNone

/-- R373, R46. The values of bit patterns, infinities and zeros are those of IEEE 754 (R340, R349; log entry 28). -/
def Obligations.FloatBounds : Prop :=
  ∀ (s : State) (vD vA vB : VReg) (rc : Bool), s.vecEnabled = true →
    WritesRecord (.vcmpbfp vD vA vB rc) (encVXR vD vA vB rc 966) s vD rc (fun d => ∀ i < 4,
      let x := s.fpIn vA i
      let y := s.fpIn vB i
      (∀ k, 2 ≤ k → k < 32 → bit (word d i) k = false) ∧
      (bit (word d i) 0 = false ↔ fpLe x y) ∧
      (bit (word d i) 1 = false ↔ fpLe (y ^^^ 0x80000000) x)) allInBounds

/-- R376 (R375). Holds for every answer the implementation may give (log entry 12). The values of bit patterns,
infinities and zeros are those of IEEE 754 (R340, R349; log entry 28). -/
def Obligations.ReciprocalEstimate : Prop :=
  ∀ (s : State) (vD vB : VReg), s.vecEnabled = true →
    Writes (.vrefp vD vB) (encVX vD 0 vB 266) s vD (fun d => ∀ i < 4,
      let x := s.fpIn vB i
      let r := word d i
      if isNaN x then r = x ||| 0x00400000
      else if x = 0xFF800000 then r = 0x80000000
      else if x = 0x7F800000 then r = 0
      else if x = 0x80000000 then r = 0xFF800000
      else if x = 0 then r = 0x7F800000
      else isNaN r = false ∧ fpSign r = fpSign x ∧
        (isInf r = true → (1 + 1 / 4096) * |1 / fpValue x| ≥ 2 ^ 128 - 2 ^ 103) ∧
        (isZero r = true → (1 - 1 / 4096) * |1 / fpValue x| < 2 ^ (-126 : ℤ)) ∧
        (isInf r = false → isZero r = false → |fpValue r - 1 / fpValue x| ≤ |1 / fpValue x| / 4096) ∧
        (s.nj = true → isDenormal r = false ∧ (2 ^ 126 < |fpValue x| → isZero r = true)))

/-- R377 (R375). Holds for every answer the implementation may give (log entry 12). The values of bit patterns,
infinities and zeros are those of IEEE 754 (R340, R349; log entry 28). -/
def Obligations.ReciprocalRootEstimate : Prop :=
  ∀ (s : State) (vD vB : VReg), s.vecEnabled = true →
    Writes (.vrsqrtefp vD vB) (encVX vD 0 vB 330) s vD (fun d => ∀ i < 4,
      let x := s.fpIn vB i
      let r := word d i
      if isNaN x then r = x ||| 0x00400000
      else if isZero x then r = if fpSign x then 0xFF800000 else 0x7F800000
      else if fpSign x then r = 0x7FC00000
      else if x = 0x7F800000 then r = 0
      else isFinite r ∧ fpSign r = false ∧
        |(fpValue r : ℝ) - 1 / Real.sqrt (fpValue x)| ≤ 1 / Real.sqrt (fpValue x) / 4096)

/-- R378 (R375), the bound exactly. Holds for every answer the implementation may give (log entry 12). The values of
bit patterns, infinities and zeros are those of IEEE 754 (R340, R349; log entry 28). -/
def Obligations.LogarithmEstimate : Prop :=
  ∀ (s : State) (vD vB : VReg), s.vecEnabled = true →
    Writes (.vlogefp vD vB) (encVX vD 0 vB 458) s vD (fun d => ∀ i < 4,
      let x := s.fpIn vB i
      let r := word d i
      if isNaN x then r = x ||| 0x00400000
      else if isZero x then r = 0xFF800000
      else if fpSign x then r = 0x7FC00000
      else if x = 0x7F800000 then r = 0x7F800000
      else isFinite r ∧
        (|fpValue x - 1| > 1 / 8 → |(fpValue r : ℝ) - Real.logb 2 (fpValue x)| ≤ 1 / 32))

/-- R379 (R375), the bounds exactly. Holds for every answer the implementation may give (log entry 12). The values of
bit patterns, infinities and zeros are those of IEEE 754 (R340, R349; log entry 28). -/
def Obligations.ExponentialEstimate : Prop :=
  ∀ (s : State) (vD vB : VReg), s.vecEnabled = true →
    Writes (.vexptefp vD vB) (encVX vD 0 vB 394) s vD (fun d => ∀ i < 4,
      let x := s.fpIn vB i
      let r := word d i
      if isNaN x then r = x ||| 0x00400000
      else if x = 0xFF800000 then r = 0
      else if x = 0x7F800000 then r = 0x7F800000
      else if fpValue x ≥ 128 then r = 0x7F800000
      else isNaN r = false ∧ fpSign r = false ∧
        (∀ k : ℤ, fpValue x = k → -149 ≤ k →
          if s.nj = true ∧ k < -126 then r = 0 else fpValue r = 2 ^ k) ∧
        (fpValue x < -150 → r = 0) ∧
        (s.nj = true → isDenormal r = false) ∧
        (isInf r = true → (2 : ℝ) ^ (fpValue x : ℝ) * (1 + 1 / 16) ≥ 2 ^ 128 - 2 ^ 103) ∧
        (isZero r = true → (2 : ℝ) ^ (fpValue x : ℝ) * (1 - 1 / 16) < 2 ^ (-126 : ℤ)) ∧
        (isInf r = false → isZero r = false →
          |(fpValue r : ℝ) - (2 : ℝ) ^ (fpValue x : ℝ)| ≤ (2 : ℝ) ^ (fpValue x : ℝ) / 16))

/-- R390, R391. -/
def Obligations.QuadWordLoads : Prop :=
  ∀ (s : State) (vD : VReg) (rA rB : GReg), s.vecEnabled = true →
    let q := alignTo 16 (s.ea rA rB)
    s.accessible q 16 false →
    let loaded := fun d : Vec => ∀ i < 16, byte d i =
      Memory.read s.mem (byteAddress q (if s.littleEndian then (if i < 8 then 8 + i else i - 8) else i))
    Writes (.lvx vD rA rB) (encX vD rA rB 103) s vD loaded ∧ Writes (.lvxl vD rA rB) (encX vD rA rB 359) s vD loaded

/-- R387 to R389. `memRead` gives the bytes most significant first (R11); the bits outside the loaded element are not
constrained. -/
def Obligations.ElementLoads : Prop :=
  ∀ (s : State) (vD : VReg) (rA rB : GReg), s.vecEnabled = true →
    (let ea := alignTo 1 (s.ea rA rB)
     s.accessible ea 1 false → Writes (.lvebx vD rA rB) (encX vD rA rB 7) s vD (fun d =>
      if s.littleEndian then byte d (15 - ea.toNat % 16) = s.memRead (ea ^^^ 7) 1
      else byte d (ea.toNat % 16) = s.memRead ea 1)) ∧
    (let ea := alignTo 2 (s.ea rA rB)
     s.accessible ea 2 false → Writes (.lvehx vD rA rB) (encX vD rA rB 39) s vD (fun d =>
      if s.littleEndian then half d (7 - ea.toNat % 16 / 2) = s.memRead (ea ^^^ 6) 2
      else half d (ea.toNat % 16 / 2) = s.memRead ea 2)) ∧
    (let ea := alignTo 4 (s.ea rA rB)
     s.accessible ea 4 false → Writes (.lvewx vD rA rB) (encX vD rA rB 71) s vD (fun d =>
      if s.littleEndian then word d (3 - ea.toNat % 16 / 4) = s.memRead (ea ^^^ 4) 4
      else word d (ea.toNat % 16 / 4) = s.memRead ea 4))

/-- R395 to R397. The address is `elementAddress`, the function the meaning stores through: EA, or in little-endian
mode EA xor (8 - n). -/
def Obligations.ElementStores : Prop :=
  ∀ (s : State) (vS : VReg) (rA rB : GReg), s.vecEnabled = true →
    (let ea := alignTo 1 (s.ea rA rB)
     s.accessible ea 1 true →
       Stores (.stvebx vS rA rB) (encX vS rA rB 135) s (elementAddress s.littleEndian 1 ea) 1 (fun k =>
      byte (s.vreg vS) (if s.littleEndian then 15 - ea.toNat % 16 + k else ea.toNat % 16 + k))) ∧
    (let ea := alignTo 2 (s.ea rA rB)
     s.accessible ea 2 true →
       Stores (.stvehx vS rA rB) (encX vS rA rB 167) s (elementAddress s.littleEndian 2 ea) 2 (fun k =>
      byte (s.vreg vS) (if s.littleEndian then 14 - ea.toNat % 16 + k else ea.toNat % 16 + k))) ∧
    (let ea := alignTo 4 (s.ea rA rB)
     s.accessible ea 4 true →
       Stores (.stvewx vS rA rB) (encX vS rA rB 199) s (elementAddress s.littleEndian 4 ea) 4 (fun k =>
      byte (s.vreg vS) (if s.littleEndian then 12 - ea.toNat % 16 + k else ea.toNat % 16 + k)))

/-- R398, R399. -/
def Obligations.QuadWordStores : Prop :=
  ∀ (s : State) (vS : VReg) (rA rB : GReg), s.vecEnabled = true →
    let q := alignTo 16 (s.ea rA rB)
    s.accessible q 16 true →
    let stored := fun k : Nat => byte (s.vreg vS) (if s.littleEndian then (if k < 8 then 8 + k else k - 8) else k)
    Stores (.stvx vS rA rB) (encX vS rA rB 231) s q 16 stored ∧
    Stores (.stvxl vS rA rB) (encX vS rA rB 487) s q 16 stored

/-- The consequence R398 derives: both byte orders. -/
def Obligations.StoreThenLoad : Prop :=
  ∀ (s : State) (vS vD : VReg) (rA rB : GReg), s.vecEnabled = true →
    s.accessible (alignTo 16 (s.ea rA rB)) 16 true → s.accessible (alignTo 16 (s.ea rA rB)) 16 false →
    ∃ t u, exec (.stvx vS rA rB) s = .next t ∧ exec (.lvx vD rA rB) t = .next u ∧ u.vreg vD = s.vreg vS

/-- R392, R393. That MSR[LE] plays no part is decision D25. -/
def Obligations.ShiftControls : Prop :=
  ∀ (s : State) (vD : VReg) (rA rB : GReg), s.vecEnabled = true →
    let sh := ((if rA = 0 then 0 else (s.greg rA).toNat) + (s.greg rB).toNat) % 16
    Writes (.lvsl vD rA rB) (encX vD rA rB 6) s vD (fun d => ∀ i < 16, (byte d i).toNat = sh + i) ∧
    Writes (.lvsr vD rA rB) (encX vD rA rB 38) s vD (fun d => ∀ i < 16, (byte d i).toNat = 16 - sh + i)

/-- R510, R517, D12 (log entry 8); that the fault comes before a breakpoint match of the same access is the model's
choice (log entry 30). -/
def Obligations.DataStorageStops : Prop :=
  ∀ (s : State) (v : VReg) (rA rB : GReg) (n : Nat) (i : Instr), s.vecEnabled = true →
    ((n = 1 ∧ i = .lvebx v rA rB) ∨ (n = 2 ∧ i = .lvehx v rA rB) ∨ (n = 4 ∧ i = .lvewx v rA rB) →
      s.accessFaults (alignTo n (s.ea rA rB)) n false = true → exec i s = .fault (.dataStorage s)) ∧
    (i = .lvx v rA rB ∨ i = .lvxl v rA rB →
      s.accessFaults (alignTo 16 (s.ea rA rB)) 16 false = true →
      ∃ t, exec i s = .fault (.dataStorage t) ∧ t.pc = s.pc ∧ othersKept s t v ∧ t.vscr = s.vscr ∧ t.cr = s.cr ∧
        KeptBesideVectors s t) ∧
    ((n = 1 ∧ i = .stvebx v rA rB) ∨ (n = 2 ∧ i = .stvehx v rA rB) ∨ (n = 4 ∧ i = .stvewx v rA rB) ∨
        (n = 16 ∧ (i = .stvx v rA rB ∨ i = .stvxl v rA rB)) →
      s.accessFaults (alignTo n (s.ea rA rB)) n true = true → exec i s = .fault (.dataStorage s))

/-- R460, R461 (R35, R36, R40). A reserved bit last written as 1 reads as a free value and is not constrained. -/
def Obligations.VscrMoves : Prop :=
  ∀ (s : State) (vD vB : VReg), s.vecEnabled = true →
    Writes (.mfvscr vD) (encVX vD 0 0 1540) s vD (fun d =>
      (∀ k < 96, d.getMsbD k = false) ∧ d.getMsbD 111 = s.nj ∧ d.getMsbD 127 = bit s.vscr 31 ∧
      ∀ k < 32, k ≠ 15 → k ≠ 31 → bit s.vscr k = false → d.getMsbD (96 + k) = false) ∧
    encode (.mtvscr vB) = encVX 0 0 vB 1604 ∧
    ∃ t, exec (.mtvscr vB) s = .next t ∧ t = { s with pc := s.pc + 4, vscr := t.vscr } ∧
      bit t.vscr 15 = (s.cfg.njOnly || (s.vreg vB).getMsbD 111) ∧
      ∀ k < 32, k ≠ 15 → bit t.vscr k = (s.vreg vB).getMsbD (96 + k)

/-- R42. What the two instructions do is decision D11. -/
def Obligations.VrsaveMoves : Prop :=
  ∀ (s : State) (r : GReg),
    (∃ t, exec (.mfspr r) s = .next t ∧ t = { s with pc := s.pc + 4, gpr := t.gpr } ∧ t.greg r = s.vrsave ∧
      ∀ r', r' ≠ r → t.greg r' = s.greg r') ∧
    exec (.mtspr r) s = .next { s with pc := s.pc + 4, vrsave := s.greg r }

/-- R469 (the case without the facility), R468. -/
def Obligations.StreamsNoOps : Prop :=
  ∀ (s : State) (strm : BitVec 2) (rA rB : GReg) (i : Instr), s.cfg.streamsImplemented = false →
    i ∈ [.dst strm rA rB, .dstt strm rA rB, .dstst strm rA rB, .dststt strm rA rB, .dss strm, .dssall strm] →
    exec i s = .next { s with pc := s.pc + 4 }

/-- R464, R465 with the descriptor of R463, in the case with the facility, a valid form and MSR[DR] = 1. -/
def Obligations.StreamTouches : Prop :=
  ∀ (s : State) (strm : BitVec 2) (rA rB : GReg) (i : Instr) (w : Word) (t0 st0 : Bool),
    s.cfg.streamsImplemented = true → rA ≠ 0 → bit s.msr 27 = true →
    ((i = .dst strm rA rB ∧ t0 = false ∧ st0 = false ∧ w = encX (streamField 0 strm) rA rB 342) ∨
      (i = .dstt strm rA rB ∧ t0 = true ∧ st0 = false ∧ w = encX (streamField 1 strm) rA rB 342) ∨
      (i = .dstst strm rA rB ∧ t0 = false ∧ st0 = true ∧ w = encX (streamField 0 strm) rA rB 374) ∨
      (i = .dststt strm rA rB ∧ t0 = true ∧ st0 = true ∧ w = encX (streamField 1 strm) rA rB 374)) →
    let d := (s.greg rB).toNat
    encode i = w ∧ ∃ t, exec i s = .next t ∧ t = { s with pc := s.pc + 4, streams := t.streams } ∧
      (∀ tag, tag ≠ strm → t.stream tag = s.stream tag) ∧
      t.stream strm = some
        { ea := s.greg rA
          size := if d / 2 ^ 24 % 32 = 0 then 32 else d / 2 ^ 24 % 32
          count := if d / 2 ^ 16 % 256 = 0 then 256 else d / 2 ^ 16 % 256
          stride :=
            if d % 2 ^ 16 = 0 then 32768
            else if d % 2 ^ 16 < 2 ^ 15 then (d % 2 ^ 16 : Nat)
            else (d % 2 ^ 16 : Nat) - 2 ^ 16
          transient := t0 && s.cfg.dsttDistinct
          forStore := st0 && s.cfg.dststDistinct
          pr := bit s.msr 17
          unit := 0
          block := 0 }

/-- R467, in a model where the stop takes effect at once. -/
def Obligations.StreamStops : Prop :=
  ∀ (s : State) (strm : BitVec 2),
    encode (.dss strm) = encX (streamField 0 strm) 0 0 822 ∧
    encode (.dssall strm) = encX (streamField 1 strm) 0 0 822 ∧
    (∃ t, exec (.dss strm) s = .next t ∧ t = { s with pc := s.pc + 4, streams := t.streams } ∧
      (∀ tag, t.stream tag = if s.cfg.streamsImplemented ∧ tag = strm then none else s.stream tag)) ∧
    ∃ t, exec (.dssall strm) s = .next t ∧ t = { s with pc := s.pc + 4, streams := t.streams } ∧
      ∀ tag, t.stream tag = if s.cfg.streamsImplemented then none else s.stream tag

/-- R463, R466, D7 (log entry 20). -/
def Obligations.StreamRefusals : Prop :=
  ∀ (s : State) (strm : BitVec 2) (rA rB : GReg) (i : Instr), s.cfg.streamsImplemented = true →
    i ∈ [.dst strm rA rB, .dstt strm rA rB, .dstst strm rA rB, .dststt strm rA rB] →
    (rA = 0 → exec i s = .refused .invalidStreamForm) ∧
    (rA ≠ 0 → bit s.msr 27 = false → exec i s = .refused .streamUntranslated)

/-- R462, R469, R471, R472; the schedule that decides when the engine moves is the model's own (log entry 19). -/
def Obligations.StreamProgress : Prop :=
  ∀ (s : State) (rest : List EngineMove), s.cfg.streamsImplemented = true →
    (∀ tag, s.schedule = .abort tag :: rest →
      ∃ t, s.engine = t ∧ t = { s with schedule := rest, streams := t.streams } ∧ t.stream tag = none ∧
        ∀ tag', tag' ≠ tag → t.stream tag' = s.stream tag') ∧
    ∀ st, s.schedule = .prefetch :: rest → s.stream s.turn = some st → bit s.msr 27 = true → bit s.msr 17 = st.pr →
      let k := s.cfg.cacheBlockLog2
      s.accessFaults (st.blockAddress k) (2 ^ k) false = false →
      ∃ t, s.engine = t ∧ t = { s with schedule := rest, streams := t.streams, turn := s.turn + 1 } ∧
        (∀ tag', tag' ≠ s.turn → t.stream tag' = s.stream tag') ∧
        t.stream s.turn =
          if st.block + 1 < ⌈(16 * st.size + st.unitAddress.toNat % 2 ^ k : ℚ) / 2 ^ k⌉ then
            some { st with block := st.block + 1 }
          else if st.unit + 1 < st.count then some { st with unit := st.unit + 1, block := 0 }
          else none

/-- R500, R503, R504, R31. That the stream instructions are excepted is decision D10, and that what was last written
to a reserved MSR bit is kept is decision D14 (log entry 11). -/
def Obligations.UnavailableInterrupt : Prop :=
  ∀ (s : State) (i : Instr), needsVector i = true → bit s.msr 6 = false →
    ∃ t, exec i s = .next t ∧ t =
      { s with srr0 := s.pc, srr1 := t.srr1, msr := t.msr, pc := t.pc, draws := t.draws } ∧
      (∀ k < 32,
        let copied := bit s.msr k &&
          (if (1 ≤ k ∧ k ≤ 4) ∨ (10 ≤ k ∧ k ≤ 15) then bit s.cfg.srr1ExtraBits k else true)
        if k ≤ 5 ∨ (7 ≤ k ∧ k ≤ 12) ∨ k ∈ [14, 24, 28, 29] then bit t.srr1 k = true → copied = true
        else bit t.srr1 k = copied) ∧
      (∀ k < 32, bit t.msr k =
        if k ∈ [6, 13, 16, 17, 18, 20, 21, 22, 23, 26, 27, 30] then false
        else if k = 31 then bit s.msr 15 else bit s.msr k) ∧
      t.pc = (if bit s.msr 25 then s.cfg.ivBase1 else s.cfg.ivBase0) + 0x00000F20

/-- R33, R550; the engine is the model's (log entry 19). -/
def Obligations.StepRunsDecoded : Prop :=
  ∀ (s : State),
    ((s.cfg.traceImplemented = true → bit s.msr 21 = false ∧ bit s.msr 22 = false) ∧ s.pc.toNat % 4 = 0) →
    ∀ i, decode s.fetch = .ok i → i.wellFormed = true →
      (∀ t, exec i s = .next t → step s = .next t.engine) ∧
      (∀ f, exec i s = .fault f → step s = .fault f) ∧
      (∀ r, exec i s = .refused r → step s = .refused r)

/-- R140, R141, R512; the stops are log entries 24, 25 and 27. -/
def Obligations.UndecodedStops : Prop :=
  ∀ (s : State),
    ((s.cfg.traceImplemented = true → bit s.msr 21 = false ∧ bit s.msr 22 = false) ∧ s.pc.toNat % 4 = 0) →
    (decode s.fetch = .error .illegal → step s = .fault (.illegalInstruction s.fetch)) ∧
    (decode s.fetch = .error .reserved → step s = .refused (.reservedField s.fetch)) ∧
    (decode s.fetch = .error .base → step s = .refused (.baseInstruction s.fetch)) ∧
    (field s.fetch 0 6 ≠ 4 → field s.fetch 0 6 ≠ 31 → step s = .refused (.baseInstruction s.fetch)) ∧
    (field s.fetch 0 6 = 4 → field s.fetch 26 6 = 35 ∨ field s.fetch 26 6 = 45 →
      step s = .fault (.illegalInstruction s.fetch))

/-- The decode procedure of R141 reads back every word of R132 to R136, and of the forms of mfspr and mtspr that are
PRESUMED (log entry 15). -/
def Obligations.DecodeEncode : Prop :=
  ∀ i : Instr, decode (encode i) = .ok i ∧ decodeTableWord 32 (encode i).toNat = some i

/-- Each accepted word has one meaning and no free bit (R140, D16, log entries 25 and 27). -/
def Obligations.EncodeDecode : Prop :=
  ∀ (w : Word) (i : Instr), decode w = .ok i → encode i = w

/-- Words printed in R387, R392, R430, R435, R460, R461, R464, R467, R505; the last two, of mtspr and mfspr, are the
encodings of R470 from general knowledge: PRESUMED (log entry 15). -/
def Obligations.SpecWords : Prop :=
  decode 0x10221800 = .ok (.vaddubm 1 2 3) ∧ decode 0x104F0A0C = .ok (.vspltb 2 15 1) ∧
  decode 0x107F038C = .ok (.vspltisw 3 31) ∧ decode 0x10200604 = .ok (.mfvscr 1) ∧
  decode 0x10001E44 = .ok (.mtvscr 3) ∧ decode 0x7C22180C = .ok (.lvsl 1 2 3) ∧
    decode 0x7C22180E = .ok (.lvebx 1 2 3) ∧
  decode 0x7C4322AC = .ok (.dst 2 3 4) ∧ decode 0x7E4322AC = .ok (.dstt 2 3 4) ∧ decode 0x7C40066C = .ok (.dss 2) ∧
  decode 0x7CA043A6 = .ok (.mtspr 5) ∧ decode 0x7CC042A6 = .ok (.mfspr 6)

/-- R543. -/
def Obligations.ResetVrsave : Prop :=
  State.reset.vrsave = 0x00000000

/-- The model's choices where R540 to R547 give no value: log entries 1 to 7 and 29. -/
def Obligations.ResetChoices : Prop :=
  (∀ tag, State.reset.stream tag = none) ∧ (∀ r, State.reset.vreg r = 0) ∧ (∀ r, State.reset.greg r = 0) ∧
  State.reset.pc = 0 ∧ State.reset.vscr = 0 ∧ State.reset.cr = 0 ∧ State.reset.srr0 = 0 ∧ State.reset.srr1 = 0 ∧
  State.reset.dar = 0 ∧ State.reset.msr = 0x02000000 ∧ (∀ a, Memory.read State.reset.mem a = 0) ∧
  State.reset.cfg.streamsImplemented = false

/-- `State.Inv` holds of `State.reset`; the values it rests on are log entries 1 to 7 and 29. -/
def Obligations.ResetInvariant : Prop :=
  State.Inv State.reset

/-- Over every state with the invariant, not only those a run reaches. -/
def Obligations.StepKeepsInvariant : Prop :=
  ∀ s t : State, s.Inv → step s = .next t → t.Inv

/-- The promises of R30, R37, R41, R44, R402 and R456, over every instruction. -/
def Obligations.WhoWritesWhat : Prop :=
  ∀ (i : Instr) (s t : State), exec i s = .next t →
    ((∀ v, i ≠ .mtvscr v) → (bit s.vscr 31 = true → bit t.vscr 31 = true) ∧ ∀ k < 31, bit t.vscr k = bit s.vscr k) ∧
    (∀ k < 32, k < 24 ∨ 28 ≤ k → bit t.cr k = bit s.cr k) ∧
    ((∀ r, i ≠ .mtspr r) → t.vrsave = s.vrsave) ∧ ((∀ r, i ≠ .mfspr r) → t.gpr = s.gpr) ∧
    t.dar = s.dar ∧ t.cfg = s.cfg ∧
    (s.vecEnabled = true ∨ needsVector i = false → t.msr = s.msr ∧ t.srr0 = s.srr0 ∧ t.srr1 = s.srr1 ∧
      t.pc = s.pc + 4)

/-- R80 and R101 over every instruction; in little-endian mode the address is modified within its double word only
(R91). -/
def Obligations.OnlyStoresWriteMemory : Prop :=
  ∀ (i : Instr) (s t : State) (a : Nat), exec i s = .next t → Memory.read t.mem a ≠ Memory.read s.mem a →
    ∃ (vS : VReg) (rA rB : GReg) (n : Nat),
      ((n = 1 ∧ i = .stvebx vS rA rB) ∨ (n = 2 ∧ i = .stvehx vS rA rB) ∨ (n = 4 ∧ i = .stvewx vS rA rB) ∨
        (n = 16 ∧ (i = .stvx vS rA rB ∨ i = .stvxl vS rA rB))) ∧
      a / 16 = (s.ea rA rB).toNat / 16 ∧ (n = 16 ∨ a / 8 = (s.ea rA rB).toNat / 8)

/-- No instruction of the table stops on ordinary data (R501, R511, R513). -/
def Obligations.EveryInstructionCompletes : Prop :=
  ∀ (i : Instr) (s : State), s.cfg.storageFaults = [] → s.cfg.dabrImplemented = false →
    s.cfg.streamsImplemented = false → ∃ t, exec i s = .next t
end

