-- ==== Sys2Proof/Laws/Lanes.lean ====
section
/-! SUPPORT. Elements of vectors: what is read back from a vector made of elements, or with one element replaced. -/

namespace Sys2Proof.Machine

theorem elem_append_last {w n : Nat} (x : BitVec (w * n)) (y : BitVec w) :
    elem w n (n := w * (n + 1)) (x ++ y : BitVec (w * n + w)) = y := by
  unfold elem
  apply BitVec.eq_of_getLsbD_eq
  intro i hi
  rw [BitVec.getLsbD_extractLsb', BitVec.getLsbD_append]
  simp [hi]

theorem elem_append_init {w n i : Nat} (x : BitVec (w * n)) (y : BitVec w) (h : i < n) :
    elem w i (n := w * (n + 1)) (x ++ y : BitVec (w * n + w)) = elem w i x := by
  unfold elem
  apply BitVec.eq_of_getLsbD_eq
  intro j hj
  have hle : w * (i + 1) ≤ w * n := Nat.mul_le_mul_left w h
  have e : w * (n + 1) = w * n + w := Nat.mul_succ w n
  rw [BitVec.getLsbD_extractLsb', BitVec.getLsbD_extractLsb', BitVec.getLsbD_append]
  have h1 : ¬ (w * (n + 1) - w * (i + 1) + j < w) := by omega
  rw [if_neg h1]
  congr 2
  omega

/-- Element `i` of the elements `f 0`, ..., `f (n - 1)` is `f i`. -/
theorem elem_ofElems (w n : Nat) (f : Nat → BitVec w) {i : Nat} (h : i < n) : elem w i (ofElems w n f) = f i := by
  induction n with
  | zero => omega
  | succ n ih =>
    by_cases hn : i = n
    · subst hn; exact elem_append_last _ _
    · exact (elem_append_init _ _ (by omega)).trans (ih (by omega))

@[simp] theorem byte_ofBytes (f : Nat → BitVec 8) {i : Nat} (h : i < 16) : byte (ofBytes f) i = f i :=
  elem_ofElems 8 16 f h

@[simp] theorem half_ofHalves (f : Nat → BitVec 16) {i : Nat} (h : i < 8) : half (ofHalves f) i = f i :=
  elem_ofElems 16 8 f h

@[simp] theorem word_ofWords (f : Nat → BitVec 32) {i : Nat} (h : i < 4) : word (ofWords f) i = f i :=
  elem_ofElems 32 4 f h

/-- Bit `j` of element `i`. -/
theorem elem_getLsbD (w i j : Nat) (v : Vec) (h : j < w) :
    (elem w i v).getLsbD j = v.getLsbD (128 - w * (i + 1) + j) := by
  simp [elem, h]

/-- The replaced element reads as the new one. -/
theorem elem_putElem_same {w i : Nat} (x : BitVec w) (v : Vec) (h : w * (i + 1) ≤ 128) :
    elem w i (putElem i x v) = x := by
  apply BitVec.eq_of_getLsbD_eq
  intro j hj
  have hw : w ≤ 128 := le_trans (Nat.le_mul_of_pos_right w (Nat.succ_pos i)) h
  rw [elem_getLsbD _ _ _ _ hj]
  have hlt : 128 - w * (i + 1) + j < 128 := by
    have : w ≤ w * (i + 1) := Nat.le_mul_of_pos_right w (Nat.succ_pos i)
    omega
  simp [putElem, hlt, hj]

/-- Every other element reads as before. -/
theorem elem_putElem_ne {w i k : Nat} (x : BitVec w) (v : Vec) (hi : w * (i + 1) ≤ 128) (hk : w * (k + 1) ≤ 128)
    (h : k ≠ i) : elem w k (putElem i x v) = elem w k v := by
  apply BitVec.eq_of_getLsbD_eq
  intro j hj
  rw [elem_getLsbD _ _ _ _ hj, elem_getLsbD _ _ _ _ hj]
  have hlt : 128 - w * (k + 1) + j < 128 := by
    have : w ≤ w * (k + 1) := Nat.le_mul_of_pos_right w (Nat.succ_pos k)
    omega
  have key : 128 - w * (k + 1) + j < 128 - w * (i + 1) ∨ w ≤ 128 - w * (k + 1) + j - (128 - w * (i + 1)) := by
    rcases Nat.lt_or_gt_of_ne h with hki | hki
    · right
      have : w * (k + 1 + 1) ≤ w * (i + 1) := Nat.mul_le_mul_left w (by omega)
      rw [Nat.mul_succ] at this
      omega
    · left
      have : w * (i + 1 + 1) ≤ w * (k + 1) := Nat.mul_le_mul_left w (by omega)
      rw [Nat.mul_succ] at this
      omega
  rcases key with h1 | h1
  · simp [putElem, hlt, h1]
  · simp only [putElem, BitVec.getLsbD_or, BitVec.getLsbD_and, BitVec.getLsbD_not, BitVec.getLsbD_shiftLeft,
      BitVec.getLsbD_setWidth, hlt, decide_true, Bool.true_and]
    have h2 : x.getLsbD (128 - w * (k + 1) + j - (128 - w * (i + 1))) = false := BitVec.getLsbD_of_ge _ _ h1
    have h3 : (BitVec.allOnes w).getLsbD (128 - w * (k + 1) + j - (128 - w * (i + 1))) = false :=
      BitVec.getLsbD_of_ge _ _ h1
    simp [h2, h3]

/-- Vectors with the same elements are the same. -/
theorem eq_of_elems {w n : Nat} {a b : BitVec (w * n)} (h : ∀ i < n, elem w i a = elem w i b) : a = b := by
  apply BitVec.eq_of_getLsbD_eq
  intro j hj
  have hw : 0 < w := by
    rcases Nat.eq_zero_or_pos w with h0 | h0
    · subst h0; simp at hj
    · exact h0
  have hq : j / w < n := Nat.div_lt_of_lt_mul hj
  have hi := congrArg (fun x => BitVec.getLsbD x (j % w)) (h (n - 1 - j / w) (by
    have := Nat.lt_of_le_of_lt (Nat.zero_le _) hq
    exact lt_of_le_of_lt (Nat.sub_le _ _) (by omega)))
  simp only [elem, BitVec.getLsbD_extractLsb', Nat.mod_lt _ hw, decide_true, Bool.true_and] at hi
  have e : w * n - w * (n - 1 - j / w + 1) + j % w = j := by
    have h4 := Nat.div_add_mod j w
    generalize j / w = q at hq h4
    have h1 : n - 1 - q + 1 = n - q := by omega
    have h3 : w * q ≤ w * n := Nat.mul_le_mul_left w (le_of_lt hq)
    rw [h1, Nat.mul_sub]
    omega
  rwa [e] at hi

theorem eq_of_bytes {a b : Vec} (h : ∀ i < 16, byte a i = byte b i) : a = b := eq_of_elems (w := 8) (n := 16) h

theorem eq_of_halves {a b : Vec} (h : ∀ i < 8, half a i = half b i) : a = b := eq_of_elems (w := 16) (n := 8) h

theorem eq_of_words {a b : Vec} (h : ∀ i < 4, word a i = word b i) : a = b := eq_of_elems (w := 32) (n := 4) h

/-- A vector is made of its elements. -/
theorem ofElems_elem {w n : Nat} (v : BitVec (w * n)) : ofElems w n (fun i => elem w i v) = v :=
  eq_of_elems fun _ hi => elem_ofElems w n _ hi

/-- The OR of the flags is set when one of them is. -/
theorem anyLane_eq_true (n : Nat) (p : Nat → Bool) : anyLane n p = true ↔ ∃ i, i < n ∧ p i = true := by
  simp [anyLane]

end Sys2Proof.Machine
end

