-- ==== Sys2Proof/Laws/State.lean ====
section
/-! SUPPORT. What each named update of the state does to each field. -/

namespace Sys2Proof.Machine

variable (s : State)

/-! `State.setVreg` -/

@[simp] theorem State.setVreg_vr (r : VReg) (v : Vec) : (s.setVreg r v).vr = s.vr.set r.toNat v r.isLt := rfl

@[simp] theorem State.setVreg_gpr (r : VReg) (v : Vec) : (s.setVreg r v).gpr = s.gpr := rfl

@[simp] theorem State.setVreg_pc (r : VReg) (v : Vec) : (s.setVreg r v).pc = s.pc := rfl

@[simp] theorem State.setVreg_vscr (r : VReg) (v : Vec) : (s.setVreg r v).vscr = s.vscr := rfl

@[simp] theorem State.setVreg_vrsave (r : VReg) (v : Vec) : (s.setVreg r v).vrsave = s.vrsave := rfl

@[simp] theorem State.setVreg_cr (r : VReg) (v : Vec) : (s.setVreg r v).cr = s.cr := rfl

@[simp] theorem State.setVreg_msr (r : VReg) (v : Vec) : (s.setVreg r v).msr = s.msr := rfl

@[simp] theorem State.setVreg_srr0 (r : VReg) (v : Vec) : (s.setVreg r v).srr0 = s.srr0 := rfl

@[simp] theorem State.setVreg_srr1 (r : VReg) (v : Vec) : (s.setVreg r v).srr1 = s.srr1 := rfl

@[simp] theorem State.setVreg_dar (r : VReg) (v : Vec) : (s.setVreg r v).dar = s.dar := rfl

@[simp] theorem State.setVreg_mem (r : VReg) (v : Vec) : (s.setVreg r v).mem = s.mem := rfl

@[simp] theorem State.setVreg_streams (r : VReg) (v : Vec) : (s.setVreg r v).streams = s.streams := rfl

@[simp] theorem State.setVreg_turn (r : VReg) (v : Vec) : (s.setVreg r v).turn = s.turn := rfl

@[simp] theorem State.setVreg_schedule (r : VReg) (v : Vec) : (s.setVreg r v).schedule = s.schedule := rfl

@[simp] theorem State.setVreg_draws (r : VReg) (v : Vec) : (s.setVreg r v).draws = s.draws := rfl

@[simp] theorem State.setVreg_cfg (r : VReg) (v : Vec) : (s.setVreg r v).cfg = s.cfg := rfl

/-! `State.setGreg` -/

@[simp] theorem State.setGreg_vr (r : GReg) (v : Word) : (s.setGreg r v).vr = s.vr := rfl

@[simp] theorem State.setGreg_gpr (r : GReg) (v : Word) : (s.setGreg r v).gpr = s.gpr.set r.toNat v r.isLt := rfl

@[simp] theorem State.setGreg_pc (r : GReg) (v : Word) : (s.setGreg r v).pc = s.pc := rfl

@[simp] theorem State.setGreg_vscr (r : GReg) (v : Word) : (s.setGreg r v).vscr = s.vscr := rfl

@[simp] theorem State.setGreg_vrsave (r : GReg) (v : Word) : (s.setGreg r v).vrsave = s.vrsave := rfl

@[simp] theorem State.setGreg_cr (r : GReg) (v : Word) : (s.setGreg r v).cr = s.cr := rfl

@[simp] theorem State.setGreg_msr (r : GReg) (v : Word) : (s.setGreg r v).msr = s.msr := rfl

@[simp] theorem State.setGreg_srr0 (r : GReg) (v : Word) : (s.setGreg r v).srr0 = s.srr0 := rfl

@[simp] theorem State.setGreg_srr1 (r : GReg) (v : Word) : (s.setGreg r v).srr1 = s.srr1 := rfl

@[simp] theorem State.setGreg_dar (r : GReg) (v : Word) : (s.setGreg r v).dar = s.dar := rfl

@[simp] theorem State.setGreg_mem (r : GReg) (v : Word) : (s.setGreg r v).mem = s.mem := rfl

@[simp] theorem State.setGreg_streams (r : GReg) (v : Word) : (s.setGreg r v).streams = s.streams := rfl

@[simp] theorem State.setGreg_turn (r : GReg) (v : Word) : (s.setGreg r v).turn = s.turn := rfl

@[simp] theorem State.setGreg_schedule (r : GReg) (v : Word) : (s.setGreg r v).schedule = s.schedule := rfl

@[simp] theorem State.setGreg_draws (r : GReg) (v : Word) : (s.setGreg r v).draws = s.draws := rfl

@[simp] theorem State.setGreg_cfg (r : GReg) (v : Word) : (s.setGreg r v).cfg = s.cfg := rfl

/-! `State.advance` -/

@[simp] theorem State.advance_vr : (s.advance).vr = s.vr := rfl

@[simp] theorem State.advance_gpr : (s.advance).gpr = s.gpr := rfl

@[simp] theorem State.advance_pc : (s.advance).pc = s.pc + 4 := rfl

@[simp] theorem State.advance_vscr : (s.advance).vscr = s.vscr := rfl

@[simp] theorem State.advance_vrsave : (s.advance).vrsave = s.vrsave := rfl

@[simp] theorem State.advance_cr : (s.advance).cr = s.cr := rfl

@[simp] theorem State.advance_msr : (s.advance).msr = s.msr := rfl

@[simp] theorem State.advance_srr0 : (s.advance).srr0 = s.srr0 := rfl

@[simp] theorem State.advance_srr1 : (s.advance).srr1 = s.srr1 := rfl

@[simp] theorem State.advance_dar : (s.advance).dar = s.dar := rfl

@[simp] theorem State.advance_mem : (s.advance).mem = s.mem := rfl

@[simp] theorem State.advance_streams : (s.advance).streams = s.streams := rfl

@[simp] theorem State.advance_turn : (s.advance).turn = s.turn := rfl

@[simp] theorem State.advance_schedule : (s.advance).schedule = s.schedule := rfl

@[simp] theorem State.advance_draws : (s.advance).draws = s.draws := rfl

@[simp] theorem State.advance_cfg : (s.advance).cfg = s.cfg := rfl

/-! `State.drawn` -/

@[simp] theorem State.drawn_vr : (s.drawn).vr = s.vr := rfl

@[simp] theorem State.drawn_gpr : (s.drawn).gpr = s.gpr := rfl

@[simp] theorem State.drawn_pc : (s.drawn).pc = s.pc := rfl

@[simp] theorem State.drawn_vscr : (s.drawn).vscr = s.vscr := rfl

@[simp] theorem State.drawn_vrsave : (s.drawn).vrsave = s.vrsave := rfl

@[simp] theorem State.drawn_cr : (s.drawn).cr = s.cr := rfl

@[simp] theorem State.drawn_msr : (s.drawn).msr = s.msr := rfl

@[simp] theorem State.drawn_srr0 : (s.drawn).srr0 = s.srr0 := rfl

@[simp] theorem State.drawn_srr1 : (s.drawn).srr1 = s.srr1 := rfl

@[simp] theorem State.drawn_dar : (s.drawn).dar = s.dar := rfl

@[simp] theorem State.drawn_mem : (s.drawn).mem = s.mem := rfl

@[simp] theorem State.drawn_streams : (s.drawn).streams = s.streams := rfl

@[simp] theorem State.drawn_turn : (s.drawn).turn = s.turn := rfl

@[simp] theorem State.drawn_schedule : (s.drawn).schedule = s.schedule := rfl

@[simp] theorem State.drawn_draws : (s.drawn).draws = s.draws + 1 := rfl

@[simp] theorem State.drawn_cfg : (s.drawn).cfg = s.cfg := rfl

/-! `State.orSat` -/

@[simp] theorem State.orSat_vr (b : Bool) : (s.orSat b).vr = s.vr := rfl

@[simp] theorem State.orSat_gpr (b : Bool) : (s.orSat b).gpr = s.gpr := rfl

@[simp] theorem State.orSat_pc (b : Bool) : (s.orSat b).pc = s.pc := rfl

@[simp] theorem State.orSat_vrsave (b : Bool) : (s.orSat b).vrsave = s.vrsave := rfl

@[simp] theorem State.orSat_cr (b : Bool) : (s.orSat b).cr = s.cr := rfl

@[simp] theorem State.orSat_msr (b : Bool) : (s.orSat b).msr = s.msr := rfl

@[simp] theorem State.orSat_srr0 (b : Bool) : (s.orSat b).srr0 = s.srr0 := rfl

@[simp] theorem State.orSat_srr1 (b : Bool) : (s.orSat b).srr1 = s.srr1 := rfl

@[simp] theorem State.orSat_dar (b : Bool) : (s.orSat b).dar = s.dar := rfl

@[simp] theorem State.orSat_mem (b : Bool) : (s.orSat b).mem = s.mem := rfl

@[simp] theorem State.orSat_streams (b : Bool) : (s.orSat b).streams = s.streams := rfl

@[simp] theorem State.orSat_turn (b : Bool) : (s.orSat b).turn = s.turn := rfl

@[simp] theorem State.orSat_schedule (b : Bool) : (s.orSat b).schedule = s.schedule := rfl

@[simp] theorem State.orSat_draws (b : Bool) : (s.orSat b).draws = s.draws := rfl

@[simp] theorem State.orSat_cfg (b : Bool) : (s.orSat b).cfg = s.cfg := rfl

/-! `State.setCr6` -/

@[simp] theorem State.setCr6_vr (f : BitVec 4) : (s.setCr6 f).vr = s.vr := rfl

@[simp] theorem State.setCr6_gpr (f : BitVec 4) : (s.setCr6 f).gpr = s.gpr := rfl

@[simp] theorem State.setCr6_pc (f : BitVec 4) : (s.setCr6 f).pc = s.pc := rfl

@[simp] theorem State.setCr6_vscr (f : BitVec 4) : (s.setCr6 f).vscr = s.vscr := rfl

@[simp] theorem State.setCr6_vrsave (f : BitVec 4) : (s.setCr6 f).vrsave = s.vrsave := rfl

@[simp] theorem State.setCr6_msr (f : BitVec 4) : (s.setCr6 f).msr = s.msr := rfl

@[simp] theorem State.setCr6_srr0 (f : BitVec 4) : (s.setCr6 f).srr0 = s.srr0 := rfl

@[simp] theorem State.setCr6_srr1 (f : BitVec 4) : (s.setCr6 f).srr1 = s.srr1 := rfl

@[simp] theorem State.setCr6_dar (f : BitVec 4) : (s.setCr6 f).dar = s.dar := rfl

@[simp] theorem State.setCr6_mem (f : BitVec 4) : (s.setCr6 f).mem = s.mem := rfl

@[simp] theorem State.setCr6_streams (f : BitVec 4) : (s.setCr6 f).streams = s.streams := rfl

@[simp] theorem State.setCr6_turn (f : BitVec 4) : (s.setCr6 f).turn = s.turn := rfl

@[simp] theorem State.setCr6_schedule (f : BitVec 4) : (s.setCr6 f).schedule = s.schedule := rfl

@[simp] theorem State.setCr6_draws (f : BitVec 4) : (s.setCr6 f).draws = s.draws := rfl

@[simp] theorem State.setCr6_cfg (f : BitVec 4) : (s.setCr6 f).cfg = s.cfg := rfl

/-! `State.writeVscr` -/

@[simp] theorem State.writeVscr_vr (w : Word) : (s.writeVscr w).vr = s.vr := rfl

@[simp] theorem State.writeVscr_gpr (w : Word) : (s.writeVscr w).gpr = s.gpr := rfl

@[simp] theorem State.writeVscr_pc (w : Word) : (s.writeVscr w).pc = s.pc := rfl

@[simp] theorem State.writeVscr_vrsave (w : Word) : (s.writeVscr w).vrsave = s.vrsave := rfl

@[simp] theorem State.writeVscr_cr (w : Word) : (s.writeVscr w).cr = s.cr := rfl

@[simp] theorem State.writeVscr_msr (w : Word) : (s.writeVscr w).msr = s.msr := rfl

@[simp] theorem State.writeVscr_srr0 (w : Word) : (s.writeVscr w).srr0 = s.srr0 := rfl

@[simp] theorem State.writeVscr_srr1 (w : Word) : (s.writeVscr w).srr1 = s.srr1 := rfl

@[simp] theorem State.writeVscr_dar (w : Word) : (s.writeVscr w).dar = s.dar := rfl

@[simp] theorem State.writeVscr_mem (w : Word) : (s.writeVscr w).mem = s.mem := rfl

@[simp] theorem State.writeVscr_streams (w : Word) : (s.writeVscr w).streams = s.streams := rfl

@[simp] theorem State.writeVscr_turn (w : Word) : (s.writeVscr w).turn = s.turn := rfl

@[simp] theorem State.writeVscr_schedule (w : Word) : (s.writeVscr w).schedule = s.schedule := rfl

@[simp] theorem State.writeVscr_draws (w : Word) : (s.writeVscr w).draws = s.draws := rfl

@[simp] theorem State.writeVscr_cfg (w : Word) : (s.writeVscr w).cfg = s.cfg := rfl

/-! `State.memWrite` -/

@[simp] theorem State.memWrite_vr (a : Word) (n : Nat) (v : BitVec (8 * n)) : (s.memWrite a n v).vr = s.vr := rfl

@[simp] theorem State.memWrite_gpr (a : Word) (n : Nat) (v : BitVec (8 * n)) : (s.memWrite a n v).gpr = s.gpr := rfl

@[simp] theorem State.memWrite_pc (a : Word) (n : Nat) (v : BitVec (8 * n)) : (s.memWrite a n v).pc = s.pc := rfl

@[simp] theorem State.memWrite_vscr (a : Word) (n : Nat) (v : BitVec (8 * n)) : (s.memWrite a n v).vscr = s.vscr := rfl

@[simp] theorem State.memWrite_vrsave (a : Word) (n : Nat) (v : BitVec (8 * n)) : (s.memWrite a n v).vrsave = s.vrsave :=
  rfl

@[simp] theorem State.memWrite_cr (a : Word) (n : Nat) (v : BitVec (8 * n)) : (s.memWrite a n v).cr = s.cr := rfl

@[simp] theorem State.memWrite_msr (a : Word) (n : Nat) (v : BitVec (8 * n)) : (s.memWrite a n v).msr = s.msr := rfl

@[simp] theorem State.memWrite_srr0 (a : Word) (n : Nat) (v : BitVec (8 * n)) : (s.memWrite a n v).srr0 = s.srr0 := rfl

@[simp] theorem State.memWrite_srr1 (a : Word) (n : Nat) (v : BitVec (8 * n)) : (s.memWrite a n v).srr1 = s.srr1 := rfl

@[simp] theorem State.memWrite_dar (a : Word) (n : Nat) (v : BitVec (8 * n)) : (s.memWrite a n v).dar = s.dar := rfl

@[simp] theorem State.memWrite_streams (a : Word) (n : Nat) (v : BitVec (8 * n)) : (s.memWrite a n v).streams = s.streams :=
  rfl

@[simp] theorem State.memWrite_turn (a : Word) (n : Nat) (v : BitVec (8 * n)) : (s.memWrite a n v).turn = s.turn := rfl

@[simp] theorem State.memWrite_schedule (a : Word) (n : Nat) (v : BitVec (8 * n)) : (s.memWrite a n v).schedule = s.schedule :=
  rfl

@[simp] theorem State.memWrite_draws (a : Word) (n : Nat) (v : BitVec (8 * n)) : (s.memWrite a n v).draws = s.draws :=
  rfl

@[simp] theorem State.memWrite_cfg (a : Word) (n : Nat) (v : BitVec (8 * n)) : (s.memWrite a n v).cfg = s.cfg := rfl

/-! `State.setStream` -/

@[simp] theorem State.setStream_vr (t : BitVec 2) (x : Option Stream) : (s.setStream t x).vr = s.vr := rfl

@[simp] theorem State.setStream_gpr (t : BitVec 2) (x : Option Stream) : (s.setStream t x).gpr = s.gpr := rfl

@[simp] theorem State.setStream_pc (t : BitVec 2) (x : Option Stream) : (s.setStream t x).pc = s.pc := rfl

@[simp] theorem State.setStream_vscr (t : BitVec 2) (x : Option Stream) : (s.setStream t x).vscr = s.vscr := rfl

@[simp] theorem State.setStream_vrsave (t : BitVec 2) (x : Option Stream) : (s.setStream t x).vrsave = s.vrsave := rfl

@[simp] theorem State.setStream_cr (t : BitVec 2) (x : Option Stream) : (s.setStream t x).cr = s.cr := rfl

@[simp] theorem State.setStream_msr (t : BitVec 2) (x : Option Stream) : (s.setStream t x).msr = s.msr := rfl

@[simp] theorem State.setStream_srr0 (t : BitVec 2) (x : Option Stream) : (s.setStream t x).srr0 = s.srr0 := rfl

@[simp] theorem State.setStream_srr1 (t : BitVec 2) (x : Option Stream) : (s.setStream t x).srr1 = s.srr1 := rfl

@[simp] theorem State.setStream_dar (t : BitVec 2) (x : Option Stream) : (s.setStream t x).dar = s.dar := rfl

@[simp] theorem State.setStream_mem (t : BitVec 2) (x : Option Stream) : (s.setStream t x).mem = s.mem := rfl

@[simp] theorem State.setStream_streams (t : BitVec 2) (x : Option Stream) : (s.setStream t x).streams = s.streams.set t.toNat x t.isLt :=
  rfl

@[simp] theorem State.setStream_turn (t : BitVec 2) (x : Option Stream) : (s.setStream t x).turn = s.turn := rfl

@[simp] theorem State.setStream_schedule (t : BitVec 2) (x : Option Stream) : (s.setStream t x).schedule = s.schedule :=
  rfl

@[simp] theorem State.setStream_draws (t : BitVec 2) (x : Option Stream) : (s.setStream t x).draws = s.draws := rfl

@[simp] theorem State.setStream_cfg (t : BitVec 2) (x : Option Stream) : (s.setStream t x).cfg = s.cfg := rfl

/-! `State.clearStreams` -/

@[simp] theorem State.clearStreams_vr : (s.clearStreams).vr = s.vr := rfl

@[simp] theorem State.clearStreams_gpr : (s.clearStreams).gpr = s.gpr := rfl

@[simp] theorem State.clearStreams_pc : (s.clearStreams).pc = s.pc := rfl

@[simp] theorem State.clearStreams_vscr : (s.clearStreams).vscr = s.vscr := rfl

@[simp] theorem State.clearStreams_vrsave : (s.clearStreams).vrsave = s.vrsave := rfl

@[simp] theorem State.clearStreams_cr : (s.clearStreams).cr = s.cr := rfl

@[simp] theorem State.clearStreams_msr : (s.clearStreams).msr = s.msr := rfl

@[simp] theorem State.clearStreams_srr0 : (s.clearStreams).srr0 = s.srr0 := rfl

@[simp] theorem State.clearStreams_srr1 : (s.clearStreams).srr1 = s.srr1 := rfl

@[simp] theorem State.clearStreams_dar : (s.clearStreams).dar = s.dar := rfl

@[simp] theorem State.clearStreams_mem : (s.clearStreams).mem = s.mem := rfl

@[simp] theorem State.clearStreams_streams : (s.clearStreams).streams = Vector.replicate 4 none := rfl

@[simp] theorem State.clearStreams_turn : (s.clearStreams).turn = s.turn := rfl

@[simp] theorem State.clearStreams_schedule : (s.clearStreams).schedule = s.schedule := rfl

@[simp] theorem State.clearStreams_draws : (s.clearStreams).draws = s.draws := rfl

@[simp] theorem State.clearStreams_cfg : (s.clearStreams).cfg = s.cfg := rfl

/-! `State.takeUnavailable` -/

@[simp] theorem State.takeUnavailable_vr : (s.takeUnavailable).vr = s.vr := by simp only [State.takeUnavailable, State.drawn]

@[simp] theorem State.takeUnavailable_gpr : (s.takeUnavailable).gpr = s.gpr := by simp only [State.takeUnavailable, State.drawn]

@[simp] theorem State.takeUnavailable_pc : (s.takeUnavailable).pc = s.ivBase + unavailableOffset :=
    by simp only [State.takeUnavailable, State.drawn]

@[simp] theorem State.takeUnavailable_vscr : (s.takeUnavailable).vscr = s.vscr := by simp only [State.takeUnavailable, State.drawn]

@[simp] theorem State.takeUnavailable_vrsave : (s.takeUnavailable).vrsave = s.vrsave :=
  by simp only [State.takeUnavailable, State.drawn]

@[simp] theorem State.takeUnavailable_cr : (s.takeUnavailable).cr = s.cr := by simp only [State.takeUnavailable, State.drawn]

@[simp] theorem State.takeUnavailable_msr : (s.takeUnavailable).msr = msrOnInterrupt s.msr :=
  by simp only [State.takeUnavailable, State.drawn]

@[simp] theorem State.takeUnavailable_srr0 : (s.takeUnavailable).srr0 = s.pc := by simp only [State.takeUnavailable, State.drawn]

@[simp] theorem State.takeUnavailable_srr1 : (s.takeUnavailable).srr1 = s.msrRead &&& srr1Mask s.cfg.srr1ExtraBits :=
    by simp only [State.takeUnavailable, State.drawn]

@[simp] theorem State.takeUnavailable_dar : (s.takeUnavailable).dar = s.dar := by simp only [State.takeUnavailable, State.drawn]

@[simp] theorem State.takeUnavailable_mem : (s.takeUnavailable).mem = s.mem := by simp only [State.takeUnavailable, State.drawn]

@[simp] theorem State.takeUnavailable_streams : (s.takeUnavailable).streams = s.streams :=
  by simp only [State.takeUnavailable, State.drawn]

@[simp] theorem State.takeUnavailable_turn : (s.takeUnavailable).turn = s.turn := by simp only [State.takeUnavailable, State.drawn]

@[simp] theorem State.takeUnavailable_schedule : (s.takeUnavailable).schedule = s.schedule :=
  by simp only [State.takeUnavailable, State.drawn]

@[simp] theorem State.takeUnavailable_draws : (s.takeUnavailable).draws = s.draws + 1 :=
  by simp only [State.takeUnavailable, State.drawn]

@[simp] theorem State.takeUnavailable_cfg : (s.takeUnavailable).cfg = s.cfg := by simp only [State.takeUnavailable, State.drawn]

/-! `State.setDar` -/

@[simp] theorem State.setDar_vr (a : Word) (n : Nat) : (s.setDar a n).vr = s.vr := rfl

@[simp] theorem State.setDar_gpr (a : Word) (n : Nat) : (s.setDar a n).gpr = s.gpr := rfl

@[simp] theorem State.setDar_pc (a : Word) (n : Nat) : (s.setDar a n).pc = s.pc := rfl

@[simp] theorem State.setDar_vscr (a : Word) (n : Nat) : (s.setDar a n).vscr = s.vscr := rfl

@[simp] theorem State.setDar_vrsave (a : Word) (n : Nat) : (s.setDar a n).vrsave = s.vrsave := rfl

@[simp] theorem State.setDar_cr (a : Word) (n : Nat) : (s.setDar a n).cr = s.cr := rfl

@[simp] theorem State.setDar_msr (a : Word) (n : Nat) : (s.setDar a n).msr = s.msr := rfl

@[simp] theorem State.setDar_srr0 (a : Word) (n : Nat) : (s.setDar a n).srr0 = s.srr0 := rfl

@[simp] theorem State.setDar_srr1 (a : Word) (n : Nat) : (s.setDar a n).srr1 = s.srr1 := rfl

@[simp] theorem State.setDar_mem (a : Word) (n : Nat) : (s.setDar a n).mem = s.mem := rfl

@[simp] theorem State.setDar_streams (a : Word) (n : Nat) : (s.setDar a n).streams = s.streams := rfl

@[simp] theorem State.setDar_turn (a : Word) (n : Nat) : (s.setDar a n).turn = s.turn := rfl

@[simp] theorem State.setDar_schedule (a : Word) (n : Nat) : (s.setDar a n).schedule = s.schedule := rfl

@[simp] theorem State.setDar_draws (a : Word) (n : Nat) : (s.setDar a n).draws = s.draws + 1 := rfl

@[simp] theorem State.setDar_cfg (a : Word) (n : Nat) : (s.setDar a n).cfg = s.cfg := rfl

/-! Reading back what was written -/

theorem State.setVreg_vreg (r q : VReg) (v : Vec) : (s.setVreg r v).vreg q = if q = r then v else s.vreg q := by
  simp only [State.vreg, State.setVreg, Vector.getElem_set, BitVec.toNat_inj, eq_comm]

@[simp] theorem State.setVreg_vreg_self (r : VReg) (v : Vec) : (s.setVreg r v).vreg r = v := by
  simp [State.setVreg_vreg]

theorem State.setVreg_vreg_ne (r q : VReg) (v : Vec) (h : q ≠ r) : (s.setVreg r v).vreg q = s.vreg q := by
  simp [State.setVreg_vreg, h]

theorem State.setGreg_greg (r q : GReg) (v : Word) : (s.setGreg r v).greg q = if q = r then v else s.greg q := by
  simp only [State.greg, State.setGreg, Vector.getElem_set, BitVec.toNat_inj, eq_comm]

theorem State.setStream_stream (t u : BitVec 2) (x : Option Stream) :
    (s.setStream t x).stream u = if u = t then x else s.stream u := by
  simp only [State.stream, State.setStream, Vector.getElem_set, BitVec.toNat_inj, eq_comm]

@[simp] theorem State.clearStreams_stream (t : BitVec 2) : s.clearStreams.stream t = none := by
  simp [State.stream]

/-! Registers depend on their own file only -/

theorem State.vreg_congr {s t : State} (h : t.vr = s.vr) (r : VReg) : t.vreg r = s.vreg r := by
  simp [State.vreg, h]

theorem State.greg_congr {s t : State} (h : t.gpr = s.gpr) (r : GReg) : t.greg r = s.greg r := by
  simp [State.greg, h]

@[simp] theorem State.advance_vreg (r : VReg) : s.advance.vreg r = s.vreg r := rfl

@[simp] theorem State.drawn_vreg (r : VReg) : s.drawn.vreg r = s.vreg r := rfl

@[simp] theorem State.orSat_vreg (b : Bool) (r : VReg) : (s.orSat b).vreg r = s.vreg r := rfl

@[simp] theorem State.setCr6_vreg (f : BitVec 4) (r : VReg) : (s.setCr6 f).vreg r = s.vreg r := rfl

@[simp] theorem State.memWrite_vreg (a : Word) (n : Nat) (v : BitVec (8 * n)) (r : VReg) :
    (s.memWrite a n v).vreg r = s.vreg r := rfl

end Sys2Proof.Machine
end

