-- ==== Sys2Proof/Laws/Memory.lean ====
section
/-! SUPPORT. Memory: a read after a write, and that every operation keeps the canonical form. -/

namespace Sys2Proof.Machine

/-- A list that does not hold the address reads as an unlisted byte. -/
theorem Memory.read_of_not_listed {m : List Host.Cell} {a : Nat} (h : ∀ c ∈ m, c.1 ≠ a) : Memory.read m a = 0 := by
  induction m with
  | nil => rfl
  | cons c m ih =>
    simp only [List.mem_cons, forall_eq_or_imp] at h
    rw [Memory.read, if_neg h.1, ih h.2]

theorem Memory.read_filter_ne (m : List Host.Cell) {a b : Nat} (h : b ≠ a) :
    Memory.read (m.filter fun c => c.1 ≠ a) b = Memory.read m b := by
  induction m with
  | nil => rfl
  | cons c m ih =>
    by_cases hc : c.1 = a
    · have hb : c.1 ≠ b := fun e => h (e.symm.trans hc)
      simp only [List.filter_cons, hc, ne_eq, not_true_eq_false, decide_false, Bool.false_eq_true, if_false,
        Memory.read]
      rw [if_neg fun e : a = b => h e.symm]
      exact ih
    · simp only [List.filter_cons, ne_eq, hc, not_false_eq_true, decide_true, if_true, Memory.read, ih]

theorem Memory.read_insert (m : List Host.Cell) (a b : Nat) (v : Byte) (h : ∀ c ∈ m, c.1 ≠ a) :
    Memory.read (Memory.insert a v m) b = if b = a then v else Memory.read m b := by
  induction m with
  | nil => simp only [Memory.insert, Memory.read, eq_comm]
  | cons c m ih =>
    simp only [List.mem_cons, forall_eq_or_imp] at h
    by_cases hlt : a < c.1
    · simp only [Memory.insert, if_pos hlt, Memory.read, eq_comm (a := a)]
    · simp only [Memory.insert, if_neg hlt, Memory.read, ih h.2]
      by_cases hb : c.1 = b
      · subst hb; simp [h.1]
      · simp [hb]

/-- A byte read after a byte was written. -/
theorem Memory.read_write (m : List Host.Cell) (a b : Nat) (v : Byte) :
    Memory.read (Memory.write m a v) b = if b = a then v else Memory.read m b := by
  have hf : ∀ c ∈ m.filter (fun c => c.1 ≠ a), c.1 ≠ a := fun c hc => by simpa using (List.mem_filter.1 hc).2
  unfold Memory.write
  split
  · next hv =>
    by_cases hb : b = a
    · subst hb; rw [if_pos rfl, hv, Memory.read_of_not_listed hf]
    · rw [if_neg hb, Memory.read_filter_ne m hb]
  · rw [Memory.read_insert _ _ _ _ hf]
    by_cases hb : b = a
    · simp [hb]
    · rw [if_neg hb, if_neg hb, Memory.read_filter_ne m hb]

theorem Memory.mem_insert {a : Nat} {v : Byte} {m : List Host.Cell} {c : Host.Cell}
    (h : c ∈ Memory.insert a v m) : c = (a, v) ∨ c ∈ m := by
  induction m with
  | nil => simpa [Memory.insert] using h
  | cons d m ih =>
    unfold Memory.insert at h
    split at h
    · simpa using h
    · rcases List.mem_cons.1 h with rfl | h
      · simp
      · rcases ih h with h | h
        · exact .inl h
        · exact .inr (List.mem_cons_of_mem _ h)

theorem Memory.pairwise_insert {a : Nat} {v : Byte} {m : List Host.Cell}
    (hm : m.Pairwise fun c d => c.1 < d.1) (h : ∀ c ∈ m, c.1 ≠ a) :
    (Memory.insert a v m).Pairwise fun c d => c.1 < d.1 := by
  induction m with
  | nil => simp [Memory.insert]
  | cons d m ih =>
    rw [List.pairwise_cons] at hm
    simp only [List.mem_cons, forall_eq_or_imp] at h
    unfold Memory.insert
    split
    · next hlt =>
      rw [List.pairwise_cons, List.pairwise_cons]
      refine ⟨fun c hc => ?_, hm⟩
      rcases List.mem_cons.1 hc with rfl | hc
      · exact hlt
      · exact lt_trans hlt (hm.1 c hc)
    · next hlt =>
      rw [List.pairwise_cons]
      refine ⟨fun c hc => ?_, ih hm.2 h.2⟩
      rcases Memory.mem_insert hc with rfl | hc
      · exact lt_of_le_of_ne (Nat.le_of_not_lt hlt) h.1
      · exact hm.1 c hc

/-- Writing a byte keeps the canonical form. -/
theorem Memory.wf_write {m : List Host.Cell} {a : Nat} (v : Byte) (hm : Memory.wf m) (ha : a < 2 ^ 32) :
    Memory.wf (Memory.write m a v) := by
  have hsub : ∀ c ∈ m.filter (fun c => c.1 ≠ a), c ∈ m := fun c hc => (List.mem_filter.1 hc).1
  have hne : ∀ c ∈ m.filter (fun c => c.1 ≠ a), c.1 ≠ a := fun c hc => by simpa using (List.mem_filter.1 hc).2
  have hp : (m.filter fun c => c.1 ≠ a).Pairwise fun c d => c.1 < d.1 := hm.1.filter _
  unfold Memory.write
  split
  · exact ⟨hp, fun c hc => hm.2 c (hsub c hc)⟩
  · next hv =>
    refine ⟨Memory.pairwise_insert hp hne, fun c hc => ?_⟩
    rcases Memory.mem_insert hc with rfl | hc
    · exact ⟨ha, hv⟩
    · exact hm.2 c (hsub c hc)

theorem byteAddress_lt (a : Word) (k : Nat) : byteAddress a k < 2 ^ 32 := Nat.mod_lt _ (by decide)

theorem byteAddress_ne {a : Word} {i j : Nat} (hi : i < 2 ^ 32) (hj : j < 2 ^ 32) (h : i ≠ j) :
    byteAddress a i ≠ byteAddress a j := by
  unfold byteAddress
  have := a.isLt
  omega

theorem Memory.wf_writeBytes {m : List Host.Cell} (a : Word) (n : Nat) (f : Nat → Byte) (hm : Memory.wf m) :
    Memory.wf (Memory.writeBytes m a n f) := by
  induction n with
  | zero => exact hm
  | succ n ih => exact Memory.wf_write _ ih (byteAddress_lt a n)

/-- A store keeps the canonical form. -/
theorem State.memWrite_wf {s : State} (a : Word) (n : Nat) (v : BitVec (8 * n)) (hm : Memory.wf s.mem) :
    Memory.wf (s.memWrite a n v).mem := Memory.wf_writeBytes a n _ hm

/-- Placing an instruction keeps the canonical form. -/
theorem State.withFetchWord_wf {s : State} (nbits w : Nat) (hm : Memory.wf s.mem) :
    Memory.wf (s.withFetchWord nbits w).mem := State.memWrite_wf _ _ _ hm

/-- The memory after reset is canonical. -/
theorem State.reset_wf : Memory.wf State.reset.mem := by decide

/-- A byte outside the bytes written reads as before. -/
theorem Memory.read_writeBytes_outside (m : List Host.Cell) (a : Word) (n : Nat) (f : Nat → Byte) {b : Nat}
    (h : ∀ k < n, b ≠ byteAddress a k) : Memory.read (Memory.writeBytes m a n f) b = Memory.read m b := by
  induction n with
  | zero => rfl
  | succ n ih =>
    rw [Memory.writeBytes, Memory.read_write, if_neg (h n (Nat.lt_succ_self n))]
    exact ih fun k hk => h k (Nat.lt_succ_of_lt hk)

/-- Byte `k` of the bytes written reads as `f k`. -/
theorem Memory.read_writeBytes_inside (m : List Host.Cell) (a : Word) {n : Nat} (f : Nat → Byte) {k : Nat} (hk : k < n)
    (hn : n ≤ 2 ^ 32) : Memory.read (Memory.writeBytes m a n f) (byteAddress a k) = f k := by
  induction n with
  | zero => omega
  | succ n ih =>
    rw [Memory.writeBytes, Memory.read_write]
    by_cases h : k = n
    · subst h; rw [if_pos rfl]
    · rw [if_neg (byteAddress_ne (by omega) (by omega) h)]
      exact ih (by omega) (by omega)

/-- Byte `k` of what a read gives. -/
theorem State.elem_memRead (s : State) (a : Word) {n k : Nat} (h : k < n) :
    elem 8 k (s.memRead a n) = Memory.read s.mem (byteAddress a k) := elem_ofElems 8 n _ h

/-- A read after a write of the same bytes gives what was written. -/
theorem State.memRead_memWrite (s : State) (a : Word) {n : Nat} (v : BitVec (8 * n)) (hn : n ≤ 2 ^ 32) :
    (s.memWrite a n v).memRead a n = v :=
  eq_of_elems fun k hk => by
    rw [State.elem_memRead _ _ hk]
    exact Memory.read_writeBytes_inside s.mem a _ hk hn

/-- The word placed is the word fetched. -/
theorem State.withFetchWord_fetch (s : State) (nbits w : Nat) :
    (s.withFetchWord nbits w).fetch = BitVec.ofNat 32 (w % 2 ^ nbits) := by
  have h : (s.withFetchWord nbits w).fetchAddress = s.fetchAddress := rfl
  unfold State.fetch
  rw [h]
  exact State.memRead_memWrite s s.fetchAddress (n := 4) (BitVec.ofNat 32 (w % 2 ^ nbits)) (by decide)

end Sys2Proof.Machine
end

