-- ==== Sys2Proof/Laws/Ops.lean ====
section
/-! SUPPORT. The shared operations: for each, what it answers. -/

namespace Sys2Proof.Machine

variable (s : State)

/-! ## Availability (R500) -/

theorem whenAvailable_on {s : State} (h : s.vecEnabled = true) (k : Result) : whenAvailable s k = k := if_pos h

theorem whenAvailable_off {s : State} (h : s.vecEnabled = false) (k : Result) :
    whenAvailable s k = .next s.takeUnavailable := by simp [whenAvailable, h]

/-- An instruction that needs the facility either takes the interrupt or does what it does. -/
theorem whenAvailable_cases (k : Result) :
    (s.vecEnabled = true ∧ whenAvailable s k = k) ∨
      (s.vecEnabled = false ∧ whenAvailable s k = .next s.takeUnavailable) := by
  cases h : s.vecEnabled
  · exact .inr ⟨rfl, whenAvailable_off h k⟩
  · exact .inl ⟨rfl, whenAvailable_on h k⟩

/-! ## Registers with reserved bits (R31) -/

/-- Free bits outside a mask do not show in a value that the mask covers. -/
theorem and_or_of_covered {x m : Word} (h : x &&& m = x) (u : Word) : x &&& (m ||| u) = x := by
  apply BitVec.eq_of_getLsbD_eq
  intro i _
  have hi := congrArg (·.getLsbD i) h
  simp only [BitVec.getLsbD_and, BitVec.getLsbD_or] at hi ⊢
  cases hx : x.getLsbD i <;> simp_all

/-- MSR reads as last written where no reserved bit was last written as 1. -/
theorem State.msrRead_eq {s : State} (h : s.msr &&& ~~~msrReserved = s.msr) : s.msrRead = s.msr :=
  and_or_of_covered h _

/-- A defined bit of MSR reads as it is. -/
theorem State.msrRead_defined {s : State} {k : Nat} (hk : k < 32) (h : bit msrReserved k = false) :
    bit s.msrRead k = bit s.msr k := by
  unfold bit State.msrRead at *
  rw [BitVec.getLsbD_and, BitVec.getLsbD_or, BitVec.getLsbD_not, h]
  simp
  omega

/-- A bit of MSR that reads as 1 was last written as 1. -/
theorem State.msrRead_reserved {s : State} {k : Nat} (h : bit s.msrRead k = true) : bit s.msr k = true := by
  unfold bit State.msrRead at *
  rw [BitVec.getLsbD_and, Bool.and_eq_true] at h
  exact h.1

/-! ## Completion -/

theorem result_on {s : State} (h : s.vecEnabled = true) (d : VReg) (v : Vec) :
    result s d v = .next (s.setVreg d v).advance := whenAvailable_on h _

theorem resultSat_on {s : State} (h : s.vecEnabled = true) (d : VReg) (v : Vec × Bool) :
    resultSat s d v = .next ((s.setVreg d v.1).orSat v.2).advance := whenAvailable_on h _

theorem resultCompare_on {s : State} (h : s.vecEnabled = true) (d : VReg) (rc : Bool) (v : Vec) (f : BitVec 4) :
    resultCompare s d rc v f = .next (if rc then (s.setVreg d v).setCr6 f else s.setVreg d v).advance :=
  whenAvailable_on h _

theorem resultDrawn_on {s : State} (h : s.vecEnabled = true) (d : VReg) (v : Vec) :
    resultDrawn s d v = .next (s.drawn.setVreg d v).advance := whenAvailable_on h _

/-! ## Data accesses (R510) -/

theorem withAccess_ok {s : State} {ea : Word} {n : Nat} {store : Bool} (hf : s.accessFaults ea n store = false)
    (hb : s.breakpointHit ea n store = false) (left : State) (k : Result) : withAccess s ea n store left k = k := by
  simp [withAccess, hf, hb]

/-- An access that completes had neither a fault nor a breakpoint match. -/
theorem withAccess_next {s : State} {ea : Word} {n : Nat} {store : Bool} {left t : State} {k : Result}
    (h : withAccess s ea n store left k = .next t) :
    s.accessFaults ea n store = false ∧ s.breakpointHit ea n store = false ∧ k = .next t := by
  unfold withAccess at h
  split at h
  · cases h
  · next hf =>
    split at h
    · cases h
    · next hb => exact ⟨by simpa using hf, by simpa using hb, h⟩

/-! ## Saturation (R12) -/

theorem uiToUiSat_toNat (w k : Nat) : (uiToUiSat w k).1.toNat = min k (2 ^ w - 1) := by
  have := Nat.one_le_two_pow (n := w)
  unfold uiToUiSat
  split
  · simp only [BitVec.toNat_allOnes]; omega
  · simp only [BitVec.toNat_ofNat]; rw [Nat.mod_eq_of_lt (by omega)]; omega

theorem uiToUiSat_sat (w k : Nat) : (uiToUiSat w k).2 = true ↔ 2 ^ w - 1 < k := by
  have := Nat.one_le_two_pow (n := w)
  unfold uiToUiSat
  split
  · simp only [true_iff]; omega
  · simp only [Bool.false_eq_true, false_iff]; omega

theorem siToUiSat_toNat (w : Nat) (k : Int) : ((siToUiSat w k).1.toNat : Int) = max 0 (min k (2 ^ w - 1)) := by
  have h1 : (1 : Int) ≤ 2 ^ w := by exact_mod_cast Nat.one_le_two_pow (n := w)
  unfold siToUiSat
  split
  · simp only [BitVec.ofNat_eq_ofNat, BitVec.toNat_ofNat, Nat.zero_mod]; omega
  · split
    · rw [BitVec.toNat_allOnes, Nat.cast_sub Nat.one_le_two_pow]; push_cast; omega
    · rw [BitVec.toNat_ofInt, Int.toNat_of_nonneg (Int.emod_nonneg _ (by positivity))]
      rw [Int.emod_eq_of_lt (by omega) (by push_cast; omega)]
      omega

theorem siToUiSat_sat (w : Nat) (k : Int) : (siToUiSat w k).2 = true ↔ k < 0 ∨ 2 ^ w - 1 < k := by
  have h1 : (1 : Int) ≤ 2 ^ w := by exact_mod_cast Nat.one_le_two_pow (n := w)
  unfold siToUiSat
  split
  · simp only [true_iff]; omega
  · split
    · simp only [true_iff]; omega
    · simp only [Bool.false_eq_true, false_iff]; omega

theorem siToSiSat_toInt (w : Nat) (hw : 0 < w) (k : Int) :
    (siToSiSat w k).1.toInt = max (-2 ^ (w - 1)) (min k (2 ^ (w - 1) - 1)) := by
  have h1 : (1 : Int) ≤ 2 ^ (w - 1) := by exact_mod_cast Nat.one_le_two_pow (n := w - 1)
  have key : ∀ z : Int, -2 ^ (w - 1) ≤ z → z < 2 ^ (w - 1) → (BitVec.ofInt w z).toInt = z := by
    intro z h2 h3
    have e : (2 : Int) ^ w = 2 * 2 ^ (w - 1) := by
      conv_lhs => rw [show w = (w - 1) + 1 by omega, pow_succ]
      ring
    rw [BitVec.toInt_ofInt, Int.bmod_eq_of_le_mul_two] <;> push_cast <;> omega
  unfold siToSiSat
  split
  · rw [key _ (by omega) (by omega)]; omega
  · split
    · rw [key _ (by omega) (by omega)]; omega
    · rw [key _ (by omega) (by omega)]; omega

theorem siToSiSat_sat (w : Nat) (k : Int) : (siToSiSat w k).2 = true ↔ k < -2 ^ (w - 1) ∨ 2 ^ (w - 1) - 1 < k := by
  have h1 : (1 : Int) ≤ 2 ^ (w - 1) := by exact_mod_cast Nat.one_le_two_pow (n := w - 1)
  unfold siToSiSat
  split
  · simp only [true_iff]; omega
  · split
    · simp only [true_iff]; omega
    · simp only [Bool.false_eq_true, false_iff]; omega

/-! ## The stream engine: it touches the stream table, its turn and its schedule only (R462, R472) -/

/-- `t` differs from `s` in the stream table, the turn and the schedule at most. -/
def streamsOnly (s t : State) : Prop := t = { s with streams := t.streams, turn := t.turn, schedule := t.schedule }

theorem State.prefetchFrom_streamsOnly (fuel : Nat) (tag : BitVec 2) : streamsOnly s (s.prefetchFrom fuel tag) := by
  induction fuel generalizing tag with
  | zero => rfl
  | succ n ih =>
    unfold State.prefetchFrom
    split
    · split
      · rfl
      · exact ih _
    · exact ih _

theorem State.makeMove_streamsOnly (m : EngineMove) : streamsOnly s (s.makeMove m) := by
  cases m
  · rfl
  · exact State.prefetchFrom_streamsOnly s 4 s.turn
  · rfl

/-- What the engine can do. -/
theorem State.engine_streamsOnly : streamsOnly s s.engine := by
  unfold State.engine
  split
  · split
    · rfl
    · next m rest _ =>
      have h := State.makeMove_streamsOnly { s with schedule := rest } m
      unfold streamsOnly at h ⊢
      rw [h]
  · rfl

end Sys2Proof.Machine
end

