-- ==== Sys2Proof/Laws/Completion.lean ====
section
/-! SUPPORT. For each way of completing an instruction: what the shared operation does satisfies the words of
Sys2Proof/Safety.lean. -/

namespace Sys2Proof.Machine

variable {s : State} {i : Instr} {w : Word} {vD : VReg} {P : Vec → Prop}

/-- A weaker predicate of the new value. -/
theorem writes_imp {Q : Vec → Prop} (h : Writes i w s vD P) (hq : ∀ d, P d → Q d) : Writes i w s vD Q := by
  obtain ⟨hw, t, he, hpc, hp, hrest⟩ := h
  exact ⟨hw, t, he, hpc, hq _ hp, hrest⟩

/-- What `result` does. -/
theorem result_writes {v : Vec} (hv : s.vecEnabled = true) (he : exec i s = result s vD v) (hw : encode i = w)
    (hP : P v) : Writes i w s vD P := by
  refine ⟨hw, _, he.trans (result_on hv vD v), rfl, ?_, ?_, rfl, rfl, ?_⟩
  · simpa using hP
  · intro r hr
    simp [State.setVreg_vreg_ne, hr]
  · constructor <;> intros <;> rfl

/-- What `resultDrawn` does: the same, the free value drawn. -/
theorem resultDrawn_writes {v : Vec} (hv : s.vecEnabled = true) (he : exec i s = resultDrawn s vD v)
    (hw : encode i = w) (hP : P v) : Writes i w s vD P := by
  refine ⟨hw, _, he.trans (resultDrawn_on hv vD v), rfl, ?_, ?_, rfl, rfl, ?_⟩
  · simpa using hP
  · intro r hr
    simp [State.setVreg_vreg_ne, hr]
  · constructor <;> intros <;> rfl

/-- What `resultSat` does. -/
theorem resultSat_writes {v : Vec × Bool} {q : Prop} (hv : s.vecEnabled = true) (he : exec i s = resultSat s vD v)
    (hw : encode i = w) (hP : P v.1) (hq : v.2 = true ↔ q) : WritesSat i w s vD P q := by
  refine ⟨hw, _, he.trans (resultSat_on hv vD v), rfl, ?_, ?_, ?_, rfl, ?_⟩
  · simpa using hP
  · intro r hr
    simp [State.setVreg_vreg_ne, hr]
  · intro k hk
    cases h : v.2
    · have : ¬ q := by rw [← hq, h]; simp
      simp [this, State.orSat]
    · have : q := hq.mp h
      simp only [State.advance_vscr, State.orSat, if_true, State.setVreg_vscr, this, and_true]
      unfold bit bitMask
      rw [BitVec.getLsbD_or, BitVec.getLsbD_twoPow]
      have e : (31 - 31 = 31 - k) ↔ k = 31 := by omega
      simp only [Bool.or_eq_true, decide_eq_true_eq, Bool.and_eq_true]
      constructor <;> rintro (h | h)
      · exact .inl h
      · exact .inr (by omega)
      · exact .inl h
      · exact .inr (by omega)
  · constructor <;> intros <;> rfl

/-- What `resultCompare` does, with a record field whose bit `k` is `g k`. -/
theorem resultCompare_writes {v : Vec} {rc : Bool} {f : BitVec 4} {g : Vec → Nat → Prop} (hv : s.vecEnabled = true)
    (he : exec i s = resultCompare s vD rc v f) (hw : encode i = w) (hP : P v)
    (hf : ∀ k < 4, f.getMsbD k = true ↔ g v k) : WritesRecord i w s vD rc P g := by
  refine ⟨hw, _, he.trans (resultCompare_on hv vD rc v f), ?_, ?_, ?_, ?_, ?_, ?_⟩
  · cases rc <;> rfl
  · cases rc <;> simpa using hP
  · intro r hr
    cases rc <;> simp [State.setVreg_vreg_ne, hr]
  · cases rc <;> rfl
  · intro k hk
    cases rc
    · simp
    · simp only [if_true, true_and, State.advance_cr, State.setCr6]
      by_cases h : 24 ≤ k ∧ k < 28
      · rw [if_pos h]
        have := hf (k - 24) (by omega)
        have e : (State.setCr6 (s.setVreg vD v) f).advance.vreg vD = v := by simp
        simp only [State.setCr6] at e
        rw [e, ← this]
        obtain ⟨h1, h2⟩ := h
        interval_cases k <;> simp [bit, BitVec.getMsbD]
      · rw [if_neg h]
        have : k < 24 ∨ 28 ≤ k := by omega
        unfold bit
        rw [BitVec.getLsbD_or, BitVec.getLsbD_and, BitVec.getLsbD_shiftLeft, BitVec.getLsbD_setWidth]
        rcases this with h | h
        · interval_cases k <;> simp
        · interval_cases k <;> simp
  · constructor <;> intros <;> cases rc <;> rfl

/-! ## Loads and stores -/

/-- What an element load does: the element is in its lane. -/
theorem loadElement_writes {n k : Nat} {rA rB : GReg} (hv : s.vecEnabled = true)
    (ha : s.accessible (alignTo n (s.ea rA rB)) n false) (he : exec i s = loadElement n vD rA rB s) (hw : encode i = w)
    (hk : laneOf s.littleEndian n (alignTo n (s.ea rA rB)) = k) (hb : 8 * n * (k + 1) ≤ 128) :
    Writes i w s vD fun d =>
      elem (8 * n) k d = s.memRead (elementAddress s.littleEndian n (alignTo n (s.ea rA rB))) n := by
  refine resultDrawn_writes (v := putElem k (s.memRead (elementAddress s.littleEndian n (alignTo n (s.ea rA rB))) n)
    s.undefinedNow) hv ?_ hw (elem_putElem_same _ _ hb)
  rw [he, resultDrawn_on hv, ← hk]
  exact (whenAvailable_on hv _).trans (withAccess_ok ha.1 ha.2 _ _)

/-- What a quad-word load does. -/
theorem loadQuad_writes {rA rB : GReg} (hv : s.vecEnabled = true)
    (ha : s.accessible (alignTo 16 (s.ea rA rB)) 16 false) (he : exec i s = loadQuad vD rA rB s) (hw : encode i = w)
    (hP : P (s.quadRead (alignTo 16 (s.ea rA rB)))) : Writes i w s vD P := by
  refine result_writes hv ?_ hw hP
  rw [he, result_on hv]
  exact (whenAvailable_on hv _).trans (withAccess_ok ha.1 ha.2 _ _)

/-- What a store does: `n` bytes at `a` become those of `x`. -/
theorem memWrite_stores {n : Nat} {a ea : Word} {x : BitVec (8 * n)} (hv : s.vecEnabled = true)
    (ha : s.accessible ea n true)
    (he : exec i s = whenAvailable s (withAccess s ea n true s (.next (s.memWrite a n x).advance))) (hw : encode i = w)
    (hn : n ≤ 2 ^ 32) {v : Nat → Byte} (hx : ∀ k < n, elem 8 k x = v k) : Stores i w s a n v := by
  refine ⟨hw, _, (he.trans (whenAvailable_on hv _)).trans (withAccess_ok ha.1 ha.2 _ _), rfl, ?_, ?_⟩
  · intro k hk
    exact (Memory.read_writeBytes_inside s.mem a _ hk hn).trans (hx k hk)
  · intro b hb
    exact Memory.read_writeBytes_outside s.mem a n _ hb

/-! ## The record field -/

theorem recordBits (x y z : Bool) : ∀ k < 4,
    (BitVec.ofBool x ++ BitVec.ofBool y ++ BitVec.ofBool z ++ 0#1).getMsbD k =
      ((x && k == 0) || (y && k == 1) || (z && k == 2)) := by
  revert x y z
  decide

/-- The bits of the record field of a compare. -/
theorem cr6Compare_bits (d : Vec) : ∀ k < 4, (cr6Compare d).getMsbD k = true ↔ allOrNone d k := by
  intro k hk
  rw [show cr6Compare d = BitVec.ofBool (d = BitVec.allOnes 128) ++ BitVec.ofBool false ++ BitVec.ofBool (d = 0) ++ 0#1
    from rfl, recordBits _ _ _ k hk]
  simp [allOrNone, and_comm]

/-- The bits of the record field of `vcmpbfp`. -/
theorem cr6Bounds_bits (d : Vec) : ∀ k < 4, (cr6Bounds d).getMsbD k = true ↔ allInBounds d k := by
  intro k hk
  rw [show cr6Bounds d = BitVec.ofBool false ++ BitVec.ofBool false ++ BitVec.ofBool (d = 0) ++ 0#1 from rfl,
    recordBits _ _ _ k hk]
  simp [allInBounds, and_comm]

end Sys2Proof.Machine
end

