-- ==== Sys2Proof/Laws/Encoding.lean ====
section
/-! SUPPORT. The fields of the words that the encoder builds. -/

namespace Sys2Proof

theorem field_eq {w : Word} {a len : Nat} {x : BitVec len}
    (h : ∀ j < len, w.getLsbD (32 - a - len + j) = x.getLsbD j) : field w a len = x := by
  apply BitVec.eq_of_getLsbD_eq
  intro j hj
  simp [field, hj, h j hj]

/-! ## VX form -/

section

variable (d a b : BitVec 5) (xo : BitVec 11)

@[simp] theorem encVX_opcd : field (encVX d a b xo) 0 6 = 4 := by
  apply field_eq
  intro j hj
  simp only [encVX, BitVec.getLsbD_append]
  interval_cases j <;> simp

@[simp] theorem encVX_d : field (encVX d a b xo) 6 5 = d := by
  apply field_eq
  intro j hj
  simp only [encVX, BitVec.getLsbD_append]
  interval_cases j <;> simp

@[simp] theorem encVX_a : field (encVX d a b xo) 11 5 = a := by
  apply field_eq
  intro j hj
  simp only [encVX, BitVec.getLsbD_append]
  interval_cases j <;> simp

@[simp] theorem encVX_b : field (encVX d a b xo) 16 5 = b := by
  apply field_eq
  intro j hj
  simp only [encVX, BitVec.getLsbD_append]
  interval_cases j <;> simp

@[simp] theorem encVX_xo : field (encVX d a b xo) 21 11 = xo := by
  apply field_eq
  intro j hj
  simp only [encVX, BitVec.getLsbD_append]
  interval_cases j <;> simp

end

/-! ## VXR form -/

section

variable (d a b : BitVec 5) (rc : Bool) (xo : BitVec 10)

@[simp] theorem encVXR_opcd : field (encVXR d a b rc xo) 0 6 = 4 := by
  apply field_eq
  intro j hj
  simp only [encVXR, BitVec.getLsbD_append]
  interval_cases j <;> simp

@[simp] theorem encVXR_d : field (encVXR d a b rc xo) 6 5 = d := by
  apply field_eq
  intro j hj
  simp only [encVXR, BitVec.getLsbD_append]
  interval_cases j <;> simp

@[simp] theorem encVXR_a : field (encVXR d a b rc xo) 11 5 = a := by
  apply field_eq
  intro j hj
  simp only [encVXR, BitVec.getLsbD_append]
  interval_cases j <;> simp

@[simp] theorem encVXR_b : field (encVXR d a b rc xo) 16 5 = b := by
  apply field_eq
  intro j hj
  simp only [encVXR, BitVec.getLsbD_append]
  interval_cases j <;> simp

@[simp] theorem encVXR_rc : field (encVXR d a b rc xo) 21 1 = BitVec.ofBool rc := by
  apply field_eq
  intro j hj
  simp only [encVXR, BitVec.getLsbD_append]
  interval_cases j
  simp

@[simp] theorem encVXR_xo : field (encVXR d a b rc xo) 22 10 = xo := by
  apply field_eq
  intro j hj
  simp only [encVXR, BitVec.getLsbD_append]
  interval_cases j <;> simp

end

/-! ## VA form -/

section

variable (d a b c : BitVec 5) (xo : BitVec 6)

@[simp] theorem encVA_opcd : field (encVA d a b c xo) 0 6 = 4 := by
  apply field_eq
  intro j hj
  simp only [encVA, BitVec.getLsbD_append]
  interval_cases j <;> simp

@[simp] theorem encVA_d : field (encVA d a b c xo) 6 5 = d := by
  apply field_eq
  intro j hj
  simp only [encVA, BitVec.getLsbD_append]
  interval_cases j <;> simp

@[simp] theorem encVA_a : field (encVA d a b c xo) 11 5 = a := by
  apply field_eq
  intro j hj
  simp only [encVA, BitVec.getLsbD_append]
  interval_cases j <;> simp

@[simp] theorem encVA_b : field (encVA d a b c xo) 16 5 = b := by
  apply field_eq
  intro j hj
  simp only [encVA, BitVec.getLsbD_append]
  interval_cases j <;> simp

@[simp] theorem encVA_c : field (encVA d a b c xo) 21 5 = c := by
  apply field_eq
  intro j hj
  simp only [encVA, BitVec.getLsbD_append]
  interval_cases j <;> simp

@[simp] theorem encVA_xo : field (encVA d a b c xo) 26 6 = xo := by
  apply field_eq
  intro j hj
  simp only [encVA, BitVec.getLsbD_append]
  interval_cases j <;> simp

end

/-! ## X form -/

section

variable (d a b : BitVec 5) (xo : BitVec 10)

@[simp] theorem encX_opcd : field (encX d a b xo) 0 6 = 31 := by
  apply field_eq
  intro j hj
  simp only [encX, BitVec.getLsbD_append]
  interval_cases j <;> simp

@[simp] theorem encX_d : field (encX d a b xo) 6 5 = d := by
  apply field_eq
  intro j hj
  simp only [encX, BitVec.getLsbD_append]
  interval_cases j <;> simp

@[simp] theorem encX_a : field (encX d a b xo) 11 5 = a := by
  apply field_eq
  intro j hj
  simp only [encX, BitVec.getLsbD_append]
  interval_cases j <;> simp

@[simp] theorem encX_b : field (encX d a b xo) 16 5 = b := by
  apply field_eq
  intro j hj
  simp only [encX, BitVec.getLsbD_append]
  interval_cases j <;> simp

@[simp] theorem encX_xo : field (encX d a b xo) 21 10 = xo := by
  apply field_eq
  intro j hj
  simp only [encX, BitVec.getLsbD_append]
  interval_cases j <;> simp

@[simp] theorem encX_last : field (encX d a b xo) 31 1 = 0 := by
  apply field_eq
  intro j hj
  simp only [encX, BitVec.getLsbD_append]
  interval_cases j
  simp

end

/-! ## Parts of fields that two forms read differently -/

/-- The last six bits of a VX word are those of its extended opcode. -/
theorem encVX_low6 (d a b : BitVec 5) (xo : BitVec 11) : field (encVX d a b xo) 26 6 = xo.setWidth 6 := by
  apply field_eq
  intro j hj
  simp only [encVX, BitVec.getLsbD_append, BitVec.getLsbD_setWidth]
  interval_cases j <;> simp

theorem encVX_low10 (d a b : BitVec 5) (xo : BitVec 11) : field (encVX d a b xo) 22 10 = xo.setWidth 10 := by
  apply field_eq
  intro j hj
  simp only [encVX, BitVec.getLsbD_append, BitVec.getLsbD_setWidth]
  interval_cases j <;> simp

theorem encVXR_low6 (d a b : BitVec 5) (rc : Bool) (xo : BitVec 10) :
    field (encVXR d a b rc xo) 26 6 = xo.setWidth 6 := by
  apply field_eq
  intro j hj
  simp only [encVXR, BitVec.getLsbD_append, BitVec.getLsbD_setWidth]
  interval_cases j <;> simp

theorem encVA_bit21 (d a b c : BitVec 5) (xo : BitVec 6) : field (encVA d a b c xo) 21 1 = c.extractLsb' 4 1 := by
  apply field_eq
  intro j hj
  simp only [encVA, BitVec.getLsbD_append, BitVec.getLsbD_extractLsb']
  interval_cases j
  simp

theorem encVA_shb (d a b c : BitVec 5) (xo : BitVec 6) : field (encVA d a b c xo) 22 4 = c.setWidth 4 := by
  apply field_eq
  intro j hj
  simp only [encVA, BitVec.getLsbD_append, BitVec.getLsbD_setWidth]
  interval_cases j <;> simp

theorem encX_spr (d a b : BitVec 5) (xo : BitVec 10) : field (encX d a b xo) 11 10 = a ++ b := by
  apply field_eq
  intro j hj
  simp only [encX, BitVec.getLsbD_append]
  interval_cases j <;> simp

/-! ## The stream field -/

theorem streamField_zeros (t : BitVec 1) (strm : BitVec 2) : (streamField t strm).extractLsb' 2 2 = 0 := by
  revert t strm; decide

theorem streamField_strm (t : BitVec 1) (strm : BitVec 2) : (streamField t strm).extractLsb' 0 2 = strm := by
  revert t strm; decide

theorem streamField_flag (t : BitVec 1) (strm : BitVec 2) : (streamField t strm).getLsbD 4 = t.getLsbD 0 := by
  revert t strm; decide

end Sys2Proof
end

