-- ==== Sys2Proof/Laws/Exec.lean ====
section
/-! SUPPORT. What an instruction can do, over all instructions: with MSR[VEC] = 0 it takes the interrupt if it needs the
facility; with MSR[VEC] = 1 it writes a vector, VSCR, or memory. -/

namespace Sys2Proof.Machine

/-- An instruction that needs the vector facility takes the interrupt without it (R500). -/
theorem exec_off {s : State} {i : Instr} (hn : needsVector i = true) (hv : s.vecEnabled = false) :
    exec i s = .next s.takeUnavailable := by
  cases i
  case vsl => exact (by show execVsl _ _ _ s = _; unfold execVsl shiftWhole; split <;> exact whenAvailable_off hv _)
  case vsr => exact (by show execVsr _ _ _ s = _; unfold execVsr shiftWhole; split <;> exact whenAvailable_off hv _)
  case dst => cases hn
  case dstt => cases hn
  case dstst => cases hn
  case dststt => cases hn
  case dss => cases hn
  case dssall => cases hn
  case mfspr => cases hn
  case mtspr => cases hn
  all_goals exact whenAvailable_off hv _

/-- What every instruction with a vector destination does: it writes one vector register, CR6 at most, SAT at most, may
draw a free value, and advances pc. -/
structure VectorWrite (s t : State) : Prop where
  shape : t = { s with vr := t.vr, cr := t.cr, vscr := t.vscr, draws := t.draws, pc := s.pc + 4 }
  dest : ∃ vD, othersKept s t vD
  cr : t.cr = s.cr ∨ ∃ f, t.cr = (s.setCr6 f).cr
  vscr : t.vscr = s.vscr ∨ t.vscr = s.vscr ||| bitMask 31

theorem othersKept_setVreg (s : State) (vD : VReg) (v : Vec) : othersKept s (s.setVreg vD v) vD := fun _ hr =>
  State.setVreg_vreg_ne s vD _ v hr

/-- What a store does: `n` bytes of memory are written at an address, and pc advances. -/
def StoreWrite (i : Instr) (s t : State) : Prop :=
  ∃ (n : Nat) (a : Word) (x : BitVec (8 * n)) (v : VReg) (rA rB : GReg), t = (s.memWrite a n x).advance ∧
    ((i = .stvebx v rA rB ∧ n = 1 ∧ a = elementAddress s.littleEndian 1 (alignTo 1 (s.ea rA rB))) ∨
      (i = .stvehx v rA rB ∧ n = 2 ∧ a = elementAddress s.littleEndian 2 (alignTo 2 (s.ea rA rB))) ∨
      (i = .stvewx v rA rB ∧ n = 4 ∧ a = elementAddress s.littleEndian 4 (alignTo 4 (s.ea rA rB))) ∨
      ((i = .stvx v rA rB ∨ i = .stvxl v rA rB) ∧ n = 16 ∧ a = alignTo 16 (s.ea rA rB)))

theorem result_vectorWrite {s t : State} {vD : VReg} {v : Vec} (hv : s.vecEnabled = true)
    (h : result s vD v = .next t) : VectorWrite s t := by
  rw [result_on hv] at h
  cases h
  exact ⟨rfl, ⟨vD, othersKept_setVreg s vD v⟩, .inl rfl, .inl rfl⟩

theorem resultDrawn_vectorWrite {s t : State} {vD : VReg} {v : Vec} (hv : s.vecEnabled = true)
    (h : resultDrawn s vD v = .next t) : VectorWrite s t := by
  rw [resultDrawn_on hv] at h
  cases h
  exact ⟨rfl, ⟨vD, othersKept_setVreg s vD v⟩, .inl rfl, .inl rfl⟩

theorem resultSat_vectorWrite {s t : State} {vD : VReg} {v : Vec × Bool} (hv : s.vecEnabled = true)
    (h : resultSat s vD v = .next t) : VectorWrite s t := by
  obtain ⟨v, b⟩ := v
  rw [resultSat_on hv] at h
  cases h
  cases b
  · exact ⟨rfl, ⟨vD, othersKept_setVreg s vD v⟩, .inl rfl, .inl rfl⟩
  · exact ⟨rfl, ⟨vD, othersKept_setVreg s vD v⟩, .inl rfl, .inr rfl⟩

theorem resultCompare_vectorWrite {s t : State} {vD : VReg} {rc : Bool} {v : Vec} {f : BitVec 4}
    (hv : s.vecEnabled = true) (h : resultCompare s vD rc v f = .next t) : VectorWrite s t := by
  rw [resultCompare_on hv] at h
  cases h
  cases rc
  · exact ⟨rfl, ⟨vD, othersKept_setVreg s vD v⟩, .inl rfl, .inl rfl⟩
  · exact ⟨rfl, ⟨vD, othersKept_setVreg s vD v⟩, .inr ⟨f, rfl⟩, .inl rfl⟩

theorem loadElement_vectorWrite {s t : State} {n : Nat} {vD : VReg} {rA rB : GReg} (hv : s.vecEnabled = true)
    (h : loadElement n vD rA rB s = .next t) : VectorWrite s t := by
  cases (withAccess_next ((whenAvailable_on hv _).symm.trans h)).2.2
  exact ⟨rfl, ⟨vD, othersKept_setVreg s vD _⟩, .inl rfl, .inl rfl⟩

theorem loadQuad_vectorWrite {s t : State} {vD : VReg} {rA rB : GReg} (hv : s.vecEnabled = true)
    (h : loadQuad vD rA rB s = .next t) : VectorWrite s t := by
  cases (withAccess_next ((whenAvailable_on hv _).symm.trans h)).2.2
  exact ⟨rfl, ⟨vD, othersKept_setVreg s vD _⟩, .inl rfl, .inl rfl⟩

/-- A store that completes writes its bytes. -/
theorem store_next {s t : State} {ea a : Word} {n : Nat} {x : BitVec (8 * n)} (hv : s.vecEnabled = true)
    (h : whenAvailable s (withAccess s ea n true s (.next (s.memWrite a n x).advance)) = .next t) :
    t = (s.memWrite a n x).advance := by
  cases (withAccess_next ((whenAvailable_on hv _).symm.trans h)).2.2
  rfl

/-- What an instruction that needs the vector facility can do with it. -/
theorem exec_on_cases {s t : State} {i : Instr} (hv : s.vecEnabled = true) (hn : needsVector i = true)
    (h : exec i s = .next t) :
    VectorWrite s t ∨ (∃ vB, i = .mtvscr vB ∧ t = (s.writeVscr (word (s.vreg vB) 3)).advance) ∨ StoreWrite i s t := by
  cases i
  case mtvscr => exact .inr (.inl ⟨_, rfl, by cases (whenAvailable_on hv _).symm.trans h; rfl⟩)
  case dst => cases hn
  case dstt => cases hn
  case dstst => cases hn
  case dststt => cases hn
  case dss => cases hn
  case dssall => cases hn
  case mfspr => cases hn
  case mtspr => cases hn
  case vsl =>
    change execVsl _ _ _ s = _ at h
    unfold execVsl shiftWhole at h
    split at h
    · exact .inl (result_vectorWrite hv h)
    · exact .inl (resultDrawn_vectorWrite hv h)
  case vsr =>
    change execVsr _ _ _ s = _ at h
    unfold execVsr shiftWhole at h
    split at h
    · exact .inl (result_vectorWrite hv h)
    · exact .inl (resultDrawn_vectorWrite hv h)
  case stvebx => exact .inr (.inr ⟨1, _, _, _, _, _, store_next hv h, .inl ⟨rfl, rfl, rfl⟩⟩)
  case stvehx => exact .inr (.inr ⟨2, _, _, _, _, _, store_next hv h, .inr (.inl ⟨rfl, rfl, rfl⟩)⟩)
  case stvewx => exact .inr (.inr ⟨4, _, _, _, _, _, store_next hv h, .inr (.inr (.inl ⟨rfl, rfl, rfl⟩))⟩)
  case stvx => exact .inr (.inr ⟨16, _, _, _, _, _, store_next hv h, .inr (.inr (.inr ⟨.inl rfl, rfl, rfl⟩))⟩)
  case stvxl => exact .inr (.inr ⟨16, _, _, _, _, _, store_next hv h, .inr (.inr (.inr ⟨.inr rfl, rfl, rfl⟩))⟩)
  all_goals left
  all_goals first
    | exact result_vectorWrite hv h
    | exact resultSat_vectorWrite hv h
    | exact resultCompare_vectorWrite hv h
    | exact resultDrawn_vectorWrite hv h
    | exact loadElement_vectorWrite hv h
    | exact loadQuad_vectorWrite hv h

/-- What a stream instruction does to the stream table: nothing, the table without the facility; else one slot emptied
or given the stream a touch describes, or every slot emptied. -/
def StreamChange (s t : State) : Prop :=
  t.streams = s.streams ∨ (s.cfg.streamsImplemented = true ∧
    (t.streams = Vector.replicate 4 none ∨ ∃ tag st, t.streams = (s.setStream tag st).streams ∧
      (st = none ∨ ∃ transient forStore rA rB, st = some (s.newStream transient forStore rA rB))))

theorem streamTouch_next {s t : State} {tr fs : Bool} {strm : BitVec 2} {rA rB : GReg}
    (h : streamTouch s tr fs strm rA rB = .next t) :
    t = { s with pc := s.pc + 4, streams := t.streams } ∧ StreamChange s t := by
  unfold streamTouch at h
  split at h
  · cases h
    exact ⟨rfl, .inl rfl⟩
  · next hs =>
    split at h
    · cases h
    · split at h
      · cases h
      · cases h
        exact ⟨rfl, .inr ⟨by simpa using hs, .inr ⟨strm, _, rfl, .inr ⟨tr, fs, rA, rB, rfl⟩⟩⟩⟩

/-- What an instruction that does not need the vector facility can do. -/
theorem exec_plain_cases {s t : State} {i : Instr} (hn : needsVector i = false) (h : exec i s = .next t) :
    (t = { s with pc := s.pc + 4, streams := t.streams } ∧ StreamChange s t) ∨
      (∃ r, i = .mfspr r ∧ t = (s.setGreg r s.vrsave).advance) ∨
      ∃ r, i = .mtspr r ∧ t = { s.advance with vrsave := s.greg r } := by
  cases i
  case dst => exact .inl (streamTouch_next h)
  case dstt => exact .inl (streamTouch_next h)
  case dstst => exact .inl (streamTouch_next h)
  case dststt => exact .inl (streamTouch_next h)
  case dss strm =>
    left
    change Host.Outcome.next _ = _ at h
    cases hs : s.cfg.streamsImplemented <;> rw [hs] at h <;> cases h
    · exact ⟨rfl, .inl rfl⟩
    · exact ⟨rfl, .inr ⟨hs, .inr ⟨strm, none, rfl, .inl rfl⟩⟩⟩
  case dssall =>
    left
    change Host.Outcome.next _ = _ at h
    cases hs : s.cfg.streamsImplemented <;> rw [hs] at h <;> cases h
    · exact ⟨rfl, .inl rfl⟩
    · exact ⟨rfl, .inr ⟨hs, .inl rfl⟩⟩
  case mfspr => exact .inr (.inl ⟨_, rfl, by cases h; rfl⟩)
  case mtspr => exact .inr (.inr ⟨_, rfl, by cases h; rfl⟩)
  all_goals cases hn

/-! ## Streams -/

/-- Every unit touches a cache block (R471). -/
theorem Stream.blocksInUnit_pos (st : Stream) (k : Nat) (h : 1 ≤ st.size) : 0 < st.blocksInUnit k := by
  unfold Stream.blocksInUnit
  apply Nat.div_pos _ (by positivity)
  have := Nat.one_le_two_pow (n := k)
  omega

/-- A stream that a touch starts is within the ranges of R463. -/
theorem State.newStream_legal (s : State) (t f : Bool) (a b : GReg) (k : Nat) : (s.newStream t f a b).legal k = true := by
  have h1 : 1 ≤ descriptorSize (s.greg b) ∧ descriptorSize (s.greg b) ≤ 32 := by
    unfold descriptorSize; generalize field _ _ _ = x
    split
    · simp
    · next h => have := x.isLt; have : x.toNat ≠ 0 := fun e => h (BitVec.eq_of_toNat_eq e); omega
  have h2 : 1 ≤ descriptorCount (s.greg b) ∧ descriptorCount (s.greg b) ≤ 256 := by
    unfold descriptorCount; generalize field _ _ _ = x
    split
    · simp
    · next h => have := x.isLt; have : x.toNat ≠ 0 := fun e => h (BitVec.eq_of_toNat_eq e); omega
  have h3 : -32768 ≤ descriptorStride (s.greg b) ∧ descriptorStride (s.greg b) ≤ 32768 ∧
      descriptorStride (s.greg b) ≠ 0 := by
    unfold descriptorStride; generalize field _ _ _ = x
    split
    · simp
    · next h =>
      have h1 := BitVec.toInt_lt (x := x)
      have h2 := BitVec.le_toInt (x := x)
      have : x.toInt ≠ 0 := fun e => h (BitVec.eq_of_toInt_eq e)
      norm_num at h1 h2; omega
  have := Stream.blocksInUnit_pos (s.newStream t f a b) k h1.1
  unfold Stream.legal
  simp only [Bool.and_eq_true, decide_eq_true_eq]
  refine ⟨⟨⟨⟨⟨⟨⟨⟨h1.1, h1.2⟩, h2.1⟩, h2.2⟩, h3.1⟩, h3.2.1⟩, h3.2.2⟩, ?_⟩, this⟩
  exact h2.1

/-- A stream stays legal as it advances (R471). -/
theorem Stream.next_legal {st st' : Stream} {k : Nat} (h : st.legal k = true) (e : st.next k = some st') :
    st'.legal k = true := by
  unfold Stream.legal at h
  simp only [Bool.and_eq_true, decide_eq_true_eq] at h
  obtain ⟨⟨⟨⟨⟨⟨⟨⟨h1, h2⟩, h3⟩, h4⟩, h5⟩, h6⟩, h7⟩, h8⟩, h9⟩ := h
  unfold Stream.next at e
  split at e
  · cases e
    unfold Stream.legal
    simp only [Bool.and_eq_true, decide_eq_true_eq]
    exact ⟨⟨⟨⟨⟨⟨⟨⟨h1, h2⟩, h3⟩, h4⟩, h5⟩, h6⟩, h7⟩, h8⟩, by assumption⟩
  · split at e
    · cases e
      unfold Stream.legal
      simp only [Bool.and_eq_true, decide_eq_true_eq]
      exact ⟨⟨⟨⟨⟨⟨⟨⟨h1, h2⟩, h3⟩, h4⟩, h5⟩, h6⟩, h7⟩, by assumption⟩, Stream.blocksInUnit_pos _ _ h1⟩
    · cases e

end Sys2Proof.Machine
end

