-- ==== Sys2Proof/Laws/Fp.lean ====
section
/-! SUPPORT. Single-precision numbers: what the fields of a word are, and that `roundFp` rounds as R343 and R348 say. -/

namespace Sys2Proof.Machine

/-! ## Fields -/

theorem fpFrac_eq (x : Word) : fpFrac x = x.toNat % 2 ^ 23 := by simp [fpFrac]

theorem fpExp_eq (x : Word) : fpExp x = x.toNat / 2 ^ 23 % 2 ^ 8 := by
  simp [fpExp, Nat.shiftRight_eq_div_pow]

theorem fpSign_eq (x : Word) : fpSign x = decide (2 ^ 31 ≤ x.toNat) := by
  have h := x.isLt
  have : fpSign x = x.msb := by simp [fpSign, BitVec.msb_eq_getLsbD_last]
  rw [this, BitVec.msb_eq_decide]

/-- The magnitude in units of 2^-149 of the word whose low 31 bits are `m` (R340). -/
def magnitude (m : Nat) : Nat := if m / 2 ^ 23 = 0 then m else (2 ^ 23 + m % 2 ^ 23) * 2 ^ (m / 2 ^ 23 - 1)

theorem fpMag_eq (x : Word) : fpMag x = magnitude (x.toNat % 2 ^ 31) := by
  have h1 : x.toNat / 2 ^ 23 % 2 ^ 8 = x.toNat % 2 ^ 31 / 2 ^ 23 := by omega
  have h2 : x.toNat % 2 ^ 31 % 2 ^ 23 = x.toNat % 2 ^ 23 := by omega
  unfold fpMag magnitude
  rw [fpExp_eq, fpFrac_eq, h1, h2]
  split
  · omega
  · rfl

theorem withSign_toNat (s : Bool) (x : Word) (h : x.toNat < 2 ^ 31) :
    (withSign s x).toNat = x.toNat + if s then 2 ^ 31 else 0 := by
  cases s
  · rfl
  · have e : x ||| signMask = x + signMask := by
      have : x &&& signMask = 0 := by
        apply BitVec.eq_of_getLsbD_eq
        intro i hi
        have hs : signMask.getLsbD i = decide (i = 31) := by
          unfold signMask
          revert hi i
          decide
        rw [BitVec.getLsbD_and, hs]
        by_cases hi31 : i = 31
        · subst hi31
          have : x.getLsbD 31 = fpSign x := rfl
          rw [this, fpSign_eq]
          simp
          omega
        · simp [hi31]
      exact (BitVec.add_eq_or_of_and_eq_zero _ _ this).symm
    have hm : signMask.toNat = 2 ^ 31 := rfl
    rw [withSign, if_pos rfl, e, BitVec.toNat_add, hm, if_pos rfl]
    omega

/-- The value in terms of the magnitude. -/
theorem fpValue_eq (x : Word) : fpValue x = (if fpSign x then -1 else 1) * (fpMag x : ℚ) / 2 ^ 149 := by
  unfold fpValue fpMag
  rw [mul_div_assoc]
  congr 1
  by_cases h : fpExp x = 0
  · simp only [h, if_true]
    rw [zpow_neg, div_eq_mul_inv]
    norm_num
  · simp only [h, if_false]
    have e : ((fpExp x : ℤ) - 150) = ((fpExp x - 1 : ℕ) : ℤ) - 149 := by omega
    rw [e, zpow_sub₀ (by norm_num), zpow_natCast]
    push_cast
    rw [mul_div_assoc]
    norm_num

theorem fpValue_eq_fpVal (x : Word) : fpValue x = (fpVal x : ℚ) / 2 ^ 149 := by
  rw [fpValue_eq, fpVal]
  split <;> push_cast <;> ring

/-! ## Rounding to an integer -/

/-- The nearest integer is at most half a unit away, and even when it is exactly half a unit away. -/
theorem roundNearest_spec (num : Nat) {den : Nat} (hd : 0 < den) :
    (2 * (roundNearest num den * den) ≤ 2 * num + den ∧ 2 * num ≤ 2 * (roundNearest num den * den) + den) ∧
      ((2 * (roundNearest num den * den) = 2 * num + den ∨ 2 * num = 2 * (roundNearest num den * den) + den) →
        roundNearest num den % 2 = 0) := by
  have h1 := Nat.div_add_mod num den
  have h2 := Nat.mod_lt num hd
  rw [Nat.mul_comm] at h1
  unfold roundNearest
  simp only
  generalize num / den = q at *
  generalize num % den = r at *
  split
  · next h =>
    have e : (q + 1) * den = q * den + den := by ring
    refine ⟨⟨by omega, by omega⟩, fun h3 => ?_⟩
    omega
  · next h =>
    refine ⟨⟨by omega, by omega⟩, fun h3 => ?_⟩
    omega

/-- No multiple of the unit is nearer, and one that is as near leaves an even result. -/
theorem roundNearest_nearest (num : Nat) {den : Nat} (hd : 0 < den) (z : Nat) :
    |((roundNearest num den * den : Nat) : ℤ) - num| ≤ |((z * den : Nat) : ℤ) - num| ∧
      (z ≠ roundNearest num den →
        |((z * den : Nat) : ℤ) - num| = |((roundNearest num den * den : Nat) : ℤ) - num| →
        roundNearest num den % 2 = 0) := by
  obtain ⟨⟨h1, h2⟩, h3⟩ := roundNearest_spec num hd
  generalize roundNearest num den = q at *
  have key : z = q ∨ z * den + den ≤ q * den ∨ q * den + den ≤ z * den := by
    rcases Nat.lt_trichotomy z q with h | h | h
    · right; left
      have := Nat.mul_le_mul_right den h
      rw [Nat.succ_mul] at this; exact this
    · exact .inl h
    · right; right
      have := Nat.mul_le_mul_right den h
      rw [Nat.succ_mul] at this; exact this
  rcases key with h | h
  · subst h; exact ⟨le_rfl, fun h => absurd rfl h⟩
  · generalize q * den = a at *
    generalize z * den = b at *
    rcases abs_cases ((a : ℤ) - num) with ⟨ha, ha'⟩ | ⟨ha, ha'⟩ <;>
      rcases abs_cases ((b : ℤ) - num) with ⟨hb, hb'⟩ | ⟨hb, hb'⟩ <;> rw [ha, hb] <;>
      exact ⟨by omega, fun _ he => h3 (by omega)⟩

/-! ## Words made from a scale and a significand -/

theorem magnitude_scaled {k q : Nat} (h : (k = 0 ∧ q ≤ 2 ^ 23) ∨ (2 ^ 23 ≤ q ∧ q ≤ 2 ^ 24)) :
    magnitude (k * 2 ^ 23 + q) = q * 2 ^ k := by
  unfold magnitude
  rcases h with ⟨rfl, h⟩ | ⟨h1, h2⟩
  · rcases Nat.lt_or_ge q (2 ^ 23) with hq | hq
    · rw [if_pos (by omega)]; simp
    · have e1 : (0 * 2 ^ 23 + q) / 2 ^ 23 = 1 := by omega
      have e2 : (0 * 2 ^ 23 + q) % 2 ^ 23 = 0 := by omega
      rw [e1, e2, if_neg (by omega)]
      omega
  · rcases Nat.lt_or_ge q (2 ^ 24) with hq | hq
    · have e1 : (k * 2 ^ 23 + q) / 2 ^ 23 = k + 1 := by omega
      have e2 : (k * 2 ^ 23 + q) % 2 ^ 23 = q - 2 ^ 23 := by omega
      rw [e1, e2, if_neg (by omega), show 2 ^ 23 + (q - 2 ^ 23) = q by omega, Nat.add_sub_cancel]
    · have e : q = 2 ^ 24 := by omega
      have e1 : (k * 2 ^ 23 + q) / 2 ^ 23 = k + 2 := by omega
      have e2 : (k * 2 ^ 23 + q) % 2 ^ 23 = 0 := by omega
      have e3 : 2 ^ (k + 2 - 1) = 2 * 2 ^ k := by rw [show k + 2 - 1 = k + 1 by omega, pow_succ]; ring
      rw [e1, e2, if_neg (by omega), e3]
      generalize 2 ^ k = p
      subst e
      omega

/-- A magnitude is a multiple of 2^k or below 2^(23 + k). -/
theorem magnitude_grid (k m : Nat) : (∃ z, magnitude m = z * 2 ^ k) ∨ magnitude m < 2 ^ 23 * 2 ^ k := by
  unfold magnitude
  have hk : 1 ≤ 2 ^ k := Nat.one_le_two_pow
  split
  · next h =>
    right
    have : m < 2 ^ 23 := by omega
    calc m < 2 ^ 23 * 1 := by omega
      _ ≤ 2 ^ 23 * 2 ^ k := Nat.mul_le_mul_left _ hk
  · next h =>
    rcases Nat.lt_or_ge k (m / 2 ^ 23) with h1 | h1
    · left
      refine ⟨(2 ^ 23 + m % 2 ^ 23) * 2 ^ (m / 2 ^ 23 - 1 - k), ?_⟩
      rw [mul_assoc, ← pow_add]
      congr 2
      omega
    · right
      have hlt : 2 ^ 23 + m % 2 ^ 23 < 2 ^ 24 := by omega
      calc (2 ^ 23 + m % 2 ^ 23) * 2 ^ (m / 2 ^ 23 - 1) < 2 ^ 24 * 2 ^ (m / 2 ^ 23 - 1) :=
            Nat.mul_lt_mul_of_pos_right hlt (Nat.two_pow_pos _)
        _ = 2 ^ 23 * 2 ^ (m / 2 ^ 23 - 1 + 1) := by rw [pow_succ]; ring
        _ ≤ 2 ^ 23 * 2 ^ k := Nat.mul_le_mul_left _ (Nat.pow_le_pow_right (by omega) (by omega))

/-! ## `ROUND` (R348) -/

/-- The nearest number on the grid of a scale is nearest among all magnitudes, when the exact value `num / den` is at
least the smallest value of 24 significant bits on that grid, or the grid is that of the denormalized numbers. -/
theorem magnitude_nearest {num den k : Nat} (hd : 0 < den)
    (hk : k = 0 ∨ 2 ^ 23 * 2 ^ k * den ≤ num) (m : Nat) :
    |((roundNearest num (den * 2 ^ k) * 2 ^ k * den : Nat) : ℤ) - num| ≤ |((magnitude m * den : Nat) : ℤ) - num| ∧
      (magnitude m ≠ roundNearest num (den * 2 ^ k) * 2 ^ k →
        |((magnitude m * den : Nat) : ℤ) - num| = |((roundNearest num (den * 2 ^ k) * 2 ^ k * den : Nat) : ℤ) - num| →
        roundNearest num (den * 2 ^ k) % 2 = 0) := by
  have hdk : 0 < den * 2 ^ k := Nat.mul_pos hd (Nat.two_pow_pos k)
  have hq := roundNearest_nearest num hdk
  generalize roundNearest num (den * 2 ^ k) = q at *
  have swap : ∀ z, z * (den * 2 ^ k) = z * 2 ^ k * den := fun z => by ring
  simp only [swap] at hq
  have grid : (∃ z, magnitude m = z * 2 ^ k) ∨ (2 ^ 23 * 2 ^ k * den ≤ num ∧ magnitude m < 2 ^ 23 * 2 ^ k) := by
    rcases hk with rfl | hk
    · exact .inl ⟨magnitude m, by simp⟩
    · rcases magnitude_grid k m with h | h
      · exact .inl h
      · exact .inr ⟨hk, h⟩
  rcases grid with ⟨z, hz⟩ | ⟨h1, h2⟩
  · rw [hz]
    refine ⟨(hq z).1, fun hne he => (hq z).2 (fun h => hne (by rw [h])) he⟩
  · have h3 := (hq (2 ^ 23)).1
    have h4 : magnitude m * den < 2 ^ 23 * 2 ^ k * den := Nat.mul_lt_mul_of_pos_right h2 hd
    generalize magnitude m * den = y at *
    generalize 2 ^ 23 * 2 ^ k * den = b at *
    generalize q * 2 ^ k * den = a at *
    have hy : |(y : ℤ) - num| = num - y := by rw [abs_sub_comm, abs_of_nonneg]; omega
    have hb : |(b : ℤ) - num| = num - b := by rw [abs_sub_comm, abs_of_nonneg]; omega
    rw [hb] at h3
    rw [hy]
    exact ⟨by omega, fun _ he => by omega⟩

/-- The word of scale `k` and significand `q`, given a sign, is nearest to the value of that sign. -/
theorem nearestTo_scaled {num den k q : Nat} (s : Bool) (hn : 0 < num) (hd : 0 < den)
    (hq : q = roundNearest num (den * 2 ^ k)) (hk : k = 0 ∨ 2 ^ 23 * 2 ^ k * den ≤ num)
    (hs : (k = 0 ∧ q ≤ 2 ^ 23) ∨ (2 ^ 23 ≤ q ∧ q ≤ 2 ^ 24)) (hw : k * 2 ^ 23 + q < 0x7F800000) :
    NearestTo ((if s then -1 else 1) * ((num : ℚ) / den) / 2 ^ 149)
      (withSign s (BitVec.ofNat 32 (k * 2 ^ 23 + q))) := by
  have hdq : (0 : ℚ) < den := by exact_mod_cast hd
  have hnq : (0 : ℚ) < num := by exact_mod_cast hn
  have e0 : (BitVec.ofNat 32 (k * 2 ^ 23 + q)).toNat = k * 2 ^ 23 + q := by
    rw [BitVec.toNat_ofNat]; omega
  have e1 : (withSign s (BitVec.ofNat 32 (k * 2 ^ 23 + q))).toNat = k * 2 ^ 23 + q + if s then 2 ^ 31 else 0 := by
    rw [withSign_toNat _ _ (by omega), e0]
  generalize hr : withSign s (BitVec.ofNat 32 (k * 2 ^ 23 + q)) = r at *
  have hsign : fpSign r = s := by
    rw [fpSign_eq, e1]; cases s <;> simp; omega
  have hmag : fpMag r = q * 2 ^ k := by
    rw [fpMag_eq, e1]
    have : (k * 2 ^ 23 + q + if s then 2 ^ 31 else 0) % 2 ^ 31 = k * 2 ^ 23 + q := by cases s <;> simp <;> omega
    rw [this, magnitude_scaled hs]
  have hfrac : fpFrac r % 2 = q % 2 := by
    rw [fpFrac_eq, e1]; cases s <;> simp; omega
  -- the distance of any number, in units of 2^-149 / den
  have dist : ∀ y : Word, |fpValue y - (if s then -1 else 1) * ((num : ℚ) / den) / 2 ^ 149| * (2 ^ 149 * den) =
      |(((if fpSign y = s then 1 else -1) * ((fpMag y * den : Nat) : ℤ) - num : ℤ) : ℚ)| := by
    intro y
    have hpos : (0 : ℚ) < 2 ^ 149 * den := by positivity
    rw [← abs_of_pos hpos, ← abs_mul, fpValue_eq]
    cases s <;> cases fpSign y <;> simp only [if_true, if_false, Bool.false_eq_true, Bool.true_eq_false]
    · congr 1; push_cast; field_simp
    · congr 1; push_cast; field_simp
    · rw [← abs_neg]; congr 1; push_cast; field_simp; ring
    · rw [← abs_neg]; congr 1; push_cast; field_simp; ring
  have hpos : (0 : ℚ) < 2 ^ 149 * den := by positivity
  have distr : (((if fpSign r = s then 1 else -1) * ((fpMag r * den : Nat) : ℤ) - num : ℤ)) =
      ((q * 2 ^ k * den : Nat) : ℤ) - num := by rw [hsign, hmag]; simp
  constructor
  · unfold isFinite
    rw [fpExp_eq, e1]
    cases s <;> simp <;> omega
  · rw [hsign]
    cases s
    · have : ¬ ((1 : ℚ) * (num / den) / 2 ^ 149 < 0) := not_lt.2 (by positivity)
      simp only [Bool.false_eq_true, if_false, this, decide_false]
    · have : (-1 : ℚ) * (num / den) / 2 ^ 149 < 0 := by
        have : (0 : ℚ) < num / den / 2 ^ 149 := by positivity
        rw [neg_one_mul, neg_div]; linarith
      simp only [if_true, this, decide_true]
  · intro y _
    rw [← mul_le_mul_iff_of_pos_right hpos, dist, dist, distr]
    have h := (magnitude_nearest hd hk (y.toNat % 2 ^ 31)).1
    rw [← hq, ← fpMag_eq] at h
    generalize q * 2 ^ k * den = a at *
    generalize fpMag y * den = b at *
    have h' : |((a : ℕ) : ℤ) - num| ≤ |(if fpSign y = s then 1 else -1) * (b : ℤ) - num| := by
      split
      · rw [one_mul]; exact h
      · rcases abs_cases ((b : ℤ) - num) with ⟨h2, h3⟩ | ⟨h2, h3⟩ <;>
          rcases abs_cases ((-1) * (b : ℤ) - num) with ⟨h4, h5⟩ | ⟨h4, h5⟩ <;> omega
    exact_mod_cast h'
  · intro y _ hne he
    rw [hfrac]
    have he' := congrArg (· * ((2 : ℚ) ^ 149 * den)) he
    simp only [dist, distr] at he'
    have he2 : |(if fpSign y = s then 1 else -1) * ((fpMag y * den : Nat) : ℤ) - num| =
        |((q * 2 ^ k * den : Nat) : ℤ) - num| := by exact_mod_cast he'
    obtain ⟨h, h'⟩ := magnitude_nearest hd hk (y.toNat % 2 ^ 31)
    rw [← hq, ← fpMag_eq] at h h'
    have hmn : fpMag y ≠ q * 2 ^ k ∧ |((fpMag y * den : Nat) : ℤ) - num| = |((q * 2 ^ k * den : Nat) : ℤ) - num| := by
      by_cases hsy : fpSign y = s
      · rw [if_pos hsy, one_mul] at he2
        refine ⟨fun hm => hne ?_, he2⟩
        rw [fpValue_eq, fpValue_eq, hsy, hsign, hm, hmag]
      · rw [if_neg hsy] at he2
        have hz : fpMag y * den = 0 := by
          generalize q * 2 ^ k * den = a at *
          generalize fpMag y * den = b at *
          rcases abs_cases ((b : ℤ) - num) with ⟨h2, h3⟩ | ⟨h2, h3⟩ <;>
            rcases abs_cases ((-1) * (b : ℤ) - num) with ⟨h4, h5⟩ | ⟨h4, h5⟩ <;> omega
        have hz' : fpMag y = 0 := by
          rcases Nat.mul_eq_zero.1 hz with h0 | h0
          · exact h0
          · omega
        rw [hz] at he2 ⊢
        refine ⟨fun hm => hne ?_, by simpa using he2⟩
        rw [fpValue_eq, fpValue_eq, hz', hmag, ← hm, hz']
        simp
    exact h' hmn.1 hmn.2

/-- The magnitude of the value of a sign. -/
theorem abs_signed (s : Bool) {a : ℚ} (h : 0 ≤ a) : |(if s then -1 else 1) * a / 2 ^ 149| = a / 2 ^ 149 := by
  rw [abs_div, abs_mul, abs_of_nonneg h]
  cases s <;> simp

theorem signed_neg_iff (s : Bool) {a : ℚ} (h : 0 < a) : (if s then -1 else 1) * a / 2 ^ 149 < 0 ↔ s = true := by
  have : 0 < a / 2 ^ 149 := by positivity
  cases s
  · simp only [Bool.false_eq_true, if_false, one_mul, iff_false, not_lt]; exact this.le
  · simp only [if_true, neg_one_mul, neg_div, iff_true]; linarith

/-- `roundFp` is `ROUND` of the value of sign `s` and magnitude `num / den` units of 2^-149. -/
theorem roundFp_rounded (nj s : Bool) {num den : Nat} (hn : 0 < num) (hd : 0 < den) :
    Rounded nj ((if s then -1 else 1) * ((num : ℚ) / den) / 2 ^ 149) (roundFp nj s num den) := by
  have hdq : (0 : ℚ) < den := by exact_mod_cast hd
  have hnq : (0 : ℚ) < num := by exact_mod_cast hn
  have hpos : (0 : ℚ) < num / den := by positivity
  unfold Rounded
  simp only [abs_signed s hpos.le, signed_neg_iff s hpos]
  have hinf : withSign s 0x7F800000 = if s = true then 0xFF800000 else 0x7F800000 := by cases s <;> rfl
  have hzero : withSign s 0 = if s = true then 0x80000000 else 0 := by cases s <;> rfl
  have tiny : (num : ℚ) / den / 2 ^ 149 < 2 ^ (-126 : ℤ) ↔ num / den < 2 ^ 23 := by
    rw [div_div, div_lt_iff₀ (by positivity), zpow_neg, Nat.div_lt_iff_lt_mul hd]
    have e : (2 ^ (126 : ℤ) : ℚ)⁻¹ * (den * 2 ^ 149) = ((2 ^ 23 * den : Nat) : ℚ) := by push_cast; norm_num; ring
    rw [e]; norm_cast
  have huge : (2 : ℚ) ^ 128 - 2 ^ 103 ≤ num / den / 2 ^ 149 ↔ (2 ^ 25 - 1) * 2 ^ 252 * den ≤ num := by
    rw [div_div, le_div_iff₀ (by positivity)]
    have e : ((2 : ℚ) ^ 128 - 2 ^ 103) * (den * 2 ^ 149) = (((2 ^ 25 - 1) * 2 ^ 252 * den : Nat) : ℚ) := by
      push_cast; norm_num; ring
    rw [e]; norm_cast
  unfold roundFp roundMag
  by_cases hu : num / den < 2 ^ 23
  · have hsmall : ¬ (2 : ℚ) ^ 128 - 2 ^ 103 ≤ num / den / 2 ^ 149 := by
      rw [huge]
      rw [Nat.div_lt_iff_lt_mul hd] at hu
      have : 2 ^ 23 * den ≤ (2 ^ 25 - 1) * 2 ^ 252 * den := Nat.mul_le_mul_right den (by norm_num)
      omega
    rw [if_neg hsmall, if_pos hu]
    simp only [tiny, hu, and_true]
    cases nj
    · simp only [Bool.false_eq_true, if_false]
      have hq : roundNearest num den ≤ 2 ^ 23 := by
        obtain ⟨⟨h1, h2⟩, _⟩ := roundNearest_spec num hd
        rw [Nat.div_lt_iff_lt_mul hd] at hu
        by_contra hc
        have : (2 ^ 23 + 1) * den ≤ roundNearest num den * den := Nat.mul_le_mul_right den (by omega)
        omega
      have h := nearestTo_scaled (k := 0) (q := roundNearest num den) s hn hd (by simp) (.inl rfl) (.inl ⟨rfl, hq⟩)
        (by omega)
      rwa [Nat.zero_mul, Nat.zero_add] at h
    · simp only [if_true]; exact hzero
  · rw [if_neg hu]
    simp only [tiny, hu, and_false, if_false]
    have hm0 : num / den ≠ 0 := by omega
    have hk1 : 2 ^ (num / den).log2 ≤ num / den := Nat.log2_self_le hm0
    have hk2 : num / den < 2 ^ ((num / den).log2 + 1) := Nat.lt_log2_self
    have hk3 : 23 ≤ (num / den).log2 := (Nat.le_log2 hm0).2 (by omega)
    obtain ⟨k, hk⟩ : ∃ k, (num / den).log2 = 23 + k := ⟨(num / den).log2 - 23, by omega⟩
    rw [hk] at hk1 hk2
    have ek : (num / den).log2 - 23 = k := by omega
    simp only [ek]
    rw [pow_add, Nat.le_div_iff_mul_le hd] at hk1
    rw [show 23 + k + 1 = 24 + k by omega, pow_add, Nat.div_lt_iff_lt_mul hd] at hk2
    have hdk : 0 < den * 2 ^ k := Nat.mul_pos hd (Nat.two_pow_pos k)
    obtain ⟨⟨h1, h2⟩, h3⟩ := roundNearest_spec num hdk
    generalize hq : roundNearest num (den * 2 ^ k) = q at *
    have hu : den * 2 ^ k = 2 ^ k * den := Nat.mul_comm _ _
    rw [hu] at h1 h2 h3 hdk
    rw [mul_assoc] at hk1 hk2
    have hq1 : 2 ^ 23 ≤ q := by
      by_contra hc
      have : q * (2 ^ k * den) ≤ (2 ^ 23 - 1) * (2 ^ k * den) := Nat.mul_le_mul_right _ (by omega)
      omega
    have hq2 : q ≤ 2 ^ 24 := by
      by_contra hc
      have : (2 ^ 24 + 1) * (2 ^ k * den) ≤ q * (2 ^ k * den) := Nat.mul_le_mul_right _ (by omega)
      omega
    have overflow : 0x7F800000 ≤ k * 2 ^ 23 + q ↔ (2 ^ 25 - 1) * 2 ^ 252 * den ≤ num := by
      rcases Nat.lt_trichotomy k 253 with hlt | heq | hgt
      · have hle : 2 ^ k * den ≤ 2 ^ 252 * den :=
          Nat.mul_le_mul_right den (Nat.pow_le_pow_right (by norm_num) (by omega))
        have e : (2 ^ 25 - 1) * 2 ^ 252 * den = (2 ^ 25 - 1) * (2 ^ 252 * den) := by ring
        rw [e]
        constructor <;> intro <;> exfalso <;> omega
      · subst heq
        have e : (2 ^ 25 - 1) * 2 ^ 252 * den = (2 ^ 25 - 1) * (2 ^ 252 * den) := by ring
        have e2 : 2 ^ 253 * den = 2 * (2 ^ 252 * den) := by ring
        rw [e]
        rw [e2] at h1 h2 h3 hdk hk1 hk2
        generalize 2 ^ 252 * den = b at *
        constructor
        · intro h
          have : q = 2 ^ 24 := by omega
          subst this
          omega
        · intro h
          by_contra hc
          have hq3 : q ≤ 2 ^ 24 - 1 := by omega
          rcases Nat.lt_or_ge q (2 ^ 24 - 1) with h4 | h4
          · have : q * (2 * b) ≤ (2 ^ 24 - 2) * (2 * b) := Nat.mul_le_mul_right _ (by omega)
            omega
          · have : q = 2 ^ 24 - 1 := by omega
            subst this
            have := h3 (by omega)
            omega
      · have hle : 2 ^ 254 * den ≤ 2 ^ k * den :=
          Nat.mul_le_mul_right den (Nat.pow_le_pow_right (by norm_num) (by omega))
        have e : (2 ^ 25 - 1) * 2 ^ 252 * den ≤ 2 ^ 23 * (2 ^ 254 * den) := by
          have : (2 ^ 25 - 1) * 2 ^ 252 * den ≤ 2 ^ 23 * 2 ^ 254 * den := Nat.mul_le_mul_right den (by norm_num)
          rwa [mul_assoc (2 ^ 23)] at this
        constructor <;> intro <;> omega
    simp only [huge, ← overflow]
    split
    · exact hinf
    · exact nearestTo_scaled s hn hd hq.symm (.inr (by rwa [mul_assoc])) (.inr ⟨hq1, hq2⟩) (by omega)

/-! ## The error of a rounding -/

/-- A sign changes no other field. -/
theorem withSign_fields (s : Bool) {x : Word} (h : x.toNat < 2 ^ 31) :
    fpSign (withSign s x) = s ∧ fpMag (withSign s x) = fpMag x ∧ fpExp (withSign s x) = fpExp x ∧
      fpFrac (withSign s x) = fpFrac x := by
  have e := withSign_toNat s x h
  have m : (withSign s x).toNat % 2 ^ 31 = x.toNat % 2 ^ 31 := by rw [e]; cases s <;> simp
  refine ⟨?_, by rw [fpMag_eq, fpMag_eq, m], ?_, ?_⟩
  · rw [fpSign_eq, e]; cases s <;> simp; omega
  · rw [fpExp_eq, fpExp_eq]; omega
  · rw [fpFrac_eq, fpFrac_eq]; omega

theorem roundMag_lt (nj : Bool) (num den : Nat) : (roundMag nj num den).toNat < 2 ^ 31 := by
  unfold roundMag
  split
  · split
    · decide
    · next h _ =>
      have : roundNearest num den ≤ num / den + 1 := by unfold roundNearest; simp only; split <;> omega
      rw [BitVec.toNat_ofNat]; omega
  · simp only
    split
    · decide
    · rw [BitVec.toNat_ofNat]; omega

/-- How far `ROUND` moves a value that does not overflow: half a unit below 2^-126, else at most 2^-24 of it. -/
theorem roundMag_error {num den : Nat} (hd : 0 < den) (ho : num < (2 ^ 25 - 1) * 2 ^ 252 * den) :
    fpExp (roundMag false num den) ≠ 255 ∧
      (num / den < 2 ^ 23 → 2 * |(fpMag (roundMag false num den) * den : ℤ) - num| ≤ den) ∧
      (2 ^ 23 ≤ num / den → 2 ^ 24 * |(fpMag (roundMag false num den) * den : ℤ) - num| ≤ num) := by
  unfold roundMag
  split
  · next hu =>
    simp only [Bool.false_eq_true, if_false]
    obtain ⟨⟨h1, h2⟩, _⟩ := roundNearest_spec num hd
    have hq : roundNearest num den ≤ 2 ^ 23 := by
      unfold roundNearest; simp only; split <;> omega
    have e0 : (BitVec.ofNat 32 (roundNearest num den)).toNat = roundNearest num den := by
      rw [BitVec.toNat_ofNat]; omega
    have hm := magnitude_scaled (k := 0) (.inl ⟨rfl, hq⟩)
    rw [Nat.zero_mul, Nat.zero_add, pow_zero, Nat.mul_one] at hm
    have e1 : fpMag (BitVec.ofNat 32 (roundNearest num den)) = roundNearest num den := by
      rw [fpMag_eq, e0, Nat.mod_eq_of_lt (by omega), hm]
    refine ⟨by rw [fpExp_eq, e0]; omega, fun _ => ?_, fun h => by omega⟩
    rw [e1]
    generalize hy : roundNearest num den * den = y at *
    have hy' : ((roundNearest num den : ℤ) * den) = y := by exact_mod_cast hy
    rw [hy']
    rcases abs_cases ((y : ℤ) - num) with ⟨h, _⟩ | ⟨h, _⟩ <;> omega
  · next hu =>
    have hm0 : num / den ≠ 0 := by omega
    have hk1 : 2 ^ (num / den).log2 ≤ num / den := Nat.log2_self_le hm0
    have hk2 : num / den < 2 ^ ((num / den).log2 + 1) := Nat.lt_log2_self
    have hk3 : 23 ≤ (num / den).log2 := (Nat.le_log2 hm0).2 (by omega)
    obtain ⟨k, hk⟩ : ∃ k, (num / den).log2 = 23 + k := ⟨(num / den).log2 - 23, by omega⟩
    rw [hk] at hk1 hk2
    have ek : (num / den).log2 - 23 = k := by omega
    simp only [ek]
    rw [pow_add, Nat.le_div_iff_mul_le hd] at hk1
    rw [show 23 + k + 1 = 24 + k by omega, pow_add, Nat.div_lt_iff_lt_mul hd] at hk2
    have hdk : 0 < den * 2 ^ k := Nat.mul_pos hd (Nat.two_pow_pos k)
    obtain ⟨⟨h1, h2⟩, h3⟩ := roundNearest_spec num hdk
    generalize hq : roundNearest num (den * 2 ^ k) = q at *
    have hu : den * 2 ^ k = 2 ^ k * den := Nat.mul_comm _ _
    rw [hu] at h1 h2 h3 hdk
    rw [mul_assoc] at hk1 hk2
    have hq1 : 2 ^ 23 ≤ q := by
      by_contra hc
      have : q * (2 ^ k * den) ≤ (2 ^ 23 - 1) * (2 ^ k * den) := Nat.mul_le_mul_right _ (by omega)
      omega
    have hq2 : q ≤ 2 ^ 24 := by
      by_contra hc
      have : (2 ^ 24 + 1) * (2 ^ k * den) ≤ q * (2 ^ k * den) := Nat.mul_le_mul_right _ (by omega)
      omega
    have no : ¬ 0x7F800000 ≤ k * 2 ^ 23 + q := by
      intro hw
      rcases Nat.lt_or_ge k 254 with hlt | hge
      · obtain rfl : k = 253 := by omega
        obtain rfl : q = 2 ^ 24 := by omega
        have e : (2 ^ 25 - 1) * 2 ^ 252 * den = (2 ^ 25 - 1) * (2 ^ 252 * den) := by ring
        have e2 : 2 ^ 253 * den = 2 * (2 ^ 252 * den) := by ring
        rw [e] at ho
        rw [e2] at h1
        omega
      · have hle : 2 ^ 254 * den ≤ 2 ^ k * den := Nat.mul_le_mul_right den (Nat.pow_le_pow_right (by norm_num) hge)
        have e : (2 ^ 25 - 1) * 2 ^ 252 * den ≤ 2 ^ 23 * (2 ^ 254 * den) := by
          have : (2 ^ 25 - 1) * 2 ^ 252 * den ≤ 2 ^ 23 * 2 ^ 254 * den := Nat.mul_le_mul_right den (by norm_num)
          rwa [mul_assoc (2 ^ 23)] at this
        omega
    rw [if_neg no]
    have e0 : (BitVec.ofNat 32 (k * 2 ^ 23 + q)).toNat = k * 2 ^ 23 + q := by
      rw [BitVec.toNat_ofNat]; omega
    have e1 : fpMag (BitVec.ofNat 32 (k * 2 ^ 23 + q)) = q * 2 ^ k := by
      rw [fpMag_eq, e0, Nat.mod_eq_of_lt (by omega), magnitude_scaled (.inr ⟨hq1, hq2⟩)]
    refine ⟨by rw [fpExp_eq, e0]; omega, fun h => by omega, fun _ => ?_⟩
    rw [e1]
    have e2 : (((q * 2 ^ k : ℕ) : ℤ) * den) = ((q * (2 ^ k * den) : ℕ) : ℤ) := by push_cast; ring
    rw [e2]
    generalize q * (2 ^ k * den) = y at *
    generalize 2 ^ k * den = b at *
    rcases abs_cases ((y : ℤ) - num) with ⟨h, _⟩ | ⟨h, _⟩ <;> omega

/-! ## Kinds of numbers, and `roundFp` field by field -/

/-- `flush` keeps the number, or gives the zero of its sign (R342). -/
theorem flush_cases (nj : Bool) (r : Word) : flush nj r = r ∨ (nj = true ∧ isDenormal r = true ∧
    flush nj r = r &&& signMask) := by
  unfold flush
  split
  · next h => simp at h; exact .inr ⟨h.1, h.2, rfl⟩
  · exact .inl rfl

/-- The zero of the sign of a number. -/
theorem and_signMask_toNat (r : Word) : (r &&& signMask).toNat = if fpSign r then 2 ^ 31 else 0 := by
  have : ∀ i < 32, signMask.getLsbD i = decide (i = 31) := by unfold signMask; decide
  have h : r &&& signMask = if fpSign r then signMask else 0 := by
    apply BitVec.eq_of_getLsbD_eq
    intro i hi
    rw [BitVec.getLsbD_and, this i hi]
    by_cases h31 : i = 31
    · subst h31; have e : r.getLsbD 31 = fpSign r := rfl
      rw [e]; cases fpSign r
      · simp
      · rw [if_pos rfl, this 31 hi]; rfl
    · cases fpSign r
      · simp [h31]
      · rw [if_pos rfl, this i hi]; simp [h31]
  rw [h]; cases fpSign r <;> rfl

/-- The fields of a denormalized number. -/
theorem isDenormal_fields {r : Word} (h : isDenormal r = true) : fpExp r = 0 ∧ fpFrac r ≠ 0 ∧ isNaN r = false ∧
    isInf r = false ∧ isZero r = false ∧ fpMag r < 2 ^ 23 := by
  have hh : fpExp r = 0 ∧ fpFrac r ≠ 0 := by simpa [isDenormal] using h
  refine ⟨hh.1, hh.2, by simp [isNaN, hh.1], by simp [isInf, hh.1], by simp [isZero, hh], ?_⟩
  unfold fpMag; rw [if_pos hh.1, fpFrac_eq]; omega

/-- The fields of the zero of the sign of a number. -/
theorem isZero_and_signMask (r : Word) : isZero (r &&& signMask) = true ∧ fpSign (r &&& signMask) = fpSign r ∧
    fpExp (r &&& signMask) = 0 ∧ fpVal (r &&& signMask) = 0 := by
  have h := and_signMask_toNat r
  have e1 : fpExp (r &&& signMask) = 0 := by rw [fpExp_eq, h]; cases fpSign r <;> simp
  have e2 : fpFrac (r &&& signMask) = 0 := by rw [fpFrac_eq, h]; cases fpSign r <;> simp
  refine ⟨by simp [isZero, e1, e2], ?_, e1, ?_⟩
  · rw [fpSign_eq (r &&& _), h]; cases fpSign r <;> simp
  · unfold fpVal fpMag; simp [e1, e2]

/-- A number that is neither a NaN nor an infinity. -/
theorem fpExp_ne_of_finite {x : Word} (hn : isNaN x = false) (hi : isInf x = false) : fpExp x ≠ 255 := by
  simp [isNaN, isInf] at *; intro h; exact hi h (hn h)

/-- The two zeros. -/
theorem eq_zero_of_isZero {x : Word} (h : isZero x = true) : x = 0 ∨ x = 0x80000000 := by
  simp [isZero] at h
  have l := x.isLt
  rw [fpExp_eq, fpFrac_eq] at h
  have : x.toNat = 0 ∨ x.toNat = 2 ^ 31 := by omega
  rcases this with h | h
  · left; exact BitVec.eq_of_toNat_eq h
  · right; exact BitVec.eq_of_toNat_eq h

/-- The two infinities. -/
theorem eq_infinity_of_isInf {x : Word} (h : isInf x = true) : x = 0x7F800000 ∨ x = 0xFF800000 := by
  simp [isInf] at h
  have l := x.isLt
  rw [fpExp_eq, fpFrac_eq] at h
  have : x.toNat = 0x7F800000 ∨ x.toNat = 0xFF800000 := by omega
  rcases this with h | h
  · left; exact BitVec.eq_of_toNat_eq h
  · right; exact BitVec.eq_of_toNat_eq h

/-- A number that is no zero has a positive magnitude. -/
theorem fpMag_pos {x : Word} (h : isZero x = false) : 0 < fpMag x := by
  unfold fpMag
  split
  · next h1 => simp [isZero] at h; have := h h1; omega
  · positivity

/-- The greatest finite magnitude. -/
theorem fpMag_le {x : Word} (h : fpExp x ≠ 255) : fpMag x ≤ (2 ^ 24 - 1) * 2 ^ 253 := by
  unfold fpMag
  have h1 : fpFrac x < 2 ^ 23 := by rw [fpFrac_eq]; omega
  have h2 : fpExp x < 256 := by rw [fpExp_eq]; omega
  split
  · have : 1 ≤ 2 ^ 253 := Nat.one_le_two_pow; omega
  · exact Nat.mul_le_mul (by omega) (Nat.pow_le_pow_right (by omega) (by omega))

/-- A value that reaches 2 ^ 128 - 2 ^ 103 rounds to the infinity of its sign. -/
theorem roundFp_overflow (nj s : Bool) {num den : Nat} (hn : 0 < num) (hd : 0 < den)
    (h : (2 ^ 25 - 1) * 2 ^ 252 * den ≤ num) :
    roundFp nj s num den = infinity s := by
  have r := roundFp_rounded nj s hn hd
  have hdq : (0 : ℚ) < den := by exact_mod_cast hd
  have hnq : (0 : ℚ) < num := by exact_mod_cast hn
  have hpos : (0 : ℚ) < num / den := by positivity
  unfold Rounded at r
  simp only [abs_signed s hpos.le, signed_neg_iff s hpos] at r
  have huge : (2 : ℚ) ^ 128 - 2 ^ 103 ≤ num / den / 2 ^ 149 := by
    rw [div_div, le_div_iff₀ (by positivity)]
    have e : ((2 : ℚ) ^ 128 - 2 ^ 103) * (den * 2 ^ 149) = (((2 ^ 25 - 1) * 2 ^ 252 * den : Nat) : ℚ) := by
      push_cast; norm_num; ring
    rw [e]; exact_mod_cast h
  rw [if_pos huge] at r
  rw [r]; cases s <;> rfl

/-- The sign of a rounded value that does not overflow, and how far `roundFp` moves it. -/
theorem roundFp_error (s : Bool) {num den : Nat} (hd : 0 < den) (h : num < (2 ^ 25 - 1) * 2 ^ 252 * den) :
   fpSign (roundFp false s num den) = s ∧ fpExp (roundFp false s num den) ≠ 255 ∧
      (num / den < 2 ^ 23 → 2 * |(fpMag (roundFp false s num den) * den : ℤ) - num| ≤ den) ∧
      (2 ^ 23 ≤ num / den → 2 ^ 24 * |(fpMag (roundFp false s num den) * den : ℤ) - num| ≤ num) := by
  obtain ⟨a, b, c, d⟩ := withSign_fields s (roundMag_lt false num den)
  unfold roundFp
  rw [a, b, c]
  exact ⟨rfl, roundMag_error hd h⟩

/-- The value as a sign and a magnitude. -/
theorem fpVal_eq (x : Word) : fpVal x = (if fpSign x then -1 else 1) * (fpMag x : ℤ) := by
  unfold fpVal; split <;> simp

/-- The value as a real number. -/
theorem fpValue_real (r : Word) : ((fpValue r : ℚ) :
    ℝ) = (fpVal r : ℝ) / 2 ^ 149 := by rw [fpValue_eq_fpVal]; push_cast; rfl

end Sys2Proof.Machine
end

