-- ==== Sys2Proof/Laws/Logarithm.lean ====
section
/-! SUPPORT. The logarithm of the estimate instructions: how near `log2Units` is to the real logarithm, and how near
1 + f is to 2^f. -/

namespace Sys2Proof.Machine

/-- A truncated quotient loses little of the logarithm. -/
theorem logb_floor {r : ℝ} {m : Nat} (hm : 2 ^ 254 ≤ m) (h1 : (m : ℝ) ≤ r) (h2 : r < m + 1) :
    Real.logb 2 m ≤ Real.logb 2 r ∧ Real.logb 2 r < Real.logb 2 m + 1 / 2 ^ 252 := by
  have hm' : (2 : ℝ) ^ 254 ≤ m := by exact_mod_cast hm
  have hpos : (0 : ℝ) < m := lt_of_lt_of_le (by positivity) hm'
  have hl : (1 : ℝ) / 2 < Real.log 2 := by have := Real.log_two_gt_d9; linarith
  refine ⟨Real.logb_le_logb_of_le (by norm_num) hpos h1, ?_⟩
  have e : Real.logb 2 r - Real.logb 2 m = Real.log (r / m) / Real.log 2 := by
    rw [Real.log_div (by linarith) hpos.ne', Real.logb, Real.logb]
    ring
  have h3 : Real.log (r / m) ≤ r / m - 1 := Real.log_le_sub_one_of_pos (div_pos (by linarith) hpos)
  have h4 : r / m - 1 < 1 / 2 ^ 254 := by
    rw [div_sub_one hpos.ne', div_lt_div_iff₀ hpos (by positivity)]
    nlinarith
  have h5 : Real.log (r / m) / Real.log 2 < 1 / 2 ^ 253 := by
    rw [div_lt_iff₀ (by linarith)]
    have : (1 : ℝ) / 2 ^ 254 = 1 / 2 ^ 253 * (1 / 2) := by norm_num
    have h6 : (1 : ℝ) / 2 ^ 253 * (1 / 2) < 1 / 2 ^ 253 * Real.log 2 := by
      apply mul_lt_mul_of_pos_left hl (by positivity)
    linarith
  have h6 : (1 : ℝ) / 2 ^ 253 < 1 / 2 ^ 252 := by norm_num
  linarith

theorem logb_scaled {x : ℝ} (hx : 0 < x) (k : Nat) : Real.logb 2 (x * 2 ^ k) = Real.logb 2 x + k := by
  rw [Real.logb_mul hx.ne' (by positivity), Real.logb_pow, Real.logb_self_eq_one (by norm_num), mul_one]

/-- `n` digits of the logarithm: they are at most the logarithm, which is at most one and a little above them. -/
theorem logDigits_spec (n : Nat) {m acc : Nat} (h1 : 2 ^ 256 ≤ m) (h2 : m < 2 ^ 257) :
    ∃ d : Nat, logDigits n m acc = acc * 2 ^ n + d ∧ (d : ℝ) ≤ 2 ^ n * (Real.logb 2 m - 256) ∧
      2 ^ n * (Real.logb 2 m - 256) < d + 1 + 2 ^ n / 2 ^ 251 := by
  induction n generalizing m acc with
  | zero =>
    have hm : (0 : ℝ) < m := by exact_mod_cast (by omega : 0 < m)
    have a1 : Real.logb 2 ((2 : ℝ) ^ 256) ≤ Real.logb 2 m :=
      Real.logb_le_logb_of_le (by norm_num) (by positivity) (by exact_mod_cast h1)
    have a2 : Real.logb 2 m < Real.logb 2 ((2 : ℝ) ^ 257) :=
      Real.logb_lt_logb (by norm_num) hm (by exact_mod_cast h2)
    rw [Real.logb_pow, Real.logb_self_eq_one (by norm_num)] at a1 a2
    push_cast at a1 a2
    have a3 : (0 : ℝ) < 2 ^ 0 / 2 ^ 251 := by positivity
    exact ⟨0, by simp [logDigits], by norm_num; linarith, by push_cast; rw [pow_zero, one_mul] at *; linarith⟩
  | succ n ih =>
    have hm : (0 : ℝ) < m := by exact_mod_cast (by omega : 0 < m)
    -- the square and what truncating it loses
    have sq : Real.logb 2 ((m * m : ℝ) / 2 ^ 256) = 2 * Real.logb 2 m - 256 := by
      rw [Real.logb_div (by positivity) (by positivity), Real.logb_mul hm.ne' hm.ne', Real.logb_pow,
        Real.logb_self_eq_one (by norm_num)]
      push_cast; ring
    have t1 : 2 ^ 256 ≤ m * m / 2 ^ 256 := (Nat.le_div_iff_mul_le (by positivity)).2 (Nat.mul_le_mul h1 h1)
    have t2 : m * m / 2 ^ 256 < 2 ^ 257 * 2 := by
      rw [Nat.div_lt_iff_lt_mul (by positivity)]
      calc m * m < 2 ^ 257 * 2 ^ 257 := Nat.mul_lt_mul'' h2 h2
        _ = 2 ^ 257 * 2 * 2 ^ 256 := by rw [mul_assoc (2 ^ 257), ← pow_succ']
    have f1 : ((m * m / 2 ^ 256 : ℕ) : ℝ) ≤ (m * m : ℝ) / 2 ^ 256 := by
      rw [le_div_iff₀ (by positivity)]
      exact_mod_cast Nat.div_mul_le_self (m * m) (2 ^ 256)
    have f2 : (m * m : ℝ) / 2 ^ 256 < ((m * m / 2 ^ 256 : ℕ) : ℝ) + 1 := by
      rw [div_lt_iff₀ (by positivity)]
      have := Nat.lt_div_mul_add (a := m * m) (b := 2 ^ 256) (by positivity)
      have h : m * m < (m * m / 2 ^ 256 + 1) * 2 ^ 256 := by rw [Nat.add_mul, Nat.one_mul]; exact this
      exact_mod_cast h
    have e257 : (2 : ℕ) ^ 257 = 2 ^ 256 * 2 := by rw [pow_succ]
    have e256 : (2 : ℕ) ^ 254 ≤ 2 ^ 256 := Nat.pow_le_pow_right (by decide) (by decide)
    have p : (0 : ℝ) < 2 ^ n := by positivity
    have loss : (2 : ℝ) ^ n * 2 / 2 ^ 251 = 2 ^ n / 2 ^ 251 + 2 ^ n * (2 / 2 ^ 252) := by ring
    unfold logDigits
    simp only
    rw [e257] at t2 ⊢
    have hr : 0 < (m * m : ℝ) / 2 ^ 256 := by positivity
    generalize m * m / 2 ^ 256 = t at *
    generalize (m * m : ℝ) / 2 ^ 256 = r at *
    split
    · next hb =>
      have h : 2 * (t / 2) ≤ t ∧ t + 1 ≤ 2 * (t / 2 + 1) := by omega
      have g : 2 * ((t / 2 : ℕ) : ℝ) ≤ t ∧ (t : ℝ) + 1 ≤ 2 * ((t / 2 : ℕ) + 1) := by exact_mod_cast h
      have q1 : 2 ^ 256 ≤ t / 2 := by omega
      have q2 : t / 2 < 2 ^ 257 := by omega
      generalize t / 2 = q at *
      obtain ⟨g1, g2⟩ := logb_floor (r := r / 2) (m := q) (by omega) (by linarith) (by linarith)
      rw [Real.logb_div hr.ne' (by norm_num), sq, Real.logb_self_eq_one (by norm_num)] at g1 g2
      obtain ⟨d, e, l1, l2⟩ := ih (acc := 2 * acc + 1) q1 q2
      refine ⟨2 ^ n + d, by rw [e]; ring, ?_, ?_⟩ <;> push_cast <;> rw [pow_succ]
      · nlinarith
      · nlinarith
    · next hb =>
      obtain ⟨g1, g2⟩ := logb_floor (m := t) (by omega) f1 f2
      rw [sq] at g1 g2
      obtain ⟨d, e, l1, l2⟩ := ih (acc := 2 * acc) t1 (by omega)
      refine ⟨d, by rw [e]; ring, ?_, ?_⟩ <;> rw [pow_succ]
      · nlinarith
      · nlinarith

/-- `log2Units` is the logarithm in units of 2^-80, less than two units below it (log entry 13). -/
theorem log2Units_spec {num den : Nat} (hn : 0 < num) (hd : 0 < den) :
    (log2Units num den : ℝ) ≤ 2 ^ 80 * Real.logb 2 (num / den) ∧
      2 ^ 80 * Real.logb 2 (num / den) < log2Units num den + 2 := by
  have n1 : 2 ^ num.log2 ≤ num := Nat.log2_self_le hn.ne'
  have n2 : num < 2 ^ (num.log2 + 1) := Nat.lt_log2_self
  have d1 : 2 ^ den.log2 ≤ den := Nat.log2_self_le hd.ne'
  have d2 : den < 2 ^ (den.log2 + 1) := Nat.lt_log2_self
  have hnr : (0 : ℝ) < num := by exact_mod_cast hn
  have hdr : (0 : ℝ) < den := by exact_mod_cast hd
  unfold log2Units
  simp only
  generalize num.log2 = a at *
  generalize den.log2 = b at *
  generalize hS : num * 2 ^ (256 + b) / (den * 2 ^ a) = S
  have hD : 0 < den * 2 ^ a := by positivity
  have hr := Nat.div_add_mod (num * 2 ^ (256 + b)) (den * 2 ^ a)
  have hl := Nat.mod_lt (num * 2 ^ (256 + b)) hD
  rw [hS] at hr
  -- the quotient of the significands lies between 1/2 and 2
  have lo : 2 ^ 255 ≤ S := by
    rw [← hS, Nat.le_div_iff_mul_le hD]
    calc 2 ^ 255 * (den * 2 ^ a) ≤ 2 ^ 255 * (2 ^ (b + 1) * 2 ^ a) := by gcongr
      _ = 2 ^ a * 2 ^ (256 + b) := by ring
      _ ≤ num * 2 ^ (256 + b) := by gcongr
  have hi : S < 2 ^ 257 := by
    rw [← hS, Nat.div_lt_iff_lt_mul hD]
    calc num * 2 ^ (256 + b) < 2 ^ (a + 1) * 2 ^ (256 + b) := by gcongr
      _ = 2 ^ 257 * (2 ^ b * 2 ^ a) := by rw [pow_succ, pow_add, pow_succ 2 256]; ring
      _ ≤ 2 ^ 257 * (den * 2 ^ a) := by gcongr
  have f1 : (S : ℝ) ≤ (num * 2 ^ (256 + b) : ℝ) / (den * 2 ^ a) := by
    rw [le_div_iff₀ (by positivity)]
    have : S * (den * 2 ^ a) ≤ num * 2 ^ (256 + b) := by rw [Nat.mul_comm]; omega
    exact_mod_cast this
  have f2 : (num * 2 ^ (256 + b) : ℝ) / (den * 2 ^ a) < S + 1 := by
    rw [div_lt_iff₀ (by positivity)]
    have : num * 2 ^ (256 + b) < (S + 1) * (den * 2 ^ a) := by
      rw [Nat.add_mul, Nat.one_mul, Nat.mul_comm S]; omega
    exact_mod_cast this
  obtain ⟨g1, g2⟩ := logb_floor (by omega) f1 f2
  have e : Real.logb 2 ((num * 2 ^ (256 + b) : ℝ) / (den * 2 ^ a)) =
      Real.logb 2 (num / den) + 256 - ((a : ℤ) - b : ℤ) := by
    rw [Real.logb_div (by positivity) (by positivity), logb_scaled hnr, logb_scaled hdr,
      Real.logb_div hnr.ne' hdr.ne']
    push_cast; ring
  rw [e] at g1 g2
  generalize (a : ℤ) - b = x at *
  have e0 : S * 2 ^ (x - x).toNat = S := by rw [sub_self, Int.toNat_zero, pow_zero, mul_one]
  simp only [e0]
  have p : (2 : ℝ) ^ 80 / 2 ^ 251 + 2 ^ 80 * (1 / 2 ^ 252) < 1 := by norm_num
  split
  · next hs =>
    have e1 : (x - (x - 1)).toNat = 1 := by omega
    simp only [e1, pow_one]
    obtain ⟨d, hd, l1, l2⟩ := logDigits_spec 80 (m := S * 2) (acc := 0) (by omega) (by omega)
    rw [hd]
    have e2 : Real.logb 2 ((S * 2 : Nat) : ℝ) = Real.logb 2 S + 1 := by
      have hSr : (0 : ℝ) < S := by exact_mod_cast (by omega : 0 < S)
      push_cast
      rw [Real.logb_mul hSr.ne' (by norm_num), Real.logb_self_eq_one (by norm_num)]
    rw [e2] at l1 l2
    push_cast
    constructor <;> nlinarith
  · next hs =>
    simp only [e0]
    obtain ⟨d, hd, l1, l2⟩ := logDigits_spec 80 (m := S) (acc := 0) (by omega) (by omega)
    rw [hd]
    push_cast
    constructor <;> nlinarith

/-- The straight line between two powers of 2 is above the exponential, by less than 1/16 of it. -/
theorem one_add_near_two_rpow {f : ℝ} (h0 : 0 ≤ f) (h1 : f ≤ 1) :
    (2 : ℝ) ^ f ≤ 1 + f ∧ 1 + f ≤ 10616 / 10000 * (2 : ℝ) ^ f := by
  constructor
  · have := rpow_one_add_le_one_add_mul_self (s := 1) (p := f) (by norm_num) h0 h1
    norm_num at this
    linarith
  · have hl := Real.log_two_gt_d9
    have he := Real.exp_one_gt_d9
    have hp : (0 : ℝ) < 2 ^ f := by positivity
    have h := Real.add_one_le_exp ((1 + f) * Real.log 2 - 1)
    have e : Real.exp ((1 + f) * Real.log 2 - 1) * Real.exp 1 = 2 * 2 ^ f := by
      rw [← Real.exp_add, Real.rpow_def_of_pos (by norm_num)]
      conv_rhs => rw [← Real.exp_log (show (0 : ℝ) < 2 by norm_num), Real.log_exp, ← Real.exp_add]
      congr 1; ring
    have hm : (1 + f) * Real.log 2 * Real.exp 1 ≤ 2 * 2 ^ f := by
      rw [← e]
      exact mul_le_mul_of_nonneg_right (by linarith) (Real.exp_pos 1).le
    have hk : (1.884 : ℝ) ≤ Real.log 2 * Real.exp 1 := by nlinarith
    nlinarith

/-! ## The bounds of the estimates -/

/-- What `choose` gives: a value that meets the bound, after `OUT`. -/
theorem choose_flush {ok : Word → Bool} {raw fb : Word} (h : ok fb = true) : ∃ r, ok r = true ∧
    ∀ nj, choose nj ok raw fb = flush nj r := by
  by_cases hr : ok raw = true
  · exact ⟨raw, hr, fun nj => by unfold choose; rw [if_pos hr]⟩
  · exact ⟨fb, h, fun nj => by unfold choose; rw [if_neg hr]⟩

/-- `sqrtFrom` is the integer square root. -/
theorem sqrtFrom_spec (n : Nat) : ∀ i acc, acc ^ 2 ≤ n → n < (acc + 2 ^ i) ^ 2 → (sqrtFrom n i acc) ^ 2 ≤ n ∧
    n < (sqrtFrom n i acc + 1) ^ 2 := by
  intro i
  induction i with
  | zero => intro acc h1 h2; exact ⟨h1, by simpa [sqrtFrom] using h2⟩
  | succ i ih =>
    intro acc h1 h2
    unfold sqrtFrom
    split
    · next h => exact ih _ h (by rw [add_assoc, ← two_mul, ← pow_succ']; exact h2)
    · next h => exact ih _ h1 (not_le.1 h)

/-- What the comparison of powers says. -/
theorem powers_le_iff {num den n : Nat} (hn : 0 < num) (hd : 0 < den) (hp : 0 < n) (v : ℤ) :
    num ^ n * 2 ^ (-v).toNat ≤ den ^ n * 2 ^ v.toNat ↔ Real.logb 2 (num / den) ≤ v / n := by
  have hnr : (0 : ℝ) < num := by exact_mod_cast hn
  have hdr : (0 : ℝ) < den := by exact_mod_cast hd
  have hpr : (0 : ℝ) < n := by exact_mod_cast hp
  have hv : ((v.toNat : ℤ) : ℝ) - ((-v).toNat : ℤ) = v := by
    have : (v.toNat : ℤ) - ((-v).toNat : ℤ) = v := by omega
    exact_mod_cast this
  have hc : num ^ n * 2 ^ (-v).toNat ≤ den ^ n * 2 ^ v.toNat ↔
      (num : ℝ) ^ n * 2 ^ (-v).toNat ≤ (den : ℝ) ^ n * 2 ^ v.toNat := by exact_mod_cast Iff.rfl
  rw [hc, ← Real.logb_le_logb (by norm_num : (1 : ℝ) < 2) (by positivity) (by positivity), logb_scaled (by positivity),
    logb_scaled (by positivity), Real.logb_pow, Real.logb_pow, Real.logb_div hnr.ne' hdr.ne', le_div_iff₀ hpr]
  push_cast at hv
  constructor <;> intro h <;> linarith

/-- `logAtMost` compares the real logarithm, exactly. -/
theorem logAtMost_iff_logb {num den : Nat} (hn : 0 < num) (hd : 0 < den) (v : ℤ) :
    logAtMost num den v = true ↔ Real.logb 2 (num / den) ≤ v / 2 ^ 149 := by
  obtain ⟨l1, l2⟩ := log2Units_spec hn hd
  have scale : ∀ u : ℤ, ((u * 2 ^ 69 : ℤ) : ℝ) = u / 2 ^ 80 * 2 ^ 149 := fun u => by push_cast; ring
  unfold logAtMost
  split
  · next h =>
    have h : (((log2Units num den + 2) * 2 ^ 69 : ℤ) : ℝ) ≤ v := by exact_mod_cast h
    rw [scale, ← le_div_iff₀ (by positivity)] at h
    rw [← lt_div_iff₀' (by positivity)] at l2
    push_cast at h
    simp only [true_iff]
    linarith
  · split
    · next h =>
      have h : (v : ℝ) < ((log2Units num den * 2 ^ 69 : ℤ) : ℝ) := by exact_mod_cast h
      rw [scale, ← div_lt_iff₀ (by positivity)] at h
      rw [← div_le_iff₀' (by positivity)] at l1
      simp only [Bool.false_eq_true, false_iff, not_le]
      linarith
    · split
      · next h =>
        have hnr : (0 : ℝ) < num := by exact_mod_cast hn
        have hdr : (0 : ℝ) < den := by exact_mod_cast hd
        have e := congrArg (Real.logb 2) (show (num : ℝ) * 2 ^ den.log2 = den * 2 ^ num.log2 by exact_mod_cast h)
        rw [logb_scaled hnr, logb_scaled hdr] at e
        have hl : Real.logb 2 (num / den) = ((num.log2 - den.log2 : ℤ) : ℝ) := by
          rw [Real.logb_div hnr.ne' hdr.ne']; push_cast; linarith
        rw [decide_eq_true_eq, hl, le_div_iff₀ (by positivity)]
        exact_mod_cast Iff.rfl
      · rw [decide_eq_true_eq, powers_le_iff hn hd (by positivity), Nat.cast_pow, Nat.cast_two]

/-- `logAtMost` compares the quotient with the power of 2. -/
theorem logAtMost_iff {num den : Nat} (hn : 0 < num) (hd : 0 < den) (v : ℤ) :
    logAtMost num den v = true ↔ (num / den : ℝ) ≤ (2 : ℝ) ^ ((v : ℝ) / 2 ^ 149) := by
  rw [logAtMost_iff_logb hn hd,
    Real.logb_le_iff_le_rpow (by norm_num) (div_pos (by exact_mod_cast hn) (by exact_mod_cast hd))]

/-- `logAtLeast` compares the real logarithm, exactly. -/
theorem logAtLeast_iff_logb {num den : Nat} (hn : 0 < num) (hd : 0 < den) (v : ℤ) :
    logAtLeast num den v = true ↔ (v : ℝ) / 2 ^ 149 ≤ Real.logb 2 (num / den) := by
  rw [logAtLeast, logAtMost_iff_logb hd hn, ← inv_div, Real.logb_inv, Int.cast_neg, neg_div, neg_le_neg_iff]

/-- `logAtLeast` compares the quotient with the power of 2. -/
theorem logAtLeast_iff {num den : Nat} (hn : 0 < num) (hd : 0 < den) (v : ℤ) :
    logAtLeast num den v = true ↔ (2 : ℝ) ^ ((v : ℝ) / 2 ^ 149) ≤ (num / den : ℝ) := by
  rw [logAtLeast_iff_logb hn hd,
    Real.le_logb_iff_rpow_le (by norm_num) (div_pos (by exact_mod_cast hn) (by exact_mod_cast hd))]

end Sys2Proof.Machine
end

