-- ==== Sys2Proof/Tests/Slice0.lean ====
section
/-! SUPPORT. The model's own tests. Expected results are the spec's: words and vectors of 30_encoding.md R145,
95_test_vectors.md and 96_test_vectors_derived.md, and the tables and examples of the rules named. -/

namespace Sys2Proof.Tests

open Sys2Proof.Machine

/-! The kernel evaluates these tests one after another: side by side they would take a thread each. -/

set_option Elab.async false

/-! ## Well-formedness: the check refuses each ill-formed term (R463) -/

theorem test_illFormed_dst : (Instr.dst 1 0 4).wellFormed = false := by decide

theorem test_illFormed_dstt : (Instr.dstt 1 0 4).wellFormed = false := by decide

theorem test_illFormed_dstst : (Instr.dstst 1 0 4).wellFormed = false := by decide

theorem test_illFormed_dststt : (Instr.dststt 1 0 4).wellFormed = false := by decide

theorem test_wellFormed_dst : (Instr.dst 1 3 0).wellFormed = true := by decide

/-! ## Decoding: a word of each constructor, as the spec's tables write it (R145, 96 sections 2.1 to 2.8) -/

/-- The word decodes to the instruction, and the instruction encodes to the word. -/
def isWordOf (p : Nat × Instr) : Bool :=
  match decode (BitVec.ofNat 32 p.1) with
  | .ok i => i = p.2 ∧ (encode p.2).toNat = p.1
  | .error _ => false

/-- The decoder rejects the word so. -/
def rejects (w : Nat) (e : DecodeError) : Bool :=
  match decode (BitVec.ofNat 32 w) with
  | .ok _ => false
  | .error e' => e' = e

theorem test_decode_vx1 :
    [(0x10221800, .vaddubm 1 2 3), (0x10221840, .vadduhm 1 2 3), (0x10221880, .vadduwm 1 2 3),
     (0x10221980, .vaddcuw 1 2 3), (0x10221A00, .vaddubs 1 2 3), (0x10221A40, .vadduhs 1 2 3),
     (0x10221A80, .vadduws 1 2 3), (0x10221B00, .vaddsbs 1 2 3), (0x10221B40, .vaddshs 1 2 3),
     (0x10221B80, .vaddsws 1 2 3), (0x10221C00, .vsububm 1 2 3), (0x10221C40, .vsubuhm 1 2 3),
     (0x10221C80, .vsubuwm 1 2 3), (0x10221D80, .vsubcuw 1 2 3), (0x10221E00, .vsububs 1 2 3),
     (0x10221E40, .vsubuhs 1 2 3), (0x10221E80, .vsubuws 1 2 3), (0x10221F00, .vsubsbs 1 2 3),
     (0x10221F40, .vsubshs 1 2 3), (0x10221F80, .vsubsws 1 2 3), (0x10221808, .vmuloub 1 2 3),
     (0x10221848, .vmulouh 1 2 3), (0x10221908, .vmulosb 1 2 3), (0x10221948, .vmulosh 1 2 3),
     (0x10221A08, .vmuleub 1 2 3), (0x10221A48, .vmuleuh 1 2 3), (0x10221B08, .vmulesb 1 2 3),
     (0x10221B48, .vmulesh 1 2 3), (0x10221F88, .vsumsws 1 2 3), (0x10221E88, .vsum2sws 1 2 3),
     (0x10221E08, .vsum4ubs 1 2 3), (0x10221F08, .vsum4sbs 1 2 3), (0x10221E48, .vsum4shs 1 2 3),
     (0x10221C02, .vavgub 1 2 3), (0x10221C42, .vavguh 1 2 3), (0x10221C82, .vavguw 1 2 3),
     (0x10221D02, .vavgsb 1 2 3), (0x10221D42, .vavgsh 1 2 3), (0x10221D82, .vavgsw 1 2 3),
     (0x10221802, .vmaxub 1 2 3)].all isWordOf = true := by decide +kernel

theorem test_decode_vx2 :
    [(0x10221842, .vmaxuh 1 2 3), (0x10221882, .vmaxuw 1 2 3), (0x10221902, .vmaxsb 1 2 3),
     (0x10221942, .vmaxsh 1 2 3), (0x10221982, .vmaxsw 1 2 3), (0x10221A02, .vminub 1 2 3),
     (0x10221A42, .vminuh 1 2 3), (0x10221A82, .vminuw 1 2 3), (0x10221B02, .vminsb 1 2 3),
     (0x10221B42, .vminsh 1 2 3), (0x10221B82, .vminsw 1 2 3), (0x10221C04, .vand 1 2 3),
     (0x10221C44, .vandc 1 2 3), (0x10221C84, .vor 1 2 3), (0x10221CC4, .vxor 1 2 3),
     (0x10221D04, .vnor 1 2 3), (0x10221804, .vrlb 1 2 3), (0x10221844, .vrlh 1 2 3),
     (0x10221884, .vrlw 1 2 3), (0x10221904, .vslb 1 2 3), (0x10221944, .vslh 1 2 3),
     (0x10221984, .vslw 1 2 3), (0x10221A04, .vsrb 1 2 3), (0x10221A44, .vsrh 1 2 3),
     (0x10221A84, .vsrw 1 2 3), (0x10221B04, .vsrab 1 2 3), (0x10221B44, .vsrah 1 2 3),
     (0x10221B84, .vsraw 1 2 3), (0x1022180E, .vpkuhum 1 2 3), (0x1022184E, .vpkuwum 1 2 3),
     (0x1022188E, .vpkuhus 1 2 3), (0x102218CE, .vpkuwus 1 2 3), (0x1022190E, .vpkshus 1 2 3),
     (0x1022194E, .vpkswus 1 2 3), (0x1022198E, .vpkshss 1 2 3), (0x102219CE, .vpkswss 1 2 3),
     (0x10221B0E, .vpkpx 1 2 3), (0x10201A0E, .vupkhsb 1 3), (0x10201A4E, .vupkhsh 1 3),
     (0x10201A8E, .vupklsb 1 3)].all isWordOf = true := by decide +kernel

theorem test_decode_vx3 :
    [(0x10201ACE, .vupklsh 1 3), (0x10201B4E, .vupkhpx 1 3), (0x10201BCE, .vupklpx 1 3),
     (0x102D1A0C, .vspltb 1 13 3), (0x10251A4C, .vsplth 1 5 3), (0x10221A8C, .vspltw 1 2 3),
     (0x103F030C, .vspltisb 1 31), (0x1030034C, .vspltish 1 16), (0x102F038C, .vspltisw 1 15),
     (0x1022180C, .vmrghb 1 2 3), (0x1022184C, .vmrghh 1 2 3), (0x1022188C, .vmrghw 1 2 3),
     (0x1022190C, .vmrglb 1 2 3), (0x1022194C, .vmrglh 1 2 3), (0x1022198C, .vmrglw 1 2 3),
     (0x102219C4, .vsl 1 2 3), (0x10221AC4, .vsr 1 2 3), (0x10221C0C, .vslo 1 2 3), (0x10221C4C, .vsro 1 2 3),
     (0x1022180A, .vaddfp 1 2 3), (0x1022184A, .vsubfp 1 2 3), (0x10221C0A, .vmaxfp 1 2 3),
     (0x10221C4A, .vminfp 1 2 3), (0x10201A0A, .vrfin 1 3), (0x10201A4A, .vrfiz 1 3), (0x10201A8A, .vrfip 1 3),
     (0x10201ACA, .vrfim 1 3), (0x10201B0A, .vcfux 1 0 3), (0x10201B4A, .vcfsx 1 0 3),
     (0x10201B8A, .vctuxs 1 0 3), (0x10201BCA, .vctsxs 1 0 3), (0x1020190A, .vrefp 1 3),
     (0x1020194A, .vrsqrtefp 1 3), (0x102019CA, .vlogefp 1 3), (0x1020198A, .vexptefp 1 3),
     (0x10200604, .mfvscr 1), (0x10001E44, .mtvscr 3), (0x103F038C, .vspltisw 1 31),
     (0x10821800, .vaddubm 4 2 3)].all isWordOf = true := by decide +kernel

theorem test_decode_vxr :
    [(0x10221C06, .vcmpequb 1 2 3 true), (0x10221C46, .vcmpequh 1 2 3 true),
     (0x10221C86, .vcmpequw 1 2 3 true), (0x10221E06, .vcmpgtub 1 2 3 true),
     (0x10221E46, .vcmpgtuh 1 2 3 true), (0x10221E86, .vcmpgtuw 1 2 3 true),
     (0x10221F06, .vcmpgtsb 1 2 3 true), (0x10221F46, .vcmpgtsh 1 2 3 true),
     (0x10221F86, .vcmpgtsw 1 2 3 true), (0x10221CC6, .vcmpeqfp 1 2 3 true),
     (0x10221DC6, .vcmpgefp 1 2 3 true), (0x10221EC6, .vcmpgtfp 1 2 3 true), (0x10221FC6, .vcmpbfp 1 2 3 true),
     (0x10221806, .vcmpequb 1 2 3 false)].all isWordOf = true := by decide +kernel

theorem test_decode_va :
    [(0x10221920, .vmhaddshs 1 2 3 4), (0x10221921, .vmhraddshs 1 2 3 4), (0x10221922, .vmladduhm 1 2 3 4),
     (0x10221924, .vmsumubm 1 2 3 4), (0x10221925, .vmsummbm 1 2 3 4), (0x10221926, .vmsumuhm 1 2 3 4),
     (0x10221927, .vmsumuhs 1 2 3 4), (0x10221928, .vmsumshm 1 2 3 4), (0x10221929, .vmsumshs 1 2 3 4),
     (0x1022192B, .vperm 1 2 3 4), (0x1022192A, .vsel 1 2 3 4), (0x1022196C, .vsldoi 1 2 3 5),
     (0x1022182C, .vsldoi 1 2 3 0), (0x1022192E, .vmaddfp 1 2 3 4), (0x1022192F, .vnmsubfp 1 2 3 4)].all isWordOf = true := by decide +kernel

theorem test_decode_x :
    [(0x7C20180E, .lvebx 1 0 3), (0x7C20184E, .lvehx 1 0 3), (0x7C20188E, .lvewx 1 0 3),
     (0x7C2018CE, .lvx 1 0 3), (0x7C201ACE, .lvxl 1 0 3), (0x7C20190E, .stvebx 1 0 3),
     (0x7C20194E, .stvehx 1 0 3), (0x7C20198E, .stvewx 1 0 3), (0x7C2019CE, .stvx 1 0 3),
     (0x7C201BCE, .stvxl 1 0 3), (0x7C4322AC, .dst 2 3 4), (0x7E0322AC, .dstt 0 3 4),
     (0x7C2322EC, .dstst 1 3 4), (0x7E6322EC, .dststt 3 3 4), (0x7C40066C, .dss 2), (0x7E00066C, .dssall 0),
     (0x7C0022AC, .dst 0 0 4), (0x7CA042A6, .mfspr 5), (0x7CA043A6, .mtspr 5), (0x7C22180C, .lvsl 1 2 3),
     (0x7C22184C, .lvsr 1 2 3)].all isWordOf = true := by decide +kernel

/-- All four words of `dssall` are it: STRM is ignored (R467). -/
theorem test_decode_dssall_strm : isWordOf (0x7E60066C, .dssall 3) = true := by decide +kernel

/-- 95 section 3: unassigned extended opcodes are illegal. -/
theorem test_decode_illegal :
    [0x1000002D, 0x10000023, 0x100007FF].all (rejects · .illegal) = true := by decide +kernel

/-- 95 section 3: a nonzero reserved field is refused. -/
theorem test_decode_reserved :
    [0x10210604, 0x10231A0A, 0x7C2018CF, 0x10341A8C].all (rejects · .reserved) = true := by decide +kernel

/-- 95 section 3: base instructions, and `mfspr` of another register. -/
theorem test_decode_base :
    [0x38630010, 0x4E800020, 0x4C000064, 0x7CA802A6].all (rejects · .base) = true := by decide +kernel

/-! ## Execution: the vectors of 96_test_vectors_derived.md -/

/-- The state of a vector: VR2, VR3, VR4 and VSCR given, CR = 0x12345678. -/
def start (a b c : Vec) (vscr : Word) : State :=
  { State.reset with vr := ((State.reset.vr.set 2 a).set 3 b).set 4 c, vscr := vscr, cr := 0x12345678 }

/-- A vector: the word, VR2, VR3, VR4 and VSCR before, and VR1, VSCR and CR after. -/
structure Row where
  word : Nat
  a : Vec
  b : Vec
  c : Vec
  vscr : Word
  vD : Vec
  vscrAfter : Word
  crAfter : Word

/-- The word, executed, completes with the state the vector gives. -/
def Row.holds (r : Row) : Bool :=
  match decode (BitVec.ofNat 32 r.word) with
  | .ok i =>
    match exec i (start r.a r.b r.c r.vscr) with
    | .next t => t.vreg 1 = r.vD ∧ t.vscr = r.vscrAfter ∧ t.cr = r.crAfter ∧ t.pc = 4
    | _ => false
  | .error _ => false

/-- The operand sets A, B, C of 96 section 2. -/
def opA : Vec := 0x7FFFFFFF80000000FFFF00017F80FF01

def opB : Vec := 0x00000001FFFFFFFF00017FFF01FF0180

def opC : Vec := 0x00000001FFFFFFFF7FFFFFFF80000000

theorem test_int_add_sub :
    ([⟨0x10221800, opA, opB, opC, 0, 0x7FFFFF007FFFFFFFFF007F00807F0081, 0, 0x12345678⟩,
     ⟨0x10221840, opA, opB, opC, 0, 0x7FFF00007FFFFFFF00008000817F0081, 0, 0x12345678⟩,
     ⟨0x10221880, opA, opB, opC, 0, 0x800000007FFFFFFF0000800081800081, 0, 0x12345678⟩,
     ⟨0x10221980, opA, opB, opC, 0, 0x00000000000000010000000100000000, 0, 0x12345678⟩,
     ⟨0x10221A00, opA, opB, opC, 0, 0x7FFFFFFFFFFFFFFFFFFF7FFF80FFFF81, 1, 0x12345678⟩,
     ⟨0x10221A40, opA, opB, opC, 0, 0x7FFFFFFFFFFFFFFFFFFF8000817FFFFF, 1, 0x12345678⟩,
     ⟨0x10221A80, opA, opB, opC, 0, 0x80000000FFFFFFFFFFFFFFFF81800081, 1, 0x12345678⟩,
     ⟨0x10221B00, opA, opB, opC, 0, 0x7FFFFF0080FFFFFFFF007F007F800081, 1, 0x12345678⟩,
     ⟨0x10221B40, opA, opB, opC, 0, 0x7FFF00008000FFFF00007FFF7FFF0081, 1, 0x12345678⟩,
     ⟨0x10221B80, opA, opB, opC, 0, 0x7FFFFFFF80000000000080007FFFFFFF, 1, 0x12345678⟩,
     ⟨0x10221C00, opA, opB, opC, 0, 0x7FFFFFFE81010101FFFE81027E81FE81, 0, 0x12345678⟩,
     ⟨0x10221C40, opA, opB, opC, 0, 0x7FFFFFFE80010001FFFE80027D81FD81, 0, 0x12345678⟩,
     ⟨0x10221C80, opA, opB, opC, 0, 0x7FFFFFFE80000001FFFD80027D81FD81, 0, 0x12345678⟩,
     ⟨0x10221D80, opA, opB, opC, 0, 0x00000001000000000000000100000001, 0, 0x12345678⟩,
     ⟨0x10221E00, opA, opB, opC, 0, 0x7FFFFFFE00000000FFFE00007E00FE00, 1, 0x12345678⟩,
     ⟨0x10221E40, opA, opB, opC, 0, 0x7FFFFFFE00000000FFFE00007D81FD81, 1, 0x12345678⟩,
     ⟨0x10221E80, opA, opB, opC, 0, 0x7FFFFFFE00000000FFFD80027D81FD81, 1, 0x12345678⟩,
     ⟨0x10221F00, opA, opB, opC, 0, 0x7FFFFFFE81010101FFFE81027E81FE7F, 1, 0x12345678⟩,
     ⟨0x10221F40, opA, opB, opC, 0, 0x7FFFFFFE80010001FFFE80027D81FD81, 0, 0x12345678⟩,
     ⟨0x10221F80, opA, opB, opC, 0, 0x7FFFFFFE80000001FFFD80027D81FD81, 0, 0x12345678⟩] : List Row).all Row.holds = true := by decide +kernel

theorem test_int_mul1 :
    ([⟨0x10221808, opA, opB, opC, 0, 0x000000FF0000000000FF00FF7F800080, 0, 0x12345678⟩,
     ⟨0x10221848, opA, opB, opC, 0, 0x0000FFFF0000000000007FFF017E8180, 0, 0x12345678⟩,
     ⟨0x10221908, opA, opB, opC, 0, 0x0000FFFF00000000FFFFFFFF0080FF80, 0, 0x12345678⟩,
     ⟨0x10221948, opA, opB, opC, 0, 0xFFFFFFFF0000000000007FFFFFFE8180, 0, 0x12345678⟩,
     ⟨0x10221A08, opA, opB, opC, 0, 0x000000007F80000000000000007F00FF, 0, 0x12345678⟩,
     ⟨0x10221A48, opA, opB, opC, 0, 0x000000007FFF80000000FFFF00FE8080, 0, 0x12345678⟩,
     ⟨0x10221B08, opA, opB, opC, 0, 0x000000000080000000000000007FFFFF, 0, 0x12345678⟩,
     ⟨0x10221B48, opA, opB, opC, 0, 0x0000000000008000FFFFFFFF00FE8080, 0, 0x12345678⟩,
     ⟨0x10221920, opA, opB, opC, 0, 0x000000000000FFFF7FFEFFFF81FDFFFD, 0, 0x12345678⟩,
     ⟨0x10221921, opA, opB, opC, 0, 0x000000010000FFFF7FFF000081FDFFFD, 0, 0x12345678⟩,
     ⟨0x10221922, opA, opB, opC, 0, 0x000000007FFFFFFF7FFE7FFE00808180, 0, 0x12345678⟩,
     ⟨0x10221924, opA, opB, opC, 0, 0x0000010000007F7F800001FD8000817E, 0, 0x12345678⟩,
     ⟨0x10221925, opA, opB, opC, 0, 0x00000000FFFF807F800000FD7FFF817E, 0, 0x12345678⟩,
     ⟨0x10221926, opA, opB, opC, 0, 0x000100007FFF7FFF80017FFD827D0200, 0, 0x12345678⟩,
     ⟨0x10221927, opA, opB, opC, 0, 0x00010000FFFFFFFF80017FFD827D0200, 1, 0x12345678⟩,
     ⟨0x10221928, opA, opB, opC, 0, 0x0000000000007FFF80007FFD80FD0200, 0, 0x12345678⟩,
     ⟨0x10221929, opA, opB, opC, 0, 0x0000000000007FFF7FFFFFFF80FD0200, 1, 0x12345678⟩,
     ⟨0x10221F88, opA, opB, opC, 0, 0x0000000000000000000000007FFFFFFF, 1, 0x12345678⟩,
     ⟨0x10221E88, opA, opB, opC, 0, 0x00000000FFFFFFFE000000007FFFFFFF, 1, 0x12345678⟩,
     ⟨0x10221E08, opA, opB, opC, 0, 0x0000037DFFFFFFFF000181FE01FF037F, 1, 0x12345678⟩] : List Row).all Row.holds = true := by decide +kernel

theorem test_int_mul2 :
    ([⟨0x10221F08, opA, opB, opC, 0, 0x0000007DFFFFFF7F00017FFE01FF017F, 0, 0x12345678⟩,
     ⟨0x10221E48, opA, opB, opC, 0, 0x00007FFFFFFF7FFF00017FFF01FF8001, 0, 0x12345678⟩,
     ⟨0x10221C02, opA, opB, opC, 0, 0x40808080C08080808080408040C08041, 0, 0x12345678⟩,
     ⟨0x10221C42, opA, opB, opC, 0, 0x40008000C00080008000400040C08041, 0, 0x12345678⟩,
     ⟨0x10221C82, opA, opB, opC, 0, 0x40000000C00000008000400040C00041, 0, 0x12345678⟩,
     ⟨0x10221D02, opA, opB, opC, 0, 0x40000000C00000000000400040C000C1, 0, 0x12345678⟩,
     ⟨0x10221D42, opA, opB, opC, 0, 0x40000000C00000000000400040C00041, 0, 0x12345678⟩,
     ⟨0x10221D82, opA, opB, opC, 0, 0x40000000C00000000000400040C00041, 0, 0x12345678⟩,
     ⟨0x10221802, opA, opB, opC, 0, 0x7FFFFFFFFFFFFFFFFFFF7FFF7FFFFF80, 0, 0x12345678⟩,
     ⟨0x10221842, opA, opB, opC, 0, 0x7FFFFFFFFFFFFFFFFFFF7FFF7F80FF01, 0, 0x12345678⟩,
     ⟨0x10221882, opA, opB, opC, 0, 0x7FFFFFFFFFFFFFFFFFFF00017F80FF01, 0, 0x12345678⟩,
     ⟨0x10221902, opA, opB, opC, 0, 0x7F000001FF00000000017F017FFF0101, 0, 0x12345678⟩,
     ⟨0x10221942, opA, opB, opC, 0, 0x7FFF0001FFFF000000017FFF7F800180, 0, 0x12345678⟩,
     ⟨0x10221982, opA, opB, opC, 0, 0x7FFFFFFFFFFFFFFF00017FFF7F80FF01, 0, 0x12345678⟩,
     ⟨0x10221A02, opA, opB, opC, 0, 0x00000001800000000001000101800101, 0, 0x12345678⟩,
     ⟨0x10221A42, opA, opB, opC, 0, 0x00000001800000000001000101FF0180, 0, 0x12345678⟩,
     ⟨0x10221A82, opA, opB, opC, 0, 0x000000018000000000017FFF01FF0180, 0, 0x12345678⟩,
     ⟨0x10221B02, opA, opB, opC, 0, 0x00FFFFFF80FFFFFFFFFF00FF0180FF80, 0, 0x12345678⟩,
     ⟨0x10221B42, opA, opB, opC, 0, 0x0000FFFF8000FFFFFFFF000101FFFF01, 0, 0x12345678⟩,
     ⟨0x10221B82, opA, opB, opC, 0, 0x0000000180000000FFFF000101FF0180, 0, 0x12345678⟩] : List Row).all Row.holds = true := by decide +kernel

theorem test_int_compare :
    ([⟨0x10221C06, opA, opB, opC, 0, 0x00000000000000000000000000000000, 0, 0x12345628⟩,
     ⟨0x10221C46, opA, opB, opC, 0, 0x00000000000000000000000000000000, 0, 0x12345628⟩,
     ⟨0x10221C86, opA, opB, opC, 0, 0x00000000000000000000000000000000, 0, 0x12345628⟩,
     ⟨0x10221E06, opA, opB, opC, 0, 0xFFFFFFFF00000000FFFF0000FF00FF00, 0, 0x12345608⟩,
     ⟨0x10221E46, opA, opB, opC, 0, 0xFFFFFFFF00000000FFFF0000FFFFFFFF, 0, 0x12345608⟩,
     ⟨0x10221E86, opA, opB, opC, 0, 0xFFFFFFFF00000000FFFFFFFFFFFFFFFF, 0, 0x12345608⟩,
     ⟨0x10221F06, opA, opB, opC, 0, 0xFF00000000FFFFFF000000FFFF0000FF, 0, 0x12345608⟩,
     ⟨0x10221F46, opA, opB, opC, 0, 0xFFFF00000000FFFF00000000FFFF0000, 0, 0x12345608⟩,
     ⟨0x10221F86, opA, opB, opC, 0, 0xFFFFFFFF0000000000000000FFFFFFFF, 0, 0x12345608⟩] : List Row).all Row.holds = true := by decide +kernel

theorem test_int_logic_shift :
    ([⟨0x10221C04, opA, opB, opC, 0, 0x00000001800000000001000101800100, 0, 0x12345678⟩,
     ⟨0x10221C44, opA, opB, opC, 0, 0x7FFFFFFE00000000FFFE00007E00FE01, 0, 0x12345678⟩,
     ⟨0x10221C84, opA, opB, opC, 0, 0x7FFFFFFFFFFFFFFFFFFF7FFF7FFFFF81, 0, 0x12345678⟩,
     ⟨0x10221CC4, opA, opB, opC, 0, 0x7FFFFFFE7FFFFFFFFFFE7FFE7E7FFE81, 0, 0x12345678⟩,
     ⟨0x10221D04, opA, opB, opC, 0, 0x8000000000000000000080008000007E, 0, 0x12345678⟩,
     ⟨0x10221804, opA, 0x0102030405060708090A0B0C0D0E0F10, opC, 0, 0xFEFFFFFF10000000FFFF0010EF20FF01, 0, 0x12345678⟩,
     ⟨0x10221844, opA, 0x0102030405060708090A0B0C0D0E0F10, opC, 0, 0xFFFDFFFF00200000FFFF10001FE0FF01, 0, 0x12345678⟩,
     ⟨0x10221884, opA, 0x0102030405060708090A0B0C0D0E0F10, opC, 0, 0xFFFFFFF700000080F0001FFFFF017F80, 0, 0x12345678⟩,
     ⟨0x10221904, opA, 0x0102030405060708090A0B0C0D0E0F10, opC, 0, 0xFEFCF8F000000000FEFC0010E0008001, 0, 0x12345678⟩,
     ⟨0x10221944, opA, 0x0102030405060708090A0B0C0D0E0F10, opC, 0, 0xFFFCFFF000000000FC0010000000FF01, 0, 0x12345678⟩,
     ⟨0x10221984, opA, 0x0102030405060708090A0B0C0D0E0F10, opC, 0, 0xFFFFFFF000000000F0001000FF010000, 0, 0x12345678⟩,
     ⟨0x10221A04, opA, 0x0102030405060708090A0B0C0D0E0F10, opC, 0, 0x3F3F1F0F040000007F3F000003020101, 0, 0x12345678⟩,
     ⟨0x10221A44, opA, 0x0102030405060708090A0B0C0D0E0F10, opC, 0, 0x1FFF0FFF02000000003F00000001FF01, 0, 0x12345678⟩,
     ⟨0x10221A84, opA, 0x0102030405060708090A0B0C0D0E0F10, opC, 0, 0x07FFFFFF00800000000FFFF000007F80, 0, 0x12345678⟩,
     ⟨0x10221B04, opA, 0x0102030405060708090A0B0C0D0E0F10, opC, 0, 0x3FFFFFFFFC000000FFFF000003FEFF01, 0, 0x12345678⟩,
     ⟨0x10221B44, opA, 0x0102030405060708090A0B0C0D0E0F10, opC, 0, 0x1FFFFFFFFE000000FFFF00000001FF01, 0, 0x12345678⟩,
     ⟨0x10221B84, opA, 0x0102030405060708090A0B0C0D0E0F10, opC, 0, 0x07FFFFFFFF800000FFFFFFF000007F80, 0, 0x12345678⟩] : List Row).all Row.holds = true := by decide +kernel

theorem test_pack_unpack :
    ([⟨0x1022180E, opA, opB, opC, 0, 0xFFFF0000FF0180010001FFFF01FFFF80, 0, 0x12345678⟩,
     ⟨0x1022184E, opA, opB, opC, 0, 0xFFFF00000001FF010001FFFF7FFF0180, 0, 0x12345678⟩,
     ⟨0x1022188E, opA, opB, opC, 0, 0xFFFFFF00FF01FFFF0001FFFF01FFFFFF, 1, 0x12345678⟩,
     ⟨0x102218CE, opA, opB, opC, 0, 0xFFFFFFFFFFFFFFFF0001FFFFFFFFFFFF, 1, 0x12345678⟩,
     ⟨0x1022190E, opA, opB, opC, 0, 0xFF0000000001FF000001000001FFFFFF, 1, 0x12345678⟩,
     ⟨0x1022194E, opA, opB, opC, 0, 0xFFFF00000000FFFF00010000FFFFFFFF, 1, 0x12345678⟩,
     ⟨0x1022198E, opA, opB, opC, 0, 0x7FFF8000FF017F800001FFFF017F7F7F, 1, 0x12345678⟩,
     ⟨0x102219CE, opA, opB, opC, 0, 0x7FFF800080007FFF0001FFFF7FFF7FFF, 1, 0x12345678⟩,
     ⟨0x10221B0E, 0x01F8F8F800080808FF8080807E070707, 0x0100000000FFFFFF01FF00FF00A5C33C, opC, 0, 0xFFFF0421C210000080007FFFFC1F5307, 0, 0x12345678⟩,
     ⟨0x10201A0E, opA, 0x7F80FF018000FFFF0001FE7F807F00FF, opC, 0, 0x007FFF80FFFF0001FF800000FFFFFFFF, 0, 0x12345678⟩,
     ⟨0x10201A4E, opA, 0x7F80FF018000FFFF0001FE7F807F00FF, opC, 0, 0x00007F80FFFFFF01FFFF8000FFFFFFFF, 0, 0x12345678⟩,
     ⟨0x10201A8E, opA, 0x7F80FF018000FFFF0001FE7F807F00FF, opC, 0, 0x00000001FFFE007FFF80007F0000FFFF, 0, 0x12345678⟩,
     ⟨0x10201ACE, opA, 0x7F80FF018000FFFF0001FE7F807F00FF, opC, 0, 0x00000001FFFFFE7FFFFF807F000000FF, 0, 0x12345678⟩,
     ⟨0x10201B4E, opA, 0x8000FFFF7C1F03E0801F7FFF0001AAAA, opC, 0, 0xFF000000FF1F1F1F001F001F00001F00, 0, 0x12345678⟩,
     ⟨0x10201BCE, opA, 0x8000FFFF7C1F03E0801F7FFF0001AAAA, opC, 0, 0xFF00001F001F1F1F00000001FF0A150A, 0, 0x12345678⟩] : List Row).all Row.holds = true := by decide +kernel

theorem test_permute :
    ([⟨0x102D1A0C, opA, 0x7F80FF018000FFFF0001FE7F807F00FF, opC, 0, 0x7F7F7F7F7F7F7F7F7F7F7F7F7F7F7F7F, 0, 0x12345678⟩,
     ⟨0x10251A4C, opA, 0x7F80FF018000FFFF0001FE7F807F00FF, opC, 0, 0xFE7FFE7FFE7FFE7FFE7FFE7FFE7FFE7F, 0, 0x12345678⟩,
     ⟨0x10221A8C, opA, 0x7F80FF018000FFFF0001FE7F807F00FF, opC, 0, 0x0001FE7F0001FE7F0001FE7F0001FE7F, 0, 0x12345678⟩,
     ⟨0x103F030C, opA, 0x7F80FF018000FFFF0001FE7F807F00FF, opC, 0, 0xFFFFFFFFFFFFFFFFFFFFFFFFFFFFFFFF, 0, 0x12345678⟩,
     ⟨0x1030034C, opA, 0x7F80FF018000FFFF0001FE7F807F00FF, opC, 0, 0xFFF0FFF0FFF0FFF0FFF0FFF0FFF0FFF0, 0, 0x12345678⟩,
     ⟨0x102F038C, opA, 0x7F80FF018000FFFF0001FE7F807F00FF, opC, 0, 0x0000000F0000000F0000000F0000000F, 0, 0x12345678⟩,
     ⟨0x1022180C, 0x000102030405060708090A0B0C0D0E0F, 0x101112131415161718191A1B1C1D1E1F, 0, 0, 0x00100111021203130414051506160717, 0, 0x12345678⟩,
     ⟨0x1022184C, 0x000102030405060708090A0B0C0D0E0F, 0x101112131415161718191A1B1C1D1E1F, 0, 0, 0x00011011020312130405141506071617, 0, 0x12345678⟩,
     ⟨0x1022188C, 0x000102030405060708090A0B0C0D0E0F, 0x101112131415161718191A1B1C1D1E1F, 0, 0, 0x00010203101112130405060714151617, 0, 0x12345678⟩,
     ⟨0x1022190C, 0x000102030405060708090A0B0C0D0E0F, 0x101112131415161718191A1B1C1D1E1F, 0, 0, 0x081809190A1A0B1B0C1C0D1D0E1E0F1F, 0, 0x12345678⟩,
     ⟨0x1022194C, 0x000102030405060708090A0B0C0D0E0F, 0x101112131415161718191A1B1C1D1E1F, 0, 0, 0x080918190A0B1A1B0C0D1C1D0E0F1E1F, 0, 0x12345678⟩,
     ⟨0x1022198C, 0x000102030405060708090A0B0C0D0E0F, 0x101112131415161718191A1B1C1D1E1F, 0, 0, 0x08090A0B18191A1B0C0D0E0F1C1D1E1F, 0, 0x12345678⟩,
     ⟨0x1022192B, 0x000102030405060708090A0B0C0D0E0F, 0x101112131415161718191A1B1C1D1E1F, 0x001F100FE0FF2131041424341E0E1D0D, 0, 0x001F100F001F0111041404141E0E1D0D, 0, 0x12345678⟩,
     ⟨0x1022192A, 0x000102030405060708090A0B0C0D0E0F, 0x101112131415161718191A1B1C1D1E1F, 0xFFFF0000F0F0F0F000000000FFFFFFFF, 0, 0x101102031415161708090A0B1C1D1E1F, 0, 0x12345678⟩,
     ⟨0x1022196C, 0x000102030405060708090A0B0C0D0E0F, 0x101112131415161718191A1B1C1D1E1F, 0, 0, 0x05060708090A0B0C0D0E0F1011121314, 0, 0x12345678⟩,
     ⟨0x1022182C, 0x000102030405060708090A0B0C0D0E0F, 0x101112131415161718191A1B1C1D1E1F, 0, 0, 0x000102030405060708090A0B0C0D0E0F, 0, 0x12345678⟩,
     ⟨0x10221BEC, 0x000102030405060708090A0B0C0D0E0F, 0x101112131415161718191A1B1C1D1E1F, 0, 0, 0x0F101112131415161718191A1B1C1D1E, 0, 0x12345678⟩] : List Row).all Row.holds = true := by decide +kernel

theorem test_whole_shift :
    ([⟨0x102219C4, opA, 0x03030303030303030303030303030303, opC, 0, 0xFFFFFFFC00000007FFF8000BFC07F808, 0, 0x12345678⟩,
     ⟨0x102219C4, opA, 0xF9F9F9F9F9F9F9F9F9F9F9F9F9F9F9F9, opC, 0, 0xFFFFFFFF00000001FFFE0002FF01FE02, 0, 0x12345678⟩,
     ⟨0x10221AC4, opA, 0x03030303030303030303030303030303, opC, 0, 0x0FFFFFFFF00000001FFFE0002FF01FE0, 0, 0x12345678⟩,
     ⟨0x10221C0C, opA, 0x5A5A5A5A5A5A5A5A5A5A5A5A5A5A5A28, opC, 0, 0x000000FFFF00017F80FF010000000000, 0, 0x12345678⟩,
     ⟨0x10221C0C, opA, 0x5A5A5A5A5A5A5A5A5A5A5A5A5A5A5A87, opC, 0, opA, 0, 0x12345678⟩,
     ⟨0x10221C4C, opA, 0x5A5A5A5A5A5A5A5A5A5A5A5A5A5A5A78, opC, 0, 0x0000000000000000000000000000007F, 0, 0x12345678⟩,
     ⟨0x10221C4C, opA, 0x5A5A5A5A5A5A5A5A5A5A5A5A5A5A5A28, opC, 0, 0x00000000007FFFFFFF80000000FFFF00, 0, 0x12345678⟩] : List Row).all Row.holds = true := by decide +kernel

theorem test_float_arith1 :
    ([⟨0x1022180A, 0x3F800000000000017F8000007F800001, 0x3380000000000001FF8000003F800000, 0x3F8000014B00000000000000FFC00000, 0, 0x3F800000000000027FC000007FC00001, 0, 0x12345678⟩,
     ⟨0x1022180A, 0x3F800000000000017F8000007F800001, 0x3380000000000001FF8000003F800000, 0x3F8000014B00000000000000FFC00000, 0x00010000, 0x3F800000000000007FC000007FC00001, 0x00010000, 0x12345678⟩,
     ⟨0x1022184A, 0x3F800000000000017F8000007F800001, 0x3380000000000001FF8000003F800000, 0x3F8000014B00000000000000FFC00000, 0, 0x3F7FFFFF000000007F8000007FC00001, 0, 0x12345678⟩,
     ⟨0x1022184A, 0x3F800000000000017F8000007F800001, 0x3380000000000001FF8000003F800000, 0x3F8000014B00000000000000FFC00000, 0x00010000, 0x3F7FFFFF000000007F8000007FC00001, 0x00010000, 0x12345678⟩,
     ⟨0x1022192E, 0x3F800000000000017F8000007F800001, 0x3380000000000001FF8000003F800000, 0x3F8000014B00000000000000FFC00000, 0, 0x3F800002008000017FC000007FC00001, 0, 0x12345678⟩,
     ⟨0x1022192E, 0x3F800000000000017F8000007F800001, 0x3380000000000001FF8000003F800000, 0x3F8000014B00000000000000FFC00000, 0x00010000, 0x3F800002000000007FC000007FC00001, 0x00010000, 0x12345678⟩,
     ⟨0x1022192F, 0x3F800000000000017F8000007F800001, 0x3380000000000001FF8000003F800000, 0x3F8000014B00000000000000FFC00000, 0, 0xBF800000807FFFFF7FC000007FC00001, 0, 0x12345678⟩,
     ⟨0x1022192F, 0x3F800000000000017F8000007F800001, 0x3380000000000001FF8000003F800000, 0x3F8000014B00000000000000FFC00000, 0x00010000, 0xBF800000800000007FC000007FC00001, 0x00010000, 0x12345678⟩,
     ⟨0x10221C0A, 0x3F800000000000017F8000007F800001, 0x3380000000000001FF8000003F800000, 0x3F8000014B00000000000000FFC00000, 0, 0x3F800000000000017F8000007FC00001, 0, 0x12345678⟩,
     ⟨0x10221C0A, 0x3F800000000000017F8000007F800001, 0x3380000000000001FF8000003F800000, 0x3F8000014B00000000000000FFC00000, 0x00010000, 0x3F800000000000007F8000007FC00001, 0x00010000, 0x12345678⟩,
     ⟨0x10221C4A, 0x3F800000000000017F8000007F800001, 0x3380000000000001FF8000003F800000, 0x3F8000014B00000000000000FFC00000, 0, 0x3380000000000001FF8000007FC00001, 0, 0x12345678⟩,
     ⟨0x10221C4A, 0x3F800000000000017F8000007F800001, 0x3380000000000001FF8000003F800000, 0x3F8000014B00000000000000FFC00000, 0x00010000, 0x3380000000000000FF8000007FC00001, 0x00010000, 0x12345678⟩,
     ⟨0x1022180A, 0x7F7FFFFF8000000000800001BF800000, 0x7F7FFFFF00000000808000007FC01234, 0x400000003F8000003F0000003F800000, 0, 0x7F80000000000000000000017FC01234, 0, 0x12345678⟩,
     ⟨0x1022180A, 0x7F7FFFFF8000000000800001BF800000, 0x7F7FFFFF00000000808000007FC01234, 0x400000003F8000003F0000003F800000, 0x00010000, 0x7F80000000000000000000007FC01234, 0x00010000, 0x12345678⟩,
     ⟨0x1022184A, 0x7F7FFFFF8000000000800001BF800000, 0x7F7FFFFF00000000808000007FC01234, 0x400000003F8000003F0000003F800000, 0, 0x0000000080000000010000007FC01234, 0, 0x12345678⟩,
     ⟨0x1022184A, 0x7F7FFFFF8000000000800001BF800000, 0x7F7FFFFF00000000808000007FC01234, 0x400000003F8000003F0000003F800000, 0x00010000, 0x0000000080000000010000007FC01234, 0x00010000, 0x12345678⟩,
     ⟨0x1022192E, 0x7F7FFFFF8000000000800001BF800000, 0x7F7FFFFF00000000808000007FC01234, 0x400000003F8000003F0000003F800000, 0, 0x7F80000000000000804000007FC01234, 0, 0x12345678⟩,
     ⟨0x1022192E, 0x7F7FFFFF8000000000800001BF800000, 0x7F7FFFFF00000000808000007FC01234, 0x400000003F8000003F0000003F800000, 0x00010000, 0x7F80000000000000800000007FC01234, 0x00010000, 0x12345678⟩,
     ⟨0x1022192F, 0x7F7FFFFF8000000000800001BF800000, 0x7F7FFFFF00000000808000007FC01234, 0x400000003F8000003F0000003F800000, 0, 0xFF7FFFFF0000000080C000007FC01234, 0, 0x12345678⟩,
     ⟨0x1022192F, 0x7F7FFFFF8000000000800001BF800000, 0x7F7FFFFF00000000808000007FC01234, 0x400000003F8000003F0000003F800000, 0x00010000, 0xFF7FFFFF0000000080C000007FC01234, 0x00010000, 0x12345678⟩] : List Row).all Row.holds = true := by decide +kernel

theorem test_float_arith2 :
    ([⟨0x10221C0A, 0x7F7FFFFF8000000000800001BF800000, 0x7F7FFFFF00000000808000007FC01234, 0x400000003F8000003F0000003F800000, 0, 0x7F7FFFFF00000000008000017FC01234, 0, 0x12345678⟩,
     ⟨0x10221C0A, 0x7F7FFFFF8000000000800001BF800000, 0x7F7FFFFF00000000808000007FC01234, 0x400000003F8000003F0000003F800000, 0x00010000, 0x7F7FFFFF00000000008000017FC01234, 0x00010000, 0x12345678⟩,
     ⟨0x10221C4A, 0x7F7FFFFF8000000000800001BF800000, 0x7F7FFFFF00000000808000007FC01234, 0x400000003F8000003F0000003F800000, 0, 0x7F7FFFFF80000000808000007FC01234, 0, 0x12345678⟩,
     ⟨0x10221C4A, 0x7F7FFFFF8000000000800001BF800000, 0x7F7FFFFF00000000808000007FC01234, 0x400000003F8000003F0000003F800000, 0x00010000, 0x7F7FFFFF80000000808000007FC01234, 0x00010000, 0x12345678⟩] : List Row).all Row.holds = true := by decide +kernel

theorem test_float_round :
    ([⟨0x10201A0A, 0, 0x40200000BF0000003FA00000BFA00000, 0, 0, 0x40000000800000003F800000BF800000, 0, 0x12345678⟩,
     ⟨0x10201A0A, 0, 0x40200000BF0000003FA00000BFA00000, 0, 0x00010000, 0x40000000800000003F800000BF800000, 0x00010000, 0x12345678⟩,
     ⟨0x10201A4A, 0, 0x40200000BF0000003FA00000BFA00000, 0, 0, 0x40000000800000003F800000BF800000, 0, 0x12345678⟩,
     ⟨0x10201A4A, 0, 0x40200000BF0000003FA00000BFA00000, 0, 0x00010000, 0x40000000800000003F800000BF800000, 0x00010000, 0x12345678⟩,
     ⟨0x10201A8A, 0, 0x40200000BF0000003FA00000BFA00000, 0, 0, 0x404000008000000040000000BF800000, 0, 0x12345678⟩,
     ⟨0x10201A8A, 0, 0x40200000BF0000003FA00000BFA00000, 0, 0x00010000, 0x404000008000000040000000BF800000, 0x00010000, 0x12345678⟩,
     ⟨0x10201ACA, 0, 0x40200000BF0000003FA00000BFA00000, 0, 0, 0x40000000BF8000003F800000C0000000, 0, 0x12345678⟩,
     ⟨0x10201ACA, 0, 0x40200000BF0000003FA00000BFA00000, 0, 0x00010000, 0x40000000BF8000003F800000C0000000, 0x00010000, 0x12345678⟩,
     ⟨0x10201A0A, 0, 0x00000001800000014B0000017F800001, 0, 0, 0x00000000800000004B0000017FC00001, 0, 0x12345678⟩,
     ⟨0x10201A0A, 0, 0x00000001800000014B0000017F800001, 0, 0x00010000, 0x00000000800000004B0000017FC00001, 0x00010000, 0x12345678⟩,
     ⟨0x10201A4A, 0, 0x00000001800000014B0000017F800001, 0, 0, 0x00000000800000004B0000017FC00001, 0, 0x12345678⟩,
     ⟨0x10201A4A, 0, 0x00000001800000014B0000017F800001, 0, 0x00010000, 0x00000000800000004B0000017FC00001, 0x00010000, 0x12345678⟩,
     ⟨0x10201A8A, 0, 0x00000001800000014B0000017F800001, 0, 0, 0x3F800000800000004B0000017FC00001, 0, 0x12345678⟩,
     ⟨0x10201A8A, 0, 0x00000001800000014B0000017F800001, 0, 0x00010000, 0x00000000800000004B0000017FC00001, 0x00010000, 0x12345678⟩,
     ⟨0x10201ACA, 0, 0x00000001800000014B0000017F800001, 0, 0, 0x00000000BF8000004B0000017FC00001, 0, 0x12345678⟩,
     ⟨0x10201ACA, 0, 0x00000001800000014B0000017F800001, 0, 0x00010000, 0x00000000800000004B0000017FC00001, 0x00010000, 0x12345678⟩] : List Row).all Row.holds = true := by decide +kernel

theorem test_float_convert :
    ([⟨0x10201B0A, 0, 0x00000001FFFFFFFF0100000180000000, 0, 0, 0x3F8000004F8000004B8000004F000000, 0, 0x12345678⟩,
     ⟨0x10211B0A, 0, 0x00000001FFFFFFFF0100000180000000, 0, 0, 0x3F0000004F0000004B0000004E800000, 0, 0x12345678⟩,
     ⟨0x103F1B0A, 0, 0x00000001FFFFFFFF0100000180000000, 0, 0, 0x30000000400000003C0000003F800000, 0, 0x12345678⟩,
     ⟨0x10201B4A, 0, 0x00000001FFFFFFFF0100000180000000, 0, 0, 0x3F800000BF8000004B800000CF000000, 0, 0x12345678⟩,
     ⟨0x10211B4A, 0, 0x00000001FFFFFFFF0100000180000000, 0, 0, 0x3F000000BF0000004B000000CE800000, 0, 0x12345678⟩,
     ⟨0x103F1B4A, 0, 0x00000001FFFFFFFF0100000180000000, 0, 0, 0x30000000B00000003C000000BF800000, 0, 0x12345678⟩,
     ⟨0x10201B8A, 0, 0x3FC00000BF0000004F8000007FC00000, 0, 0, 0x0000000100000000FFFFFFFF00000000, 1, 0x12345678⟩,
     ⟨0x10211B8A, 0, 0x3FC00000BF0000004F8000007FC00000, 0, 0, 0x0000000300000000FFFFFFFF00000000, 1, 0x12345678⟩,
     ⟨0x103F1B8A, 0, 0x3FC00000BF0000004F8000007FC00000, 0, 0, 0xC000000000000000FFFFFFFF00000000, 1, 0x12345678⟩,
     ⟨0x10201B8A, 0, 0xBFC000004F000000CF000000FF800000, 0, 0, 0x00000000800000000000000000000000, 1, 0x12345678⟩,
     ⟨0x10211B8A, 0, 0xBFC000004F000000CF000000FF800000, 0, 0, 0x00000000FFFFFFFF0000000000000000, 1, 0x12345678⟩,
     ⟨0x103F1B8A, 0, 0xBFC000004F000000CF000000FF800000, 0, 0, 0x00000000FFFFFFFF0000000000000000, 1, 0x12345678⟩,
     ⟨0x10201BCA, 0, 0x3FC00000BF0000004F8000007FC00000, 0, 0, 0x00000001000000007FFFFFFF00000000, 1, 0x12345678⟩,
     ⟨0x10211BCA, 0, 0x3FC00000BF0000004F8000007FC00000, 0, 0, 0x00000003FFFFFFFF7FFFFFFF00000000, 1, 0x12345678⟩,
     ⟨0x103F1BCA, 0, 0x3FC00000BF0000004F8000007FC00000, 0, 0, 0x7FFFFFFFC00000007FFFFFFF00000000, 1, 0x12345678⟩,
     ⟨0x10201BCA, 0, 0xBFC000004F000000CF000000FF800000, 0, 0, 0xFFFFFFFF7FFFFFFF8000000080000000, 1, 0x12345678⟩,
     ⟨0x10211BCA, 0, 0xBFC000004F000000CF000000FF800000, 0, 0, 0xFFFFFFFD7FFFFFFF8000000080000000, 1, 0x12345678⟩,
     ⟨0x103F1BCA, 0, 0xBFC000004F000000CF000000FF800000, 0, 0, 0x800000007FFFFFFF8000000080000000, 1, 0x12345678⟩] : List Row).all Row.holds = true := by decide +kernel

theorem test_float_compare :
    ([⟨0x10221CC6, 0x3F80000080000000000000017FC00000, 0x3F80000000000000000000003F800000, 0, 0, 0xFFFFFFFFFFFFFFFF0000000000000000, 0, 0x12345608⟩,
     ⟨0x10221CC6, 0x3F80000080000000000000017FC00000, 0x3F80000000000000000000003F800000, 0, 0x00010000, 0xFFFFFFFFFFFFFFFFFFFFFFFF00000000, 0x00010000, 0x12345608⟩,
     ⟨0x10221DC6, 0x3F80000080000000000000017FC00000, 0x3F80000000000000000000003F800000, 0, 0, 0xFFFFFFFFFFFFFFFFFFFFFFFF00000000, 0, 0x12345608⟩,
     ⟨0x10221DC6, 0x3F80000080000000000000017FC00000, 0x3F80000000000000000000003F800000, 0, 0x00010000, 0xFFFFFFFFFFFFFFFFFFFFFFFF00000000, 0x00010000, 0x12345608⟩,
     ⟨0x10221EC6, 0x3F80000080000000000000017FC00000, 0x3F80000000000000000000003F800000, 0, 0, 0x0000000000000000FFFFFFFF00000000, 0, 0x12345608⟩,
     ⟨0x10221EC6, 0x3F80000080000000000000017FC00000, 0x3F80000000000000000000003F800000, 0, 0x00010000, 0x00000000000000000000000000000000, 0x00010000, 0x12345628⟩,
     ⟨0x10221FC6, 0x3F80000080000000000000017FC00000, 0x3F80000000000000000000003F800000, 0, 0, 0x000000000000000080000000C0000000, 0, 0x12345608⟩,
     ⟨0x10221FC6, 0x3F80000080000000000000017FC00000, 0x3F80000000000000000000003F800000, 0, 0x00010000, 0x000000000000000000000000C0000000, 0x00010000, 0x12345608⟩,
     ⟨0x10221CC6, 0x40000000C00000003F00000040A00000, 0x3F8000003F8000007F800000BF800000, 0, 0, 0x00000000000000000000000000000000, 0, 0x12345628⟩,
     ⟨0x10221CC6, 0x40000000C00000003F00000040A00000, 0x3F8000003F8000007F800000BF800000, 0, 0x00010000, 0x00000000000000000000000000000000, 0x00010000, 0x12345628⟩,
     ⟨0x10221DC6, 0x40000000C00000003F00000040A00000, 0x3F8000003F8000007F800000BF800000, 0, 0, 0xFFFFFFFF0000000000000000FFFFFFFF, 0, 0x12345608⟩,
     ⟨0x10221DC6, 0x40000000C00000003F00000040A00000, 0x3F8000003F8000007F800000BF800000, 0, 0x00010000, 0xFFFFFFFF0000000000000000FFFFFFFF, 0x00010000, 0x12345608⟩,
     ⟨0x10221EC6, 0x40000000C00000003F00000040A00000, 0x3F8000003F8000007F800000BF800000, 0, 0, 0xFFFFFFFF0000000000000000FFFFFFFF, 0, 0x12345608⟩,
     ⟨0x10221EC6, 0x40000000C00000003F00000040A00000, 0x3F8000003F8000007F800000BF800000, 0, 0x00010000, 0xFFFFFFFF0000000000000000FFFFFFFF, 0x00010000, 0x12345608⟩,
     ⟨0x10221FC6, 0x40000000C00000003F00000040A00000, 0x3F8000003F8000007F800000BF800000, 0, 0, 0x80000000400000000000000080000000, 0, 0x12345608⟩,
     ⟨0x10221FC6, 0x40000000C00000003F00000040A00000, 0x3F8000003F8000007F800000BF800000, 0, 0x00010000, 0x80000000400000000000000080000000, 0x00010000, 0x12345608⟩] : List Row).all Row.holds = true := by decide +kernel

theorem test_estimate_special :
    ([⟨0x1020190A, 0, 0xFF80000080000000000000007F800000, 0, 0, 0x80000000FF8000007F80000000000000, 0, 0x12345678⟩,
     ⟨0x1020194A, 0, 0xFF80000080000000000000007F800000, 0, 0, 0x7FC00000FF8000007F80000000000000, 0, 0x12345678⟩,
     ⟨0x102019CA, 0, 0xFF80000080000000000000007F800000, 0, 0, 0x7FC00000FF800000FF8000007F800000, 0, 0x12345678⟩,
     ⟨0x1020198A, 0, 0xFF80000080000000000000007F800000, 0, 0, 0x000000003F8000003F8000007F800000, 0, 0x12345678⟩] : List Row).all Row.holds = true := by decide +kernel

/-! ## Loads and stores: the vectors of 96 section 2.4 -/

/-- GPR 2 and GPR 3 given, VR 1 holding E0 to EF, bytes D0 to DF at 0x4000, in the byte order given. -/
def memState (r2 r3 : Word) (le : Bool) : State :=
  { State.reset with
    gpr := (State.reset.gpr.set 2 r2).set 3 r3
    vr := State.reset.vr.set 1 0xE0E1E2E3E4E5E6E7E8E9EAEBECEDEEEF
    msr := if le then 0x02000001 else 0x02000000
    mem := (List.range 16).map fun i => (0x4000 + i, BitVec.ofNat 8 (0xD0 + i)) }

/-- `exec` answers a next state for which `p` holds. -/
def completes (i : Instr) (s : State) (p : State → Bool) : Bool :=
  match exec i s with
  | .next t => p t
  | _ => false

theorem test_lvebx_big : Writes (.lvebx 1 0 3) 0x7C20180E (memState 0 0x4006 false) 1 fun d => byte d 6 = 0xD6 :=
  writes_imp (loadElement_writes (n := 1) (k := 6) (by decide) (by decide) rfl (by decide) (by decide +kernel) (by decide))
    fun _ h => h.trans (by decide +kernel)

theorem test_lvebx_little : Writes (.lvebx 1 0 3) 0x7C20180E (memState 0 0x4006 true) 1 fun d => byte d 9 = 0xD1 :=
  writes_imp (loadElement_writes (n := 1) (k := 9) (by decide) (by decide) rfl (by decide) (by decide +kernel) (by decide))
    fun _ h => h.trans (by decide +kernel)

theorem test_lvehx_big : Writes (.lvehx 1 0 3) 0x7C20184E (memState 0 0x4007 false) 1 fun d => half d 3 = 0xD6D7 :=
  writes_imp (loadElement_writes (n := 2) (k := 3) (by decide) (by decide) rfl (by decide) (by decide +kernel) (by decide))
    fun _ h => h.trans (by decide +kernel)

theorem test_lvehx_little : Writes (.lvehx 1 0 3) 0x7C20184E (memState 0 0x4007 true) 1 fun d => half d 4 = 0xD0D1 :=
  writes_imp (loadElement_writes (n := 2) (k := 4) (by decide) (by decide) rfl (by decide) (by decide +kernel) (by decide))
    fun _ h => h.trans (by decide +kernel)

theorem test_lvewx_big : Writes (.lvewx 1 0 3) 0x7C20188E (memState 0 0x400A false) 1 fun d => word d 2 = 0xD8D9DADB :=
  writes_imp (loadElement_writes (n := 4) (k := 2) (by decide) (by decide) rfl (by decide) (by decide +kernel) (by decide))
    fun _ h => h.trans (by decide +kernel)

theorem test_lvewx_little : Writes (.lvewx 1 0 3) 0x7C20188E (memState 0 0x400A true) 1 fun d => word d 1 = 0xDCDDDEDF :=
  writes_imp (loadElement_writes (n := 4) (k := 1) (by decide) (by decide) rfl (by decide) (by decide +kernel) (by decide))
    fun _ h => h.trans (by decide +kernel)

theorem test_lvx_lvxl :
    [Instr.lvx 1 0 3, Instr.lvxl 1 0 3].all (fun i =>
      completes i (memState 0 0x400B false) (fun t => t.vreg 1 = 0xD0D1D2D3D4D5D6D7D8D9DADBDCDDDEDF) &&
      completes i (memState 0 0x400B true) (fun t => t.vreg 1 = 0xD8D9DADBDCDDDEDFD0D1D2D3D4D5D6D7)) = true := by
  decide +kernel

/-- 96 section 2.4: the effective address adds rA and rB, and rA = 0 is the literal 0. -/
theorem test_effectiveAddress :
    ((memState 0x4000 0x1F false).ea 2 3, alignTo 16 ((memState 0x4000 0x1F false).ea 2 3),
      ({ memState 0 0x4000 false with gpr := (State.reset.gpr.set 0 0xDEADBEEF).set 3 0x4000 } : State).ea 0 3) =
    (0x401F, 0x4010, 0x4000) := by decide

/-- The bytes from 0x4FFF to 0x5010 that the store leaves are these. -/
def stores (i : Instr) (r3 : Word) (le : Bool) (bytes : List Byte) : Bool :=
  completes i (memState 0 r3 le) fun t => (List.range 18).map (fun k => Memory.read t.mem (0x4FFF + k)) = bytes

theorem test_stvebx :
    stores (.stvebx 1 0 3) 0x5006 false [0, 0, 0, 0, 0, 0, 0, 0xE6, 0, 0, 0, 0, 0, 0, 0, 0, 0, 0] &&
    stores (.stvebx 1 0 3) 0x5006 true [0, 0, 0xE9, 0, 0, 0, 0, 0, 0, 0, 0, 0, 0, 0, 0, 0, 0, 0] = true := by decide +kernel

theorem test_stvehx :
    stores (.stvehx 1 0 3) 0x5007 false [0, 0, 0, 0, 0, 0, 0, 0xE6, 0xE7, 0, 0, 0, 0, 0, 0, 0, 0, 0] &&
    stores (.stvehx 1 0 3) 0x5007 true [0, 0xE8, 0xE9, 0, 0, 0, 0, 0, 0, 0, 0, 0, 0, 0, 0, 0, 0, 0] = true := by
  decide +kernel

theorem test_stvewx :
    stores (.stvewx 1 0 3) 0x500A false [0, 0, 0, 0, 0, 0, 0, 0, 0, 0xE8, 0xE9, 0xEA, 0xEB, 0, 0, 0, 0, 0] &&
    stores (.stvewx 1 0 3) 0x500A true [0, 0, 0, 0, 0, 0, 0, 0, 0, 0, 0, 0, 0, 0xE4, 0xE5, 0xE6, 0xE7, 0] = true := by
  decide +kernel

theorem test_stvx_stvxl :
    [Instr.stvx 1 0 3, Instr.stvxl 1 0 3].all (fun i =>
      stores i 0x500B false [0, 0xE0, 0xE1, 0xE2, 0xE3, 0xE4, 0xE5, 0xE6, 0xE7, 0xE8, 0xE9, 0xEA, 0xEB, 0xEC, 0xED, 0xEE,
        0xEF, 0] &&
      stores i 0x500B true [0, 0xE8, 0xE9, 0xEA, 0xEB, 0xEC, 0xED, 0xEE, 0xEF, 0xE0, 0xE1, 0xE2, 0xE3, 0xE4, 0xE5, 0xE6,
        0xE7, 0]) = true := by
  decide +kernel

theorem test_lvsl :
    [false, true].all (fun le => completes (.lvsl 1 2 3) (memState 0xFFFFFFF8 0xD le) fun t =>
      t.vreg 1 = 0x05060708090A0B0C0D0E0F1011121314) = true := by decide +kernel

theorem test_lvsr :
    [false, true].all (fun le => completes (.lvsr 1 2 3) (memState 0xFFFFFFF8 0xD le) fun t =>
      t.vreg 1 = 0x0B0C0D0E0F101112131415161718191A) = true := by decide +kernel

/-- An environment in which every listed access faults, and one in which it matches the breakpoint. -/
def faulting (k : AccessKey) : State :=
  { memState 0 0x4000 false with cfg := { Config.default with storageFaults := [k] } }

def breaking (k : AccessKey) : State :=
  { memState 0 0x4000 false with cfg := { Config.default with dabrImplemented := true, breakpoints := [k] } }

/-- The instruction stops with a data storage fault that leaves a state for which `p` holds. -/
def storageFault (i : Instr) (s : State) (p : State → Bool) : Bool :=
  match exec i s with
  | .fault (.dataStorage t) => p t
  | _ => false

/-- R517: a faulting element load, like a faulting store, leaves every register and byte. -/
theorem test_dataStorage_kept :
    storageFault (.lvewx 1 0 3) (faulting (0x4000, 4, false)) (· = faulting (0x4000, 4, false)) &&
    storageFault (.stvx 1 0 3) (faulting (0x4000, 16, true)) (· = faulting (0x4000, 16, true)) = true := by
  decide +kernel

/-- R510(c): a breakpoint match is a data storage interrupt too; the other access is not affected. -/
theorem test_breakpoint :
    storageFault (.stvebx 1 0 3) (breaking (0x4000, 1, true)) (fun t => t.mem = (memState 0 0x4000 false).mem) &&
    completes (.stvebx 1 0 3) (breaking (0x4000, 1, false)) (fun t => Memory.read t.mem 0x4000 = 0xE0) = true := by
  decide +kernel

/-! ## The bounds of the estimates: R378, R379 -/

/-- For x = 2: r = 1 + 1/32 is the last number inside the bound of `vlogefp`. -/
theorem test_logOk : logOk 0x40000000 0x3F840000 && !logOk 0x40000000 0x3F840001 = true := by decide +kernel

/-- For x = -2^-100, r = 17/16 is outside the bound of `vexptefp`, and the number below it inside; for x = 2^-100,
r = 15/16 is outside, and the number above it inside. -/
theorem test_expOk :
    !expOk 0x8D800000 0x3F880000 && expOk 0x8D800000 0x3F87FFFF && !expOk 0x0D800000 0x3F700000 &&
      expOk 0x0D800000 0x3F700001 = true := by decide +kernel

/-! ## VSCR, VRSAVE and the interrupt: 96 section 2.8, 60 R505 -/

theorem test_mtvscr :
    completes (.mtvscr 3) (start 0 0xFFFFFFFFFFFFFFFFFFFFFFFF00010001 0 0) (·.vscr = 0x00010001) &&
    completes (.mtvscr 3) (start 0 0 0 0x00010001) (·.vscr = 0) = true := by decide +kernel

/-- With NJ_ONLY, clearing VSCR leaves NJ. -/
theorem test_mtvscr_njOnly :
    completes (.mtvscr 3) { start 0 0 0 0x00010001 with cfg := { Config.default with njOnly := true } }
      (·.vscr = 0x00010000) = true := by decide +kernel

/-- R36: with NJ_ONLY the arithmetic is non-Java mode whatever VSCR holds: two denormalized numbers add to +0. -/
theorem test_njOnly_arithmetic :
    completes (.vaddfp 1 2 3) { start 1 1 0 0 with cfg := { Config.default with njOnly := true } }
      (fun t => t.vreg 1 = 0) && completes (.vaddfp 1 2 3) (start 1 1 0 0) (fun t => t.vreg 1 = 2) = true := by
  decide +kernel

theorem test_mfvscr : Writes (.mfvscr 1) 0x10200604 (start 0 0 0 0x00010001) 1 (· = 0x00010001) := by
  refine resultDrawn_writes (by decide) rfl (by decide) ?_
  have e : (start 0 0 0 0x00010001).vscrRead = 0x00010001 := by
    unfold State.vscrRead
    rw [and_or_of_covered (by decide)]
    decide
  rw [e]
  decide

/-- R460, 96 section 2.8: the reserved bits, last written as 0, read 0. -/
theorem test_mfvscr_zero : Writes (.mfvscr 1) 0x10200604 (start 0 0 0 0) 1 (· = 0) := by
  refine resultDrawn_writes (by decide) rfl (by decide) ?_
  have e : (start 0 0 0 0).vscrRead = 0 := by
    unfold State.vscrRead
    rw [show (start 0 0 0 0).vscr = 0#32 from rfl, BitVec.zero_and]
    decide
  rw [e]
  decide

theorem test_mfspr :
    completes (.mfspr 5) { State.reset with vrsave := 0xC0000001, msr := 0 } (fun t => t.greg 5 = 0xC0000001) = true := by
  decide +kernel

theorem test_mtspr :
    completes (.mtspr 5) { State.reset with gpr := State.reset.gpr.set 5 0xFFFF0000, msr := 0x00004000 }
      (fun t => t.vrsave = 0xFFFF0000) = true := by decide +kernel

/-- SAT is sticky: an instruction that does not saturate keeps it (R37). -/
theorem test_sat_sticky : completes (.vaddubs 1 2 3) (start 0 0 0 1) (·.vscr = 1) = true := by decide +kernel

/-- The worked entry of R505, with this MSR. -/
def entryState (msr : Word) : State := { start 7 9 0 0 with pc := 0x2000, msr := msr }

theorem test_interrupt :
    completes (.vaddubm 1 2 3) (entryState 0x0000D032) (fun t => { t with srr1 := 0 } =
      { entryState 0x0000D032 with srr0 := 0x2000, msr := 0x1000, pc := 0x0F20, draws := 1 }) &&
    completes (.vaddubm 1 2 3) (entryState 0x0001D032) (fun t => { t with srr1 := 0 } =
      { entryState 0x0001D032 with srr0 := 0x2000, msr := 0x00011001, pc := 0x0F20, draws := 1 }) = true := by
  decide +kernel

/-- R505, SRR1: MSR as it reads, no reserved bit having been written as 1. -/
theorem test_interrupt_srr1 :
    (entryState 0x0000D032).takeUnavailable.srr1 = 0x0000D032 ∧
      (entryState 0x0001D032).takeUnavailable.srr1 = 0x0000D032 := by
  constructor <;> rw [State.takeUnavailable_srr1, State.msrRead_eq (by decide)] <;> decide

/-- R504: with MSR[IP] = 1 the other base. -/
theorem test_interrupt_base :
    completes (.mfvscr 1) (entryState 0x00010040) (fun t => t.pc = 0xFFF00F20 ∧ t.msr = 0x00010041) = true := by
  decide +kernel

/-- R503: an implementation that copies MSR bit 15 to SRR1. -/
theorem test_interrupt_extra :
    ({ entryState 0x00010040 with cfg := { Config.default with srr1ExtraBits := 0x00010000 } } :
      State).takeUnavailable.srr1 = 0x00010040 := by
  rw [State.takeUnavailable_srr1, State.msrRead_eq (by decide)]
  decide

/-- R48: the reserved bits of MSR. -/
theorem test_msrReserved :
    (List.range 32).filter (bit msrReserved) = [0, 1, 2, 3, 4, 5, 7, 8, 9, 10, 11, 12, 14, 24, 28, 29] := by decide

/-- 95 section 3: the interrupt comes before a data storage interrupt. -/
theorem test_interrupt_first :
    completes (.lvx 1 0 3) { faulting (0x4000, 16, false) with msr := 0 } (·.pc = 0x0F20) = true := by decide +kernel

/-! ## Streams: 96 section 2.8, the example of R471 -/

/-- GPR 3 = 0x1010, GPR 4 = 0x02030040, MSR[DR] = 1, MSR[VEC] = 0; the stream facility present or not. -/
def streamState (present : Bool) : State :=
  { State.reset with
    gpr := (State.reset.gpr.set 3 0x1010).set 4 0x02030040
    msr := 0x00000010
    cfg := { Config.default with streamsImplemented := present, dsttDistinct := true, dststDistinct := true } }

theorem test_streams_absent :
    [Instr.dst 2 3 4, .dstt 0 3 4, .dstst 1 3 4, .dststt 3 3 4, .dss 2, .dssall 0, .dst 0 0 4].all (fun i =>
      completes i (streamState false) (fun t => t = { streamState false with pc := 4 })) = true := by decide +kernel

/-- The stream that the descriptor 0x02030040 describes. -/
def exampleStream : Stream :=
  { ea := 0x1010, size := 2, count := 3, stride := 64, transient := false, forStore := false, pr := false, unit := 0,
    block := 0 }

theorem test_dst : completes (.dst 2 3 4) (streamState true) (fun t => t.stream 2 = some exampleStream) = true := by
  decide +kernel

theorem test_dstt :
    completes (.dstt 0 3 4) (streamState true) (fun t => t.stream 0 = some { exampleStream with transient := true }) =
      true := by decide +kernel

theorem test_dstst :
    completes (.dstst 1 3 4) (streamState true) (fun t => t.stream 1 = some { exampleStream with forStore := true }) =
      true := by decide +kernel

theorem test_dststt :
    completes (.dststt 3 3 4) (streamState true) (fun t =>
      t.stream 3 = some { exampleStream with transient := true, forStore := true }) = true := by decide +kernel

/-- The state with the example's stream in slot 2. -/
def runningState : State :=
  { (streamState true).setStream 2 (some exampleStream) with turn := 2, schedule := [.prefetch, .abort 2] }

theorem test_dss :
    completes (.dss 2) runningState (fun t => t.stream 2 = none) &&
    completes (.dss 1) runningState (fun t => t.stream 2 = some exampleStream) = true := by decide +kernel

theorem test_dssall : completes (.dssall 3) runningState (fun t => t.streams = Vector.replicate 4 none) = true := by
  decide +kernel

/-- A zero descriptor means 32 quad words, 256 units, 32768 bytes; a stride of 0xFFC0 is -64 (R463). -/
theorem test_descriptor :
    (descriptorSize 0, descriptorCount 0, descriptorStride 0, descriptorStride 0xFFC0) = (32, 256, 32768, -64) := by
  decide

/-- R471: the six cache blocks of the example, and its end. -/
theorem test_blockAddresses :
    [(0, 0), (0, 1), (1, 0), (1, 1), (2, 0), (2, 1)].map (fun p : Nat × Nat =>
      ({ exampleStream with unit := p.1, block := p.2 } : Stream).blockAddress 5) =
    [0x1000, 0x1020, 0x1040, 0x1060, 0x1080, 0x10A0] := by decide +kernel

theorem test_streamNext :
    [(0, 0), (0, 1), (2, 1)].map (fun p : Nat × Nat =>
      (({ exampleStream with unit := p.1, block := p.2 } : Stream).next 5).map fun t => (t.unit, t.block)) =
    [some (0, 1), some (1, 0), none] := by decide +kernel

/-! ## One step: fetch in both byte orders (R131, R96) -/

/-- `step` answers a next state for which `p` holds. -/
def stepsTo (s : State) (p : State → Bool) : Bool :=
  match step s with
  | .next t => p t
  | _ => false

/-- `vspltisw v3,-1`, 0x107F038C, placed at address 0. -/
theorem test_step_big :
    stepsTo { State.reset with mem := [(0, 0x10), (1, 0x7F), (2, 0x03), (3, 0x8C)] }
      (fun t => t.vreg 3 = BitVec.allOnes 128 ∧ t.pc = 4) = true := by decide +kernel

/-- In little-endian mode the word at pc = 0 lies at 4 (R96). -/
theorem test_step_little :
    stepsTo { State.reset with msr := 0x02000001, mem := [(4, 0x10), (5, 0x7F), (6, 0x03), (7, 0x8C)] }
      (fun t => t.vreg 3 = BitVec.allOnes 128 ∧ t.pc = 4) = true := by decide +kernel

theorem test_withFetchWord :
    stepsTo (State.reset.withFetchWord 32 0x107F038C) (fun t => t.vreg 3 = BitVec.allOnes 128) &&
    stepsTo (({ State.reset with msr := 0x02000001 } : State).withFetchWord 32 0x107F038C)
      (fun t => t.vreg 3 = BitVec.allOnes 128) = true := by decide +kernel

/-- After an instruction the engine makes its next move. -/
theorem test_step_engine :
    stepsTo (runningState.withFetchWord 32 0x7CA043A6) (fun t =>
      t.stream 2 = some { exampleStream with block := 1 } ∧ t.turn = 3 ∧ t.schedule = [.abort 2]) = true := by
  decide +kernel

/-! ## Witnesses: for each obligation with hypotheses, a state and operands that meet them all. The first ones ask for
MSR[VEC] = 1 only, of any state and operands. -/

theorem witness_AddSubModulo : State.reset.vecEnabled = true := by decide

theorem witness_CarryOuts : State.reset.vecEnabled = true := by decide

theorem witness_UnsignedSaturatingAddSub : State.reset.vecEnabled = true := by decide

theorem witness_SignedSaturatingAddSub : State.reset.vecEnabled = true := by decide

theorem witness_Multiplies : State.reset.vecEnabled = true := by decide

theorem witness_MultiplyAdds : State.reset.vecEnabled = true := by decide

theorem witness_MultiplySumsModulo : State.reset.vecEnabled = true := by decide

theorem witness_MultiplySumsSaturating : State.reset.vecEnabled = true := by decide

theorem witness_SumsAcross : State.reset.vecEnabled = true := by decide

theorem witness_Averages : State.reset.vecEnabled = true := by decide

theorem witness_MaximaMinima : State.reset.vecEnabled = true := by decide

theorem witness_IntegerCompares : State.reset.vecEnabled = true := by decide

theorem witness_Logicals : State.reset.vecEnabled = true := by decide

theorem witness_RotatesShifts : State.reset.vecEnabled = true := by decide

theorem witness_PacksModulo : State.reset.vecEnabled = true := by decide

theorem witness_PacksSaturating : State.reset.vecEnabled = true := by decide

theorem witness_Unpacks : State.reset.vecEnabled = true := by decide

theorem witness_Splats : State.reset.vecEnabled = true := by decide

theorem witness_Merges : State.reset.vecEnabled = true := by decide

theorem witness_PermuteSelectShift : State.reset.vecEnabled = true := by decide

theorem witness_FloatAddSub : State.reset.vecEnabled = true := by decide

theorem witness_FloatMultiplyAdd : State.reset.vecEnabled = true := by decide

theorem witness_FloatMaximumMinimum : State.reset.vecEnabled = true := by decide

theorem witness_RoundsToInteger : State.reset.vecEnabled = true := by decide

theorem witness_ConvertsFromFixed : State.reset.vecEnabled = true := by decide

theorem witness_ConvertsToFixed : State.reset.vecEnabled = true := by decide

theorem witness_FloatCompares : State.reset.vecEnabled = true := by decide

theorem witness_FloatBounds : State.reset.vecEnabled = true := by decide

theorem witness_ReciprocalEstimate : State.reset.vecEnabled = true := by decide

theorem witness_ReciprocalRootEstimate : State.reset.vecEnabled = true := by decide

theorem witness_ShiftControls : State.reset.vecEnabled = true := by decide

theorem witness_VscrMoves : State.reset.vecEnabled = true := by decide

/-- Sixteen equal counts, the least and the greatest. -/
theorem witness_WholeShifts :
    (start 1 0x07070707070707070707070707070707 0 0).vecEnabled = true ∧
      [0, 0x07070707070707070707070707070707].all (fun b : Vec =>
        (List.range 16).all fun i => (byte b i).toNat % 8 = b.toNat % 8) = true := by decide +kernel

/-- 0.5, a distance of more than 1/8 from 1. -/
theorem witness_LogarithmEstimate :
    State.reset.vecEnabled = true ∧ fpValue 0x3F000000 = 1 / 2 ∧ |fpValue 0x3F000000 - 1| > 1 / 8 := by
  have h : fpValue 0x3F000000 = 1 / 2 := by
    have e : fpExp 0x3F000000 = 126 := by decide
    have f : fpFrac 0x3F000000 = 0 := by decide
    have g : fpSign 0x3F000000 = false := by decide
    simp only [fpValue, e, f, g]
    norm_num
  refine ⟨by decide, h, ?_⟩
  rw [h]
  norm_num [abs_of_neg]

/-- -149.0, the least integer operand with an exact result. -/
theorem witness_ExponentialEstimate : State.reset.vecEnabled = true ∧ fpValue 0xC3150000 = -149 := by
  refine ⟨by decide, ?_⟩
  have e : fpExp 0xC3150000 = 134 := by decide
  have f : fpFrac 0xC3150000 = 0x150000 := by decide
  have g : fpSign 0xC3150000 = true := by decide
  simp only [fpValue, e, f, g]
  norm_num

/-- Both byte orders, the first and the last quad word. -/
theorem witness_QuadWordLoads :
    [false, true].all (fun le => [(0 : Word), 0xFFFFFFFF].all fun r => (memState 0 r le).vecEnabled &&
      decide ((memState 0 r le).accessible (alignTo 16 ((memState 0 r le).ea 0 3)) 16 false)) = true := by decide +kernel

theorem witness_ElementLoads :
    [false, true].all (fun le => [1, 2, 4].all fun n => [(0 : Word), 0xFFFFFFFF].all fun r =>
      (memState 0 r le).vecEnabled &&
        decide ((memState 0 r le).accessible (alignTo n ((memState 0 r le).ea 0 3)) n false)) = true := by decide +kernel

theorem witness_ElementStores :
    [false, true].all (fun le => [1, 2, 4].all fun n => [(0 : Word), 0xFFFFFFFF].all fun r =>
      (memState 0 r le).vecEnabled &&
        decide ((memState 0 r le).accessible (alignTo n ((memState 0 r le).ea 0 3)) n true)) = true := by decide +kernel

theorem witness_QuadWordStores :
    [false, true].all (fun le => [(0 : Word), 0xFFFFFFFF].all fun r => (memState 0 r le).vecEnabled &&
      decide ((memState 0 r le).accessible (alignTo 16 ((memState 0 r le).ea 0 3)) 16 true)) = true := by decide +kernel

theorem witness_StoreThenLoad :
    (memState 0 0xFFFFFFFF true).vecEnabled = true ∧
      (memState 0 0xFFFFFFFF true).accessible (alignTo 16 ((memState 0 0xFFFFFFFF true).ea 0 3)) 16 true ∧
      (memState 0 0xFFFFFFFF true).accessible (alignTo 16 ((memState 0 0xFFFFFFFF true).ea 0 3)) 16 false := by decide

/-- The three clauses: an element load, a quad-word load, a store. -/
theorem witness_DataStorageStops :
    [(4, false), (16, false), (1, true), (16, true)].all (fun p : Nat × Bool =>
      (faulting (0x4000, p.1, p.2)).vecEnabled &&
        (faulting (0x4000, p.1, p.2)).accessFaults (alignTo p.1 ((faulting (0x4000, p.1, p.2)).ea 0 3)) p.1 p.2) = true := by
  decide +kernel

theorem witness_StreamsNoOps : (streamState false).cfg.streamsImplemented = false := by decide

theorem witness_StreamTouches :
    (streamState true).cfg.streamsImplemented = true ∧ (3 : GReg) ≠ 0 ∧ bit (streamState true).msr 27 = true ∧
      encX (streamField 1 2) 3 4 374 = 0x7E4322EC := by decide

/-- Both clauses. -/
theorem witness_StreamRefusals :
    (streamState true).cfg.streamsImplemented = true ∧ (3 : GReg) ≠ 0 ∧
      bit ({ streamState true with msr := 0 } : State).msr 27 = false := by decide

/-- Both clauses: the last block of the example's stream, and an abort. -/
theorem witness_StreamProgress :
    (({ runningState with schedule := [.abort 2] } : State).cfg.streamsImplemented = true) ∧
      runningState.schedule = .prefetch :: [.abort 2] ∧ runningState.stream runningState.turn = some exampleStream ∧
      bit runningState.msr 27 = true ∧ bit runningState.msr 17 = exampleStream.pr ∧
      runningState.accessFaults (exampleStream.blockAddress 5) (2 ^ 5) false = false := by decide +kernel

theorem witness_UnavailableInterrupt :
    needsVector (.vaddubm 1 2 3) = true ∧ bit (entryState 0x0000D032).msr 6 = false := by decide

/-- The three outcomes: `vspltisw v3,-1` completes, a faulting `lvx v1,0,r3` faults, `dst` untranslated is refused. -/
theorem witness_StepRunsDecoded :
    [(State.reset, 0x107F038C), (faulting (0x4000, 16, false), 0x7C2018CE),
      ({ streamState true with msr := 0 }, 0x7C4322AC)].all (fun p : State × Nat =>
        let s := p.1.withFetchWord 32 p.2
        !s.cfg.traceImplemented && s.pc.toNat % 4 == 0 &&
          match decode s.fetch with
          | .ok i => i.wellFormed
          | .error _ => false) = true := by decide +kernel

/-- The clauses: an unassigned extended opcode, a reserved field, two base instructions, the VA numbers 35 and 45. -/
theorem witness_UndecodedStops :
    [(0x100007FF, DecodeError.illegal), (0x10210604, .reserved), (0x7CA802A6, .base), (0x38630010, .base),
      (0x10000023, .illegal), (0x1000002D, .illegal)].all (fun p : Nat × DecodeError =>
        let s := State.reset.withFetchWord 32 p.1
        !s.cfg.traceImplemented && s.pc.toNat % 4 == 0 && s.fetch == BitVec.ofNat 32 p.1 && rejects p.1 p.2) = true := by
  decide +kernel

theorem witness_EncodeDecode : decode 0x104F0A0C = .ok (.vspltb 2 15 1) := by decide +kernel

/-- A state with the invariant whose next step completes. -/
theorem witness_StepKeepsInvariant :
    (State.reset.withFetchWord 32 0x107F038C).Inv ∧ stepsTo (State.reset.withFetchWord 32 0x107F038C) (fun _ => true) =
      true := by
  refine ⟨⟨by decide +kernel, by decide +kernel, by decide +kernel, by decide +kernel, ?_⟩, by decide +kernel⟩
  intro tag st h
  have e : ∀ tag, (State.reset.withFetchWord 32 0x107F038C).stream tag = none := by decide +kernel
  rw [e] at h
  cases h

theorem witness_WhoWritesWhat : completes (.vaddubs 1 2 3) (start 0 0 0 1) (fun _ => true) = true := by decide +kernel

theorem witness_OnlyStoresWriteMemory :
    completes (.stvebx 1 0 3) (memState 0 0x5006 false) (fun t =>
      Memory.read t.mem 0x5006 ≠ Memory.read (memState 0 0x5006 false).mem 0x5006) = true := by decide +kernel

theorem witness_EveryInstructionCompletes :
    State.reset.cfg.storageFaults = [] ∧ State.reset.cfg.dabrImplemented = false ∧
      State.reset.cfg.streamsImplemented = false := by decide

end Sys2Proof.Tests
end

/-! PROOFS. Every instruction answers a next state where no access faults, no breakpoint is implemented and no stream
facility exists: each ends in one of the shared completions, and those that could stop are the accesses and the stream
touches. -/

namespace Sys2Proof.Machine

/-- With the interrupt as a next state, an instruction that needs the facility completes if its own effect does (R500). -/
theorem whenAvailable_completes {s : State} {k : Result} (hk : ∃ t, k = .next t) :
    ∃ t, whenAvailable s k = .next t := by
  rcases whenAvailable_cases s k with ⟨-, hon⟩ | ⟨-, hoff⟩
  · rwa [hon]
  · exact ⟨_, hoff⟩

theorem accessFaults_of_no_storageFaults {s : State} (hf : s.cfg.storageFaults = []) (ea : Word) (n : Nat)
    (store : Bool) : s.accessFaults ea n store = false := by
  simp [State.accessFaults, hf]

theorem breakpointHit_of_no_dabr {s : State} (hb : s.cfg.dabrImplemented = false) (ea : Word) (n : Nat)
    (store : Bool) : s.breakpointHit ea n store = false := by
  simp [State.breakpointHit, hb]

/-- The ten loads and stores: neither cause of a data storage interrupt is there (R510). -/
theorem access_completes {s : State} (hf : s.cfg.storageFaults = []) (hb : s.cfg.dabrImplemented = false)
    {ea : Word} {n : Nat} {store : Bool} {left u : State} :
    ∃ t, whenAvailable s (withAccess s ea n store left (.next u)) = .next t :=
  whenAvailable_completes ⟨u, withAccess_ok (accessFaults_of_no_storageFaults hf ea n store)
    (breakpointHit_of_no_dabr hb ea n store) left _⟩

/-- Where the byte counts disagree the result is free, but the instruction completes all the same (R449). -/
theorem shiftWhole_completes (s : State) (vD vB : VReg) (d : Vec) : ∃ t, shiftWhole s vD vB d = .next t := by
  unfold shiftWhole
  split
  · exact whenAvailable_completes ⟨_, rfl⟩
  · exact whenAvailable_completes ⟨_, rfl⟩

/-- Without the facility a stream touch is a no-op, whatever its form (R469). -/
theorem streamTouch_noop {s : State} (hs : s.cfg.streamsImplemented = false) (transient forStore : Bool)
    (strm : BitVec 2) (rA rB : GReg) : streamTouch s transient forStore strm rA rB = .next s.advance := by
  simp [streamTouch, hs]

/-- Settles O60, by cases on the instruction: the loads and stores, the stream touches and the whole-register shifts by
the lemmas above; `dss`, `dssall`, `mfspr` and `mtspr` answer a next state outright; every other instruction's own effect
is a next state. -/
theorem everyInstructionCompletes : Obligations.EveryInstructionCompletes := by
  intro i s hf hb hs
  cases i
  case lvebx | lvehx | lvewx | lvx | lvxl | stvebx | stvehx | stvewx | stvx | stvxl => exact access_completes hf hb
  case dst | dstt | dstst | dststt => exact ⟨_, streamTouch_noop hs _ _ _ _ _⟩
  case vsl | vsr => exact shiftWhole_completes s _ _ _
  case dss | dssall | mfspr | mtspr => exact ⟨_, rfl⟩
  all_goals exact whenAvailable_completes ⟨_, rfl⟩

end Sys2Proof.Machine

/-! PROOFS. The state of the machine: what each instruction may write, that every step keeps the invariant, the
interrupt of R500 bit by bit, and the moves of VRSAVE. `exec_effect` says once what an instruction that answers a next
state has done; the statements over all instructions are cases on it. -/

namespace Sys2Proof.Machine

/-! ## Bits of 32-bit registers (R8) -/

theorem bit_and (x y : Word) (k : Nat) : bit (x &&& y) k = (bit x k && bit y k) := BitVec.getLsbD_and

theorem bit_or (x y : Word) (k : Nat) : bit (x ||| y) k = (bit x k || bit y k) := BitVec.getLsbD_or

theorem bit_bitMask {i k : Nat} (hi : i < 32) (hk : k < 32) : bit (bitMask i) k = decide (k = i) := by
  unfold bit bitMask
  rw [BitVec.getLsbD_twoPow]
  have : 31 - i = 31 - k ↔ k = i := by omega
  simp only [this, Bool.and_eq_right_iff_imp, decide_eq_true_eq]
  omega

/-- Setting SAT leaves every other bit of VSCR (R37). -/
theorem bit_or_sat (x : Word) {k : Nat} (hk : k < 31) : bit (x ||| bitMask 31) k = bit x k := by
  rw [bit_or, bit_bitMask (by decide) (by omega), decide_eq_false (by omega), Bool.or_false]

/-- Writing the record field leaves every bit of CR outside CR6 (R44). -/
theorem bit_setCr6 (s : State) (f : BitVec 4) {k : Nat} (hk : k < 32) (h : k < 24 ∨ 28 ≤ k) :
    bit (s.setCr6 f).cr k = bit s.cr k := by
  have hkept : ∀ k < 32, k < 24 ∨ 28 ≤ k → bit 0xFFFFFF0F k = true := by decide
  have hfield : bit (f.setWidth 32 <<< 4) k = false := by
    unfold bit
    rw [BitVec.getLsbD_shiftLeft, BitVec.getLsbD_setWidth]
    rcases h with h | h
    · simp [BitVec.getLsbD_of_ge f (31 - k - 4) (by omega)]
    · simp [show 31 - k < 4 by omega]
  rw [State.setCr6, bit_or, bit_and, hkept k hk h, hfield, Bool.and_true, Bool.or_false]

/-! ## What an instruction that answers a next state has done -/

/-- The next states that `exec i s` can answer. -/
inductive ExecEffect (s : State) : Instr → State → Prop where
  /-- The AltiVec unavailable interrupt (R500). -/
  | interrupt {i : Instr} : needsVector i = true → s.vecEnabled = false → ExecEffect s i s.takeUnavailable
  /-- A vector register written, with CR6 and SAT at most (R37, R44). -/
  | vector {i : Instr} (vr : Vector Vec 32) (cr vscr : Word) (draws : Nat) :
      (cr = s.cr ∨ ∃ f, cr = (s.setCr6 f).cr) → (vscr = s.vscr ∨ vscr = s.vscr ||| bitMask 31) →
      ExecEffect s i { s with vr := vr, cr := cr, vscr := vscr, draws := draws, pc := s.pc + 4 }
  /-- VSCR written (R461). -/
  | vscr (vB : VReg) : ExecEffect s (.mtvscr vB) (s.writeVscr (word (s.vreg vB) 3)).advance
  /-- Bytes of memory written (R395 to R399). -/
  | store {i : Instr} (a : Word) (n : Nat) (x : BitVec (8 * n)) : ExecEffect s i (s.memWrite a n x).advance
  /-- The stream table changed (R464 to R467), or nothing but pc (R469). -/
  | streams {i : Instr} (table : Vector (Option Stream) 4) : StreamChange s { s with streams := table } →
      ExecEffect s i { s with pc := s.pc + 4, streams := table }
  /-- VRSAVE read to a GPR (R42). -/
  | mfspr (r : GReg) : ExecEffect s (.mfspr r) (s.setGreg r s.vrsave).advance
  /-- VRSAVE written from a GPR (R42). -/
  | mtspr (r : GReg) : ExecEffect s (.mtspr r) { s.advance with vrsave := s.greg r }

theorem VectorWrite.effect {s t : State} (i : Instr) (h : VectorWrite s t) : ExecEffect s i t := by
  rw [h.shape]
  exact .vector _ _ _ _ h.cr h.vscr

theorem StoreWrite.effect {s t : State} {i : Instr} (h : StoreWrite i s t) : ExecEffect s i t := by
  obtain ⟨n, a, x, -, -, -, rfl, -⟩ := h
  exact .store a n x

/-- The three laws of `exec` in one: an instruction that needs the facility takes the interrupt or has its own effect,
and one that does not has its own effect. -/
theorem exec_effect {i : Instr} {s t : State} (h : exec i s = .next t) : ExecEffect s i t := by
  cases hn : needsVector i with
  | false =>
    rcases exec_plain_cases hn h with ⟨ht, hc⟩ | ⟨r, rfl, rfl⟩ | ⟨r, rfl, rfl⟩
    · rw [ht]
      exact .streams t.streams hc
    · exact .mfspr r
    · exact .mtspr r
  | true =>
    cases hv : s.vecEnabled with
    | false =>
      cases (exec_off hn hv).symm.trans h
      exact .interrupt hn hv
    | true =>
      rcases exec_on_cases hv hn h with hw | ⟨vB, rfl, rfl⟩ | hw
      · exact hw.effect i
      · exact .vscr vB
      · exact hw.effect

/-! ## Who writes what (R30) -/

section Frames

variable {i : Instr} {s t : State}

theorem ExecEffect.cfg_eq (h : ExecEffect s i t) : t.cfg = s.cfg := by
  cases h with
  | interrupt => exact s.takeUnavailable_cfg
  | _ => rfl

theorem ExecEffect.dar_eq (h : ExecEffect s i t) : t.dar = s.dar := by
  cases h with
  | interrupt => exact s.takeUnavailable_dar
  | _ => rfl

/-- Only `mtvscr` clears SAT or changes another bit of VSCR (R37). -/
theorem ExecEffect.vscr_bits (h : ExecEffect s i t) (hi : ∀ v, i ≠ .mtvscr v) :
    (bit s.vscr 31 = true → bit t.vscr 31 = true) ∧ ∀ k < 31, bit t.vscr k = bit s.vscr k := by
  cases h with
  | vscr vB => exact absurd rfl (hi vB)
  | vector vr cr vscr draws hcr hvscr =>
    rcases hvscr with rfl | rfl
    · exact ⟨id, fun _ _ => rfl⟩
    · exact ⟨fun h => by simp only [bit_or, h, Bool.true_or], fun _ hk => bit_or_sat s.vscr hk⟩
  | interrupt => rw [s.takeUnavailable_vscr]; exact ⟨id, fun _ _ => rfl⟩
  | _ => exact ⟨id, fun _ _ => rfl⟩

/-- Only the bits of CR6 change (R44). -/
theorem ExecEffect.cr_bits (h : ExecEffect s i t) : ∀ k < 32, k < 24 ∨ 28 ≤ k → bit t.cr k = bit s.cr k := by
  intro k hk hout
  cases h with
  | vector vr cr vscr draws hcr hvscr =>
    rcases hcr with rfl | ⟨f, rfl⟩
    · rfl
    · exact bit_setCr6 s f hk hout
  | interrupt => rw [s.takeUnavailable_cr]
  | _ => rfl

/-- Only `mtspr` writes VRSAVE (R41). -/
theorem ExecEffect.vrsave_eq (h : ExecEffect s i t) (hi : ∀ r, i ≠ .mtspr r) : t.vrsave = s.vrsave := by
  cases h with
  | mtspr r => exact absurd rfl (hi r)
  | interrupt => exact s.takeUnavailable_vrsave
  | _ => rfl

/-- Only `mfspr` writes a GPR (R402, R456). -/
theorem ExecEffect.gpr_eq (h : ExecEffect s i t) (hi : ∀ r, i ≠ .mfspr r) : t.gpr = s.gpr := by
  cases h with
  | mfspr r => exact absurd rfl (hi r)
  | interrupt => exact s.takeUnavailable_gpr
  | _ => rfl

/-- Only the interrupt writes MSR, SRR0 and SRR1, and without it pc advances (R33, R500). -/
theorem ExecEffect.status_eq (h : ExecEffect s i t) (hon : s.vecEnabled = true ∨ needsVector i = false) :
    t.msr = s.msr ∧ t.srr0 = s.srr0 ∧ t.srr1 = s.srr1 ∧ t.pc = s.pc + 4 := by
  cases h with
  | interrupt hn hv => simp [hn, hv] at hon
  | _ => exact ⟨rfl, rfl, rfl, rfl⟩

end Frames

/-- Settles O58, from what the effect of an instruction leaves of each register. -/
theorem whoWritesWhat : Obligations.WhoWritesWhat := by
  intro i s t h
  have he := exec_effect h
  exact ⟨he.vscr_bits, he.cr_bits, he.vrsave_eq, he.gpr_eq, he.dar_eq, he.cfg_eq, he.status_eq⟩

/-! ## Word-aligned addresses (R33) -/

theorem aligned_iff (p : Word) : p.extractLsb' 0 2 = 0 ↔ p.toNat % 4 = 0 := by
  rw [← BitVec.toNat_inj, BitVec.extractLsb'_toNat]
  simp

theorem aligned_add {p q : Word} (hp : p.extractLsb' 0 2 = 0) (hq : q.extractLsb' 0 2 = 0) :
    (p + q).extractLsb' 0 2 = 0 := by
  rw [aligned_iff] at *
  rw [BitVec.toNat_add]
  omega

/-- The AltiVec unavailable interrupt vector is word-aligned (R504). -/
theorem interruptVector_aligned {s : State} (hc : Config.legal s.cfg) :
    (s.ivBase + unavailableOffset).extractLsb' 0 2 = 0 := by
  refine aligned_add ?_ (by decide)
  unfold State.ivBase
  split
  · exact hc.2
  · exact hc.1

/-! ## The stream table stays legal (R58, R471) -/

theorem State.streamsLegal_congr {s t : State} (hs : s.streamsLegal) (ht : t.streams = s.streams)
    (hc : t.cfg = s.cfg) : t.streamsLegal := by
  intro tag st h
  rw [hc]
  refine hs tag st ?_
  rw [← h, State.stream, State.stream, ht]

/-- A slot given nothing or a legal stream leaves the table legal. -/
theorem State.setStream_streamsLegal {s : State} (hs : s.streamsLegal) (tag : BitVec 2) {x : Option Stream}
    (hx : ∀ st, x = some st → s.cfg.streamsImplemented = true ∧ st.legal s.cfg.cacheBlockLog2 = true) :
    (s.setStream tag x).streamsLegal := by
  intro tag' st h
  rw [State.setStream_stream] at h
  split at h
  · exact hx st h
  · exact hs tag' st h

theorem State.clearStreams_streamsLegal (s : State) : s.clearStreams.streamsLegal := by
  intro tag st h
  rw [State.clearStreams_stream] at h
  cases h

/-- What a stream instruction does keeps the table legal. -/
theorem StreamChange.streamsLegal {s t : State} (h : StreamChange s t) (hc : t.cfg = s.cfg) (hs : s.streamsLegal) :
    t.streamsLegal := by
  rcases h with ht | ⟨himpl, ht | ⟨tag, x, ht, hx⟩⟩
  · exact State.streamsLegal_congr hs ht hc
  · exact State.streamsLegal_congr s.clearStreams_streamsLegal ht hc
  · refine State.streamsLegal_congr (State.setStream_streamsLegal hs tag fun st hst => ⟨himpl, ?_⟩) ht hc
    rcases hx with rfl | ⟨transient, forStore, rA, rB, rfl⟩
    · cases hst
    · cases hst
      exact s.newStream_legal transient forStore rA rB _

theorem State.prefetchFrom_streamsLegal {s : State} (hs : s.streamsLegal) (fuel : Nat) (tag : BitVec 2) :
    (s.prefetchFrom fuel tag).streamsLegal := by
  induction fuel generalizing tag with
  | zero => exact hs
  | succ fuel ih =>
    unfold State.prefetchFrom
    split
    · next st hst =>
      obtain ⟨himpl, hlegal⟩ := hs tag st hst
      split
      · refine State.streamsLegal_congr (State.setStream_streamsLegal hs tag fun st' h => ⟨himpl, ?_⟩) rfl rfl
        split at h
        · cases h
        · exact Stream.next_legal hlegal h
      · exact ih _
    · exact ih _

theorem State.makeMove_streamsLegal {s : State} (hs : s.streamsLegal) (m : EngineMove) :
    (s.makeMove m).streamsLegal := by
  cases m with
  | idle => exact hs
  | prefetch => exact State.prefetchFrom_streamsLegal hs 4 s.turn
  | abort tag => exact State.setStream_streamsLegal hs tag fun _ h => by cases h

theorem State.engine_streamsLegal {s : State} (hs : s.streamsLegal) : s.engine.streamsLegal := by
  unfold State.engine
  split
  · split
    · exact hs
    · next m rest _ =>
      exact State.makeMove_streamsLegal (s := { s with schedule := rest }) (State.streamsLegal_congr hs rfl rfl) m
  · exact hs

/-! ## The invariant -/

/-- Settles O56: the memory and the stream table are empty, and every other value is 0 or a default. -/
theorem resetInvariant : Obligations.ResetInvariant where
  memory := State.reset_wf
  pcAligned := by decide
  config := by decide
  njFixed := by decide
  streams := State.streamsLegal_congr State.reset.clearStreams_streamsLegal rfl rfl

section Invariant

variable {i : Instr} {s t : State}

theorem ExecEffect.memory_wf (h : ExecEffect s i t) (hm : Memory.wf s.mem) : Memory.wf t.mem := by
  cases h with
  | interrupt => rwa [s.takeUnavailable_mem]
  | store a n x => exact State.memWrite_wf a n x hm
  | _ => exact hm

theorem ExecEffect.pc_aligned (h : ExecEffect s i t) (hc : Config.legal s.cfg) (hp : s.pc.extractLsb' 0 2 = 0) :
    t.pc.extractLsb' 0 2 = 0 := by
  cases h with
  | interrupt => rw [s.takeUnavailable_pc]; exact interruptVector_aligned hc
  | _ => exact aligned_add hp (by decide)

/-- NJ stays 1 on an NJ_ONLY implementation: `mtvscr` writes it as 1 and nothing else changes it (R36, R461). -/
theorem ExecEffect.nj_fixed (h : ExecEffect s i t) (hnj : s.cfg.njOnly = true) (hs : bit s.vscr 15 = true) :
    bit t.vscr 15 = true := by
  cases h with
  | interrupt => rwa [s.takeUnavailable_vscr]
  | vector vr cr vscr draws hcr hvscr =>
    rcases hvscr with rfl | rfl
    · exact hs
    · exact (bit_or_sat s.vscr (by decide)).trans hs
  | vscr vB => simp [State.writeVscr, hnj, bit_or, bit_bitMask]
  | _ => exact hs

theorem ExecEffect.streams_legal (h : ExecEffect s i t) (hs : s.streamsLegal) : t.streamsLegal := by
  have hc := h.cfg_eq
  cases h with
  | interrupt => exact State.streamsLegal_congr hs s.takeUnavailable_streams hc
  | streams table h => exact StreamChange.streamsLegal h hc hs
  | _ => exact State.streamsLegal_congr hs rfl hc

/-- Whatever an instruction does keeps the invariant. -/
theorem ExecEffect.inv (h : ExecEffect s i t) (hs : s.Inv) : t.Inv where
  memory := h.memory_wf hs.memory
  pcAligned := h.pc_aligned hs.config hs.pcAligned
  config := by rw [h.cfg_eq]; exact hs.config
  njFixed hnj := by rw [h.cfg_eq] at hnj; exact h.nj_fixed hnj (hs.njFixed hnj)
  streams := h.streams_legal hs.streams

/-- The stream engine keeps the invariant: it leaves all but the stream table and its own fields (R462). -/
theorem State.engine_inv (hs : s.Inv) : s.engine.Inv := by
  have hstreams := State.engine_streamsLegal hs.streams
  rw [show s.engine = _ from s.engine_streamsOnly] at hstreams ⊢
  exact ⟨hs.memory, hs.pcAligned, hs.config, hs.njFixed, hstreams⟩

end Invariant

/-- A step that answers a next state executed one instruction and then moved the engine. -/
theorem step_next {s t : State} (h : step s = .next t) : ∃ i u, exec i s = .next u ∧ t = u.engine := by
  unfold step at h
  split at h
  · cases h
  · split at h
    · next e _ => cases e <;> cases h
    · next i _ =>
      split at h
      · next u hu => cases h; exact ⟨i, u, hu, rfl⟩
      · cases h
      · cases h

/-- Settles O57: the instruction keeps the invariant, and so does the engine after it. -/
theorem stepKeepsInvariant : Obligations.StepKeepsInvariant := by
  intro s t hs h
  obtain ⟨i, u, hu, rfl⟩ := step_next h
  exact State.engine_inv ((exec_effect hu).inv hs)

/-! ## One step -/

/-- With tracing off and pc a multiple of 4 a step is not refused (R86, R515). -/
theorem State.refusal_none {s : State}
    (ht : s.cfg.traceImplemented = true → bit s.msr 21 = false ∧ bit s.msr 22 = false) (hp : s.pc.toNat % 4 = 0) :
    s.refusal = none := by
  have htrace : (s.cfg.traceImplemented && (bit s.msr 21 || bit s.msr 22)) = false := by
    cases hc : s.cfg.traceImplemented with
    | false => rfl
    | true => simp [ht hc]
  simp [State.refusal, htrace, (aligned_iff s.pc).2 hp]

/-- Settles O49: the step is not refused, and the word it fetches decodes to the instruction. -/
theorem stepRunsDecoded : Obligations.StepRunsDecoded := by
  intro s ⟨ht, hp⟩ i hi _
  have hr := State.refusal_none ht hp
  refine ⟨?_, ?_, ?_⟩ <;> intro _ he <;> simp only [step, hr, hi, he]

/-! ## VRSAVE (R42) -/

/-- Settles O42: both arms of `exec` answer a next state outright, and a write of one GPR leaves the others. -/
theorem vrsaveMoves : Obligations.VrsaveMoves := by
  intro s r
  refine ⟨⟨(s.setGreg r s.vrsave).advance, rfl, rfl, ?_, fun r' hr' => ?_⟩, rfl⟩
  · exact (s.setGreg_greg r r s.vrsave).trans (if_pos rfl)
  · exact (s.setGreg_greg r r' s.vrsave).trans (if_neg hr')

/-! ## The AltiVec unavailable interrupt, bit by bit (R503) -/

/-- The MSR bits that SRR1 receives: those of 1-4 and 10-15 only where the implementation copies them. -/
theorem bit_srr1Mask (extra : Word) {k : Nat} (hk : k < 32) :
    bit (srr1Mask extra) k = if (1 ≤ k ∧ k ≤ 4) ∨ (10 ≤ k ∧ k ≤ 15) then bit extra k else true := by
  have hextra : ∀ k < 32, bit 0x783F0000 k = decide ((1 ≤ k ∧ k ≤ 4) ∨ (10 ≤ k ∧ k ≤ 15)) := by decide
  have halways : ∀ k < 32, bit 0x87C0FFFF k = !decide ((1 ≤ k ∧ k ≤ 4) ∨ (10 ≤ k ∧ k ≤ 15)) := by decide
  rw [srr1Mask, bit_or, bit_and, halways k hk, hextra k hk]
  split <;> simp [*]

theorem bit_msrReserved : ∀ k < 32,
    bit msrReserved k = decide (k ≤ 5 ∨ (7 ≤ k ∧ k ≤ 12) ∨ k ∈ [14, 24, 28, 29]) := by decide

theorem bit_msrKept : ∀ k < 32,
    bit msrKept k = !decide (k ∈ [6, 13, 16, 17, 18, 20, 21, 22, 23, 26, 27, 30] ∨ k = 31) := by decide

/-- The MSR after the interrupt: LE is the old ILE, twelve bits are cleared, the others kept. -/
theorem bit_msrOnInterrupt (msr : Word) {k : Nat} (hk : k < 32) :
    bit (msrOnInterrupt msr) k =
      if k ∈ [6, 13, 16, 17, 18, 20, 21, 22, 23, 26, 27, 30] then false
      else if k = 31 then bit msr 15 else bit msr k := by
  have hle : bit (if bit msr 15 then bitMask 31 else 0) k = (bit msr 15 && decide (k = 31)) := by
    cases bit msr 15 with
    | false => exact BitVec.getLsbD_zero
    | true => exact bit_bitMask (by decide) hk
  rw [msrOnInterrupt, bit_or, bit_and, bit_msrKept k hk, hle]
  split
  · next hcleared =>
    have hne : k ≠ 31 := by rintro rfl; simp at hcleared
    simp [hcleared, hne]
  · split <;> simp [*]

/-- SRR1 after the interrupt: MSR as it reads, under the mask. -/
theorem State.bit_takeUnavailable_srr1 (s : State) {k : Nat} (hk : k < 32) :
    bit s.takeUnavailable.srr1 k = (bit s.msrRead k &&
      (if (1 ≤ k ∧ k ≤ 4) ∨ (10 ≤ k ∧ k ≤ 15) then bit s.cfg.srr1ExtraBits k else true)) := by
  rw [s.takeUnavailable_srr1, bit_and, bit_srr1Mask _ hk]

/-- Settles O48: the next state is `State.takeUnavailable`. A reserved bit of SRR1 that is 1 was last written as 1 in
MSR; a defined one is MSR's own. -/
theorem unavailableInterrupt : Obligations.UnavailableInterrupt := by
  intro s i hn hv
  refine ⟨s.takeUnavailable, exec_off hn hv, rfl, fun k hk => ?_, fun k hk => ?_, s.takeUnavailable_pc⟩
  · intro copied
    rw [s.bit_takeUnavailable_srr1 hk]
    by_cases hres : k ≤ 5 ∨ (7 ≤ k ∧ k ≤ 12) ∨ k ∈ [14, 24, 28, 29]
    · rw [if_pos hres, Bool.and_eq_true, Bool.and_eq_true]
      exact And.imp_left State.msrRead_reserved
    · rw [if_neg hres, State.msrRead_defined hk ((bit_msrReserved k hk).trans (decide_eq_false hres))]
  · rw [s.takeUnavailable_msr]
    exact bit_msrOnInterrupt s.msr hk

end Sys2Proof.Machine

/-! PROOFS. Which bytes of memory an instruction can change: only a store writes memory, and the bytes it writes lie in
the aligned operand its address names, in little-endian mode moved within the double word (R85, R91). -/

namespace Sys2Proof.Machine

/-! ## Aligned addresses and the blocks they lie in (R85, R91) -/

/-- The bits that alignment to `2 ^ j` bytes keeps (R85). -/
theorem toNat_alignMask {j : Nat} (hj : j ≤ 32) :
    (~~~BitVec.ofNat 32 (2 ^ j - 1)).toNat = 2 ^ j * (2 ^ (32 - j) - 1) := by
  have hle : 2 ^ j ≤ 2 ^ 32 := Nat.pow_le_pow_right (by decide) hj
  have hpos : 0 < 2 ^ j := Nat.two_pow_pos j
  rw [BitVec.toNat_not, BitVec.toNat_ofNat, Nat.mod_eq_of_lt (by omega), Nat.mul_sub, ← pow_add,
    Nat.add_sub_cancel' hj]
  omega

theorem alignTo_mod {j : Nat} (hj : j ≤ 32) (ea : Word) : (alignTo (2 ^ j) ea).toNat % 2 ^ j = 0 := by
  rw [alignTo, BitVec.toNat_and, toNat_alignMask hj, Nat.and_mod_two_pow, Nat.mul_mod_right, Nat.and_zero]

theorem alignTo_div {j : Nat} (hj : j ≤ 32) (ea : Word) :
    (alignTo (2 ^ j) ea).toNat / 2 ^ j = ea.toNat / 2 ^ j := by
  have hlt : ea.toNat / 2 ^ j < 2 ^ (32 - j) := by
    rw [Nat.div_lt_iff_lt_mul (Nat.two_pow_pos j), ← pow_add, Nat.sub_add_cancel hj]
    exact ea.isLt
  rw [alignTo, BitVec.toNat_and, toNat_alignMask hj, Nat.and_div_two_pow,
    Nat.mul_div_cancel_left _ (Nat.two_pow_pos j), Nat.and_two_pow_sub_one_eq_mod, Nat.mod_eq_of_lt hlt]

/-- Munging keeps an element address aligned: it changes no bit below the element's size (R91). -/
theorem elementAddress_mod (le : Bool) {j : Nat} (hj : j ≤ 3) (a : Word) :
    (elementAddress le (2 ^ j) a).toNat % 2 ^ j = a.toNat % 2 ^ j := by
  have hmask : ∀ j ≤ 3, (BitVec.ofNat 32 (8 - 2 ^ j)).toNat % 2 ^ j = 0 := by decide
  cases le with
  | false => rfl
  | true =>
    show (munge a (2 ^ j)).toNat % 2 ^ j = _
    rw [munge, BitVec.toNat_xor, Nat.xor_mod_two_pow, hmask j hj, Nat.xor_zero]

/-- Munging moves an element only within its double word (R91). -/
theorem elementAddress_div (le : Bool) {j : Nat} (hj : j ≤ 3) (a : Word) :
    (elementAddress le (2 ^ j) a).toNat / 2 ^ 3 = a.toNat / 2 ^ 3 := by
  have hmask : ∀ j ≤ 3, (BitVec.ofNat 32 (8 - 2 ^ j)).toNat / 2 ^ 3 = 0 := by decide
  cases le with
  | false => rfl
  | true =>
    show (munge a (2 ^ j)).toNat / 2 ^ 3 = _
    rw [munge, BitVec.toNat_xor, Nat.xor_div_two_pow, hmask j hj, Nat.xor_zero]

/-- The bytes of an operand at an aligned address lie in one block of its size: they do not wrap around. -/
theorem byteAddress_div {j k : Nat} (hj : j ≤ 32) {a : Word} (ha : a.toNat % 2 ^ j = 0) (hk : k < 2 ^ j) :
    byteAddress a k / 2 ^ j = a.toNat / 2 ^ j := by
  obtain ⟨q, hq⟩ := Nat.dvd_of_mod_eq_zero ha
  have hpow : 2 ^ j * 2 ^ (32 - j) = 2 ^ 32 := by rw [← pow_add, Nat.add_sub_cancel' hj]
  have hlast : 2 ^ j * (q + 1) ≤ 2 ^ 32 := by
    rw [← hpow]
    refine Nat.mul_le_mul_left _ (Nat.lt_of_mul_lt_mul_left (a := 2 ^ j) ?_)
    rw [hpow, ← hq]
    exact a.isLt
  have hnowrap : a.toNat + k < 2 ^ 32 := by rw [Nat.mul_succ] at hlast; omega
  rw [byteAddress, Nat.mod_eq_of_lt hnowrap, hq, Nat.mul_add_div (Nat.two_pow_pos j), Nat.div_eq_of_lt hk,
    Nat.mul_div_cancel_left _ (Nat.two_pow_pos j), Nat.add_zero]

/-- What lies in one block of `2 ^ j` bytes lies in one larger block. -/
theorem div_two_pow_congr {j m a b : Nat} (hjm : j ≤ m) (h : a / 2 ^ j = b / 2 ^ j) : a / 2 ^ m = b / 2 ^ m := by
  rw [← Nat.add_sub_cancel' hjm, pow_add, ← Nat.div_div_eq_div_mul, h, Nat.div_div_eq_div_mul]

/-- Every byte of an element lies in the double word that its unaligned address names, in either byte order. -/
theorem element_byte_in_doubleWord (le : Bool) {j k : Nat} (hj : j ≤ 3) (hk : k < 2 ^ j) (ea : Word) :
    byteAddress (elementAddress le (2 ^ j) (alignTo (2 ^ j) ea)) k / 2 ^ 3 = ea.toNat / 2 ^ 3 := by
  have hj32 : j ≤ 32 := by omega
  have haligned : (elementAddress le (2 ^ j) (alignTo (2 ^ j) ea)).toNat % 2 ^ j = 0 := by
    rw [elementAddress_mod le hj, alignTo_mod hj32]
  calc byteAddress (elementAddress le (2 ^ j) (alignTo (2 ^ j) ea)) k / 2 ^ 3
      = (elementAddress le (2 ^ j) (alignTo (2 ^ j) ea)).toNat / 2 ^ 3 :=
        div_two_pow_congr hj (byteAddress_div hj32 haligned hk)
    _ = (alignTo (2 ^ j) ea).toNat / 2 ^ 3 := elementAddress_div le hj _
    _ = ea.toNat / 2 ^ 3 := div_two_pow_congr hj (alignTo_div hj32 ea)

/-- Every byte of a quad word lies in the quad word that its unaligned address names. -/
theorem quad_byte_in_quadWord {k : Nat} (hk : k < 2 ^ 4) (ea : Word) :
    byteAddress (alignTo (2 ^ 4) ea) k / 2 ^ 4 = ea.toNat / 2 ^ 4 :=
  (byteAddress_div (by decide) (alignTo_mod (by decide) ea) hk).trans (alignTo_div (by decide) ea)

/-! ## Who changes memory -/

/-- A byte that a write changes is one of the bytes written. -/
theorem State.memWrite_changed {s : State} {a : Word} {n : Nat} {x : BitVec (8 * n)} {b : Nat}
    (h : Memory.read (s.memWrite a n x).mem b ≠ Memory.read s.mem b) : ∃ k < n, b = byteAddress a k := by
  by_contra hout
  push Not at hout
  exact h (Memory.read_writeBytes_outside s.mem a n _ hout)

/-- An instruction that answers a next state leaves memory alone or is a store (R80). -/
theorem exec_mem_cases {i : Instr} {s t : State} (h : exec i s = .next t) : t.mem = s.mem ∨ StoreWrite i s t := by
  cases hn : needsVector i with
  | false =>
    rcases exec_plain_cases hn h with ⟨ht, -⟩ | ⟨r, -, rfl⟩ | ⟨r, -, rfl⟩
    · rw [ht]
      exact .inl rfl
    · exact .inl rfl
    · exact .inl rfl
  | true =>
    cases hv : s.vecEnabled with
    | false =>
      cases (exec_off hn hv).symm.trans h
      exact .inl s.takeUnavailable_mem
    | true =>
      rcases exec_on_cases hv hn h with hw | ⟨vB, -, rfl⟩ | hw
      · rw [hw.shape]
        exact .inl rfl
      · exact .inl rfl
      · exact .inr hw

/-- The bytes an element store writes, in the form of O59: in the double word, so in the quad word. -/
theorem element_byte_in_operand (le : Bool) {j k : Nat} (hj : j ≤ 3) (hk : k < 2 ^ j) (ea : Word) :
    byteAddress (elementAddress le (2 ^ j) (alignTo (2 ^ j) ea)) k / 16 = ea.toNat / 16 ∧
      (2 ^ j = 16 ∨ byteAddress (elementAddress le (2 ^ j) (alignTo (2 ^ j) ea)) k / 8 = ea.toNat / 8) := by
  have h := element_byte_in_doubleWord le hj hk ea
  exact ⟨div_two_pow_congr (m := 4) (by decide) h, .inr h⟩

/-- Settles O59: what changes memory is a store, and each store's bytes lie in the operand it names. -/
theorem onlyStoresWriteMemory : Obligations.OnlyStoresWriteMemory := by
  intro i s t b h hne
  rcases exec_mem_cases h with hmem | ⟨n, a, x, vS, rA, rB, rfl, hstore⟩
  · exact absurd (congrArg (Memory.read · b) hmem) hne
  · obtain ⟨k, hk, rfl⟩ := State.memWrite_changed hne
    rcases hstore with ⟨hi, rfl, rfl⟩ | ⟨hi, rfl, rfl⟩ | ⟨hi, rfl, rfl⟩ | ⟨hi, rfl, rfl⟩
    · exact ⟨vS, rA, rB, 1, .inl ⟨rfl, hi⟩, element_byte_in_operand _ (j := 0) (by decide) hk _⟩
    · exact ⟨vS, rA, rB, 2, .inr (.inl ⟨rfl, hi⟩), element_byte_in_operand _ (j := 1) (by decide) hk _⟩
    · exact ⟨vS, rA, rB, 4, .inr (.inr (.inl ⟨rfl, hi⟩)), element_byte_in_operand _ (j := 2) (by decide) hk _⟩
    · exact ⟨vS, rA, rB, 16, .inr (.inr (.inr ⟨rfl, hi⟩)), quad_byte_in_quadWord hk _, .inl rfl⟩

end Sys2Proof.Machine

/-! PROOFS. Encoding and decoding are inverse, and what a word that is no instruction does. `IsWord` says once which
words are instructions, form by form (R132 to R136, R470): the decoder accepts exactly these, and the encoder builds,
for each instruction, the one such word it has. -/

namespace Sys2Proof

/-! ## A word is made of its fields -/

theorem field_append {w : Word} {a m n : Nat} (h : a + m + n ≤ 32) :
    field w a m ++ field w (a + m) n = field w a (m + n) := by
  rw [field, field, BitVec.extractLsb'_append_extractLsb'_eq_extractLsb' (by omega), field]
  congr 1
  omega

theorem field_whole (w : Word) : field w 0 32 = w := BitVec.extractLsb'_eq_self

/-- A field inside another one. -/
theorem field_within {w : Word} {a m k n : Nat} (ha : a + m ≤ 32) (hk : k + n ≤ m) :
    field w (a + k) n = (field w a m).extractLsb' (m - k - n) n := by
  apply field_eq
  intro j hj
  simp only [field, BitVec.getLsbD_extractLsb']
  simp [hj, show m - k - n + j < m by omega, show 32 - a - m + (m - k - n + j) = 32 - (a + k) - n + j by omega]

/-- Rc as a bit and as a truth value. -/
theorem ofBool_bit (x : BitVec 1) : BitVec.ofBool (x == 1) = x := by
  revert x; decide

theorem bit_ofBool (b : Bool) : (BitVec.ofBool b == 1#1) = b := by
  revert b; decide

/-- A shift count leaves the reserved bit of its field zero. -/
theorem setWidth_reserved_bit (x : BitVec 4) : (x.setWidth 5).extractLsb' 4 1 = 0 := by
  revert x; decide

theorem encVX_fields {w : Word} (hop : field w 0 6 = 4) :
    encVX (field w 6 5) (field w 11 5) (field w 16 5) (field w 21 11) = w := by
  rw [encVX, show 4#6 = field w 0 6 from hop.symm, field_append (by decide), field_append (by decide),
    field_append (by decide), field_append (by decide), field_whole]

theorem encVXR_fields {w : Word} (hop : field w 0 6 = 4) :
    encVXR (field w 6 5) (field w 11 5) (field w 16 5) (field w 21 1 == 1) (field w 22 10) = w := by
  rw [encVXR, ofBool_bit, show 4#6 = field w 0 6 from hop.symm, field_append (by decide), field_append (by decide),
    field_append (by decide), field_append (by decide), field_append (by decide), field_whole]

theorem encVA_fields {w : Word} (hop : field w 0 6 = 4) :
    encVA (field w 6 5) (field w 11 5) (field w 16 5) (field w 21 5) (field w 26 6) = w := by
  rw [encVA, show 4#6 = field w 0 6 from hop.symm, field_append (by decide), field_append (by decide),
    field_append (by decide), field_append (by decide), field_append (by decide), field_whole]

theorem encX_fields {w : Word} (hop : field w 0 6 = 31) (hlast : field w 31 1 = 0) :
    encX (field w 6 5) (field w 11 5) (field w 16 5) (field w 21 10) = w := by
  rw [encX, show 31#6 = field w 0 6 from hop.symm, show 0#1 = field w 31 1 from hlast.symm, field_append (by decide),
    field_append (by decide), field_append (by decide), field_append (by decide), field_append (by decide),
    field_whole]

/-- The shift count of `vsldoi`, its reserved bit zero, read as the fourth register field (R135). -/
theorem field_shb {w : Word} (h : field w 21 1 = 0) : field w 21 5 = (field w 22 4).setWidth 5 := by
  rw [← field_append (w := w) (a := 21) (m := 1) (n := 4) (by decide), h]
  exact (BitVec.setWidth_eq_append (by decide)).symm

/-- The number of VRSAVE, its halves swapped (R470). -/
theorem field_spr {w : Word} (h : field w 11 10 = 8) : field w 11 5 = 0 ∧ field w 16 5 = 8 := by
  have ha : field w 11 5 = (field w 11 10).extractLsb' 5 5 := field_within (k := 0) (by decide) (by decide)
  have hb : field w 16 5 = (field w 11 10).extractLsb' 0 5 := field_within (k := 5) (by decide) (by decide)
  rw [ha, hb, h]
  decide

/-! ## Shapes of operands (R132, R136) -/

/-- A narrow immediate, widened to its field, is read back. -/
theorem vdNarrow_setWidth {n : Nat} (hn : n ≤ 5) (c : VReg → BitVec n → VReg → Instr) (d : VReg) (x : BitVec n)
    (b : VReg) : vdNarrow n c d (x.setWidth 5) b = some (c d x b) := by
  rw [vdNarrow, BitVec.toNat_setWidth_of_le hn, if_pos x.isLt, BitVec.setWidth_setWidth_of_le x hn,
    BitVec.setWidth_eq]

theorem stream_streamField (c0 c1 : BitVec 2 → GReg → GReg → Instr) (t : BitVec 1) (x : BitVec 2) (a b : GReg) :
    stream c0 c1 (streamField t x) a b = some ((if t.getLsbD 0 then c1 else c0) x a b) := by
  rw [stream, streamField_zeros, if_pos rfl, streamField_flag, streamField_strm]

theorem streamStop_streamField (c0 c1 : BitVec 2 → Instr) (t : BitVec 1) (x : BitVec 2) :
    streamStop c0 c1 (streamField t x) 0 0 = some ((if t.getLsbD 0 then c1 else c0) x) := by
  rw [streamStop, streamField_zeros, if_pos ⟨rfl, rfl, rfl⟩, streamField_flag, streamField_strm]

/-- The first field of a stream instruction is its flag, two zeros and STRM (R136). -/
theorem eq_streamField {d : BitVec 5} (hd : d.extractLsb' 2 2 = 0) :
    d = streamField (BitVec.ofBool (d.getLsbD 4)) (d.extractLsb' 0 2) := by
  revert d; decide

/-- Whatever operands the shape accepts, the encoder puts them back into their fields. -/
def EncodesTo (enc : BitVec 5 → BitVec 5 → BitVec 5 → Word)
    (shape : BitVec 5 → BitVec 5 → BitVec 5 → Option Instr) : Prop :=
  ∀ d a b i, shape d a b = some i → encode i = enc d a b

/-! For each shape, what remains to be seen of the encoder. -/

section Shapes

variable {enc : BitVec 5 → BitVec 5 → BitVec 5 → Word}

theorem encodesTo_vdVaVb {c : VReg → VReg → VReg → Instr} :
    EncodesTo enc (vdVaVb c) ↔ ∀ d a b, encode (c d a b) = enc d a b := by
  refine ⟨fun h d a b => h d a b _ rfl, ?_⟩
  rintro h d a b i ⟨⟩
  exact h d a b

theorem encodesTo_vdUimmVb {c : VReg → BitVec 5 → VReg → Instr} :
    EncodesTo enc (vdUimmVb c) ↔ ∀ d x b, encode (c d x b) = enc d x b :=
  encodesTo_vdVaVb

theorem encodesTo_vdVb {c : VReg → VReg → Instr} :
    EncodesTo enc (vdVb c) ↔ ∀ d b, encode (c d b) = enc d 0 b := by
  refine ⟨fun h d b => h d 0 b _ rfl, fun h d a b i hi => ?_⟩
  obtain ⟨rfl, ⟨⟩⟩ := Option.ite_none_right_eq_some.1 hi
  exact h d b

theorem encodesTo_vdNarrow {n : Nat} (hn : n ≤ 5) {c : VReg → BitVec n → VReg → Instr} :
    EncodesTo enc (vdNarrow n c) ↔ ∀ d x b, encode (c d x b) = enc d (x.setWidth 5) b := by
  refine ⟨fun h d x b => h d _ b _ (vdNarrow_setWidth hn c d x b), fun h d a b i hi => ?_⟩
  obtain ⟨ha, ⟨⟩⟩ := Option.ite_none_right_eq_some.1 hi
  have hwide : (a.setWidth n).setWidth 5 = a := by
    apply BitVec.eq_of_toNat_eq
    rw [BitVec.toNat_setWidth_of_le hn, BitVec.toNat_setWidth, Nat.mod_eq_of_lt ha]
  rw [h, hwide]

theorem encodesTo_vdSimm {c : VReg → BitVec 5 → Instr} :
    EncodesTo enc (vdSimm c) ↔ ∀ d x, encode (c d x) = enc d x 0 := by
  refine ⟨fun h d x => h d x 0 _ rfl, fun h d a b i hi => ?_⟩
  obtain ⟨rfl, ⟨⟩⟩ := Option.ite_none_right_eq_some.1 hi
  exact h d a

theorem encodesTo_vdOnly {c : VReg → Instr} : EncodesTo enc (vdOnly c) ↔ ∀ d, encode (c d) = enc d 0 0 := by
  refine ⟨fun h d => h d 0 0 _ rfl, fun h d a b i hi => ?_⟩
  obtain ⟨⟨rfl, rfl⟩, ⟨⟩⟩ := Option.ite_none_right_eq_some.1 hi
  exact h d

theorem encodesTo_vbOnly {c : VReg → Instr} : EncodesTo enc (vbOnly c) ↔ ∀ b, encode (c b) = enc 0 0 b := by
  refine ⟨fun h b => h 0 0 b _ rfl, fun h d a b i hi => ?_⟩
  obtain ⟨⟨rfl, rfl⟩, ⟨⟩⟩ := Option.ite_none_right_eq_some.1 hi
  exact h b

theorem encodesTo_stream {c0 c1 : BitVec 2 → GReg → GReg → Instr} :
    EncodesTo enc (stream c0 c1) ↔ (∀ x a b, encode (c0 x a b) = enc (streamField 0 x) a b) ∧
      ∀ x a b, encode (c1 x a b) = enc (streamField 1 x) a b := by
  refine ⟨fun h => ⟨fun x a b => h _ a b _ (stream_streamField ..), fun x a b => h _ a b _ (stream_streamField ..)⟩,
    fun ⟨h0, h1⟩ d a b i hi => ?_⟩
  obtain ⟨hd, ⟨⟩⟩ := Option.ite_none_right_eq_some.1 hi
  have hfield := eq_streamField hd
  cases hf : d.getLsbD 4 with rw [hf] at hfield
  | false => exact (h0 _ a b).trans (congrArg (enc · a b) hfield.symm)
  | true => exact (h1 _ a b).trans (congrArg (enc · a b) hfield.symm)

theorem encodesTo_streamStop {c0 c1 : BitVec 2 → Instr} :
    EncodesTo enc (streamStop c0 c1) ↔ (∀ x, encode (c0 x) = enc (streamField 0 x) 0 0) ∧
      ∀ x, encode (c1 x) = enc (streamField 1 x) 0 0 := by
  refine ⟨fun h => ⟨fun x => h _ 0 0 _ (streamStop_streamField ..), fun x => h _ 0 0 _ (streamStop_streamField ..)⟩,
    fun ⟨h0, h1⟩ d a b i hi => ?_⟩
  obtain ⟨⟨hd, rfl, rfl⟩, ⟨⟩⟩ := Option.ite_none_right_eq_some.1 hi
  have hfield := eq_streamField hd
  cases hf : d.getLsbD 4 with rw [hf] at hfield
  | false => exact (h0 _).trans (congrArg (enc · 0 0) hfield.symm)
  | true => exact (h1 _).trans (congrArg (enc · 0 0) hfield.symm)

end Shapes

/-! ## The tables -/

theorem mem_of_lookup_eq_some {α : Type} {l : List (Nat × α)} {k : Nat} {c : α} (h : l.lookup k = some c) :
    (k, c) ∈ l := by
  obtain ⟨l₁, l₂, rfl, -⟩ := List.lookup_eq_some_iff.1 h
  simp

/-- No extended opcode of VXR form ends in six bits of VA form. -/
theorem vxrTable_not_va : ∀ e ∈ vxrTable, ¬ (32 ≤ e.1 % 2 ^ 6 ∧ e.1 % 2 ^ 6 ≤ 47) := by decide

/-- No extended opcode of VX form ends in six bits of VA form or ten of VXR form. -/
theorem vxTable_alone : ∀ e ∈ vxTable,
    ¬ (32 ≤ e.1 % 2 ^ 6 ∧ e.1 % 2 ^ 6 ≤ 47) ∧ (vxrTable.lookup (e.1 % 2 ^ 10)).isNone = true := by decide

/-- The extended opcodes of VA form but that of `vsldoi` (R135). -/
theorem vaTable_range : ∀ e ∈ vaTable, (32 ≤ e.1 ∧ e.1 ≤ 47) ∧ e.1 ≠ 44 := by decide

/-- The extended opcodes of `mfspr` and `mtspr` are not AltiVec's (R136, R470). -/
theorem xTable_not_spr : ∀ e ∈ xTable, ¬ (e.1 = 339 ∨ e.1 = 467) := by decide

/-! Row by row, what a table gives is what the encoder's arm takes. -/

theorem vaTable_encode : ∀ e ∈ vaTable, ∀ d a b c, encode (e.2 d a b c) = encVA d a b c (BitVec.ofNat 6 e.1) := by
  simp only [vaTable, List.forall_mem_cons, List.not_mem_nil, false_imp_iff, implies_true, and_true]
  and_intros <;> intros <;> rfl

theorem vxrTable_encode : ∀ e ∈ vxrTable, ∀ d a b rc,
    encode (e.2 d a b rc) = encVXR d a b rc (BitVec.ofNat 10 e.1) := by
  simp only [vxrTable, List.forall_mem_cons, List.not_mem_nil, false_imp_iff, implies_true, and_true]
  and_intros <;> intros <;> rfl

theorem vxTable_encode : ∀ e ∈ vxTable, EncodesTo (fun d a b => encVX d a b (BitVec.ofNat 11 e.1)) e.2 := by
  simp only [vxTable, List.forall_mem_append, List.forall_mem_cons, List.not_mem_nil, false_imp_iff, implies_true,
    and_true, encodesTo_vdVaVb, encodesTo_vdUimmVb, encodesTo_vdVb, encodesTo_vdNarrow, encodesTo_vdSimm,
    encodesTo_vdOnly, encodesTo_vbOnly, Nat.reduceLeDiff]
  and_intros <;> intros <;> rfl

theorem xTable_encode : ∀ e ∈ xTable, EncodesTo (fun d a b => encX d a b (BitVec.ofNat 10 e.1)) e.2 := by
  simp only [xTable, List.forall_mem_cons, List.not_mem_nil, false_imp_iff, implies_true, and_true, encodesTo_vdVaVb,
    encodesTo_stream, encodesTo_streamStop]
  and_intros <;> intros <;> rfl

/-! ## The words of instructions -/

/-- The words of R132 to R136 and R470, form by form: an extended opcode that its table assigns, operands that its
shape accepts. -/
inductive IsWord : Word → Instr → Prop where
  | va {d a b c : BitVec 5} {xo : BitVec 6} {con} : vaTable.lookup xo.toNat = some con →
      IsWord (encVA d a b c xo) (con d a b c)
  | vsldoi {d a b : BitVec 5} {shb : BitVec 4} : IsWord (encVA d a b (shb.setWidth 5) 44) (.vsldoi d a b shb)
  | vxr {d a b : BitVec 5} {rc : Bool} {xo : BitVec 10} {con} : vxrTable.lookup xo.toNat = some con →
      IsWord (encVXR d a b rc xo) (con d a b rc)
  | vx {d a b : BitVec 5} {xo : BitVec 11} {shape} {i : Instr} : vxTable.lookup xo.toNat = some shape →
      shape d a b = some i → IsWord (encVX d a b xo) i
  | x {d a b : BitVec 5} {xo : BitVec 10} {shape} {i : Instr} : xTable.lookup xo.toNat = some shape →
      shape d a b = some i → IsWord (encX d a b xo) i
  | mfspr {d : BitVec 5} : IsWord (encX d 0 8 339) (.mfspr d)
  | mtspr {d : BitVec 5} : IsWord (encX d 0 8 467) (.mtspr d)

/-- Each row of a table agrees with the encoder's arm. -/
theorem IsWord.encode_eq {w : Word} {i : Instr} (h : IsWord w i) : encode i = w := by
  cases h with
  | va hc => simpa using vaTable_encode _ (mem_of_lookup_eq_some hc) _ _ _ _
  | vsldoi => rfl
  | vxr hc => simpa using vxrTable_encode _ (mem_of_lookup_eq_some hc) _ _ _ _
  | vx hc hi => simpa using vxTable_encode _ (mem_of_lookup_eq_some hc) _ _ _ _ hi
  | x hc hi => simpa using xTable_encode _ (mem_of_lookup_eq_some hc) _ _ _ _ hi
  | mfspr => rfl
  | mtspr => rfl

/-- The encoder builds a word of the instruction: its table names the instruction there. -/
theorem isWord_encode (i : Instr) : IsWord (encode i) i := by
  cases i with
  | vmhaddshs | vmhraddshs | vmladduhm | vmsumubm | vmsummbm | vmsumuhm | vmsumuhs | vmsumshm | vmsumshs | vsel
  | vperm | vmaddfp | vnmsubfp => exact .va rfl
  | vsldoi => exact .vsldoi
  | vcmpequb | vcmpequh | vcmpequw | vcmpeqfp | vcmpgefp | vcmpgtub | vcmpgtuh | vcmpgtuw | vcmpgtfp | vcmpgtsb
  | vcmpgtsh | vcmpgtsw | vcmpbfp => exact .vxr rfl
  | lvsl | lvebx | lvsr | lvehx | lvewx | lvx | stvebx | stvehx | stvewx | stvx | lvxl | stvxl => exact .x rfl rfl
  | dst | dstst | dstt | dststt => exact .x rfl (stream_streamField ..)
  | dss | dssall => exact .x rfl (streamStop_streamField ..)
  | mfspr => exact .mfspr
  | mtspr => exact .mtspr
  | vspltb | vsplth | vspltw => exact .vx rfl (vdNarrow_setWidth (by decide) ..)
  | _ => exact .vx rfl rfl

/-! ## The decoder accepts exactly these words -/

theorem orReserved_eq_ok {o : Option Instr} {i : Instr} : orReserved o = .ok i ↔ o = some i := by
  cases o <;> simp [orReserved]

theorem decode_eq_decodeVA {w : Word} (hop : field w 0 6 = 4)
    (hva : 32 ≤ (field w 26 6).toNat ∧ (field w 26 6).toNat ≤ 47) : decode w = decodeVA w := by
  rw [decode, if_pos hop, if_pos hva]

theorem decode_eq_decodeVX {w : Word} (hop : field w 0 6 = 4)
    (hva : ¬ (32 ≤ (field w 26 6).toNat ∧ (field w 26 6).toNat ≤ 47)) : decode w = decodeVX w := by
  rw [decode, if_pos hop, if_neg hva]

theorem decode_eq_decode31 {w : Word} (hop : field w 0 6 = 31) : decode w = decode31 w := by
  rw [decode, hop, if_neg (by decide), if_pos rfl]

theorem decode_eq_base {w : Word} (h4 : field w 0 6 ≠ 4) (h31 : field w 0 6 ≠ 31) : decode w = .error .base := by
  rw [decode, if_neg h4, if_neg h31]

/-- Each form's word passes the tests before its table, and the table gives the instruction. -/
theorem IsWord.decode_eq {w : Word} {i : Instr} (h : IsWord w i) : decode w = .ok i := by
  cases h with
  | @va d a b c xo con hc =>
    obtain ⟨hrange, hne⟩ := vaTable_range _ (mem_of_lookup_eq_some hc)
    rw [decode_eq_decodeVA (encVA_opcd ..) (by rwa [encVA_xo])]
    simp [decodeVA, hne, hc]
  | vsldoi =>
    rw [decode_eq_decodeVA (encVA_opcd ..) (by simp)]
    simp [decodeVA, encVA_bit21, encVA_shb, setWidth_reserved_bit]
  | @vxr d a b rc xo con hc =>
    have hva := vxrTable_not_va _ (mem_of_lookup_eq_some hc)
    rw [decode_eq_decodeVX (encVXR_opcd ..) (by rwa [encVXR_low6, BitVec.toNat_setWidth])]
    simp [decodeVX, hc, bit_ofBool]
  | @vx d a b xo shape i hc hi =>
    obtain ⟨hva, hvxr⟩ := vxTable_alone _ (mem_of_lookup_eq_some hc)
    rw [decode_eq_decodeVX (encVX_opcd ..) (by rwa [encVX_low6, BitVec.toNat_setWidth])]
    rw [Option.isNone_iff_eq_none] at hvxr
    simp only [decodeVX, encVX_low10, BitVec.toNat_setWidth, hvxr, encVX_xo, encVX_d, encVX_a, encVX_b, hc]
    exact orReserved_eq_ok.2 hi
  | @x d a b xo shape i hc hi =>
    have hspr := xTable_not_spr _ (mem_of_lookup_eq_some hc)
    rw [decode_eq_decode31 (encX_opcd ..)]
    simpa [decode31, hspr, hc] using orReserved_eq_ok.2 hi
  | mfspr =>
    rw [decode_eq_decode31 (encX_opcd ..)]
    simp [decode31, encX_spr]
  | mtspr =>
    rw [decode_eq_decode31 (encX_opcd ..)]
    simp [decode31, encX_spr]

theorem IsWord.of_eq {w w' : Word} {i : Instr} (h : IsWord w i) (hw : w = w') : IsWord w' i := hw ▸ h

/-! What a decoder of one form accepts is a word of that form. -/

theorem isWord_of_decodeVA {w : Word} {i : Instr} (hop : field w 0 6 = 4) (h : decodeVA w = .ok i) : IsWord w i := by
  have hw := encVA_fields hop
  simp only [decodeVA] at h
  split at h
  case isTrue hxo =>
    split at h
    case isTrue h21 =>
      cases h
      rw [field_shb h21, BitVec.eq_of_toNat_eq (y := 44#6) hxo] at hw
      exact IsWord.vsldoi.of_eq hw
    case isFalse => cases h
  case isFalse =>
    split at h
    next c hc =>
      cases h
      exact (IsWord.va hc).of_eq hw
    next => cases h

theorem isWord_of_decodeVX {w : Word} {i : Instr} (hop : field w 0 6 = 4) (h : decodeVX w = .ok i) : IsWord w i := by
  unfold decodeVX at h
  split at h
  next c hc =>
    cases h
    exact (IsWord.vxr hc).of_eq (encVXR_fields hop)
  next =>
    split at h
    next c hc => exact (IsWord.vx hc (orReserved_eq_ok.1 h)).of_eq (encVX_fields hop)
    next => cases h

theorem isWord_of_decode31 {w : Word} {i : Instr} (hop : field w 0 6 = 31) (h : decode31 w = .ok i) : IsWord w i := by
  simp only [decode31] at h
  split at h
  case isTrue hxo =>
    split at h
    case isTrue hspr =>
      obtain ⟨hnum, hlast⟩ := hspr
      obtain ⟨ha, hb⟩ := field_spr hnum
      have hw := encX_fields hop hlast
      rw [ha, hb] at hw
      rcases hxo with hxo | hxo
      · rw [if_pos hxo] at h
        cases h
        rw [BitVec.eq_of_toNat_eq (y := 339#10) hxo] at hw
        exact IsWord.mfspr.of_eq hw
      · rw [hxo, if_neg (by decide)] at h
        cases h
        rw [BitVec.eq_of_toNat_eq (y := 467#10) hxo] at hw
        exact IsWord.mtspr.of_eq hw
    case isFalse => cases h
  case isFalse =>
    split at h
    next c hc =>
      split at h
      case isTrue hlast => exact (IsWord.x hc (orReserved_eq_ok.1 h)).of_eq (encX_fields hop hlast)
      case isFalse => cases h
    next => cases h

theorem isWord_of_decode {w : Word} {i : Instr} (h : decode w = .ok i) : IsWord w i := by
  unfold decode at h
  split at h
  case isTrue hop =>
    split at h
    · exact isWord_of_decodeVA hop h
    · exact isWord_of_decodeVX hop h
  case isFalse =>
    split at h
    case isTrue hop => exact isWord_of_decode31 hop h
    case isFalse => cases h

/-- The words the decoder accepts are those of the forms. -/
theorem decode_eq_ok_iff {w : Word} {i : Instr} : decode w = .ok i ↔ IsWord w i :=
  ⟨isWord_of_decode, IsWord.decode_eq⟩

theorem decodeTableWord_toNat {w : Word} {i : Instr} (h : decode w = .ok i) : decodeTableWord 32 w.toNat = some i := by
  rw [decodeTableWord, Nat.mod_eq_of_lt w.isLt, BitVec.ofNat_toNat, BitVec.setWidth_eq, h]

/-- Settles O51: the encoder builds a word of the instruction, and the decoder accepts every such word. -/
theorem decodeEncode : Obligations.DecodeEncode := by
  intro i
  have h := decode_eq_ok_iff.2 (isWord_encode i)
  exact ⟨h, decodeTableWord_toNat h⟩

/-- Settles O52: a word that the decoder accepts is one of the instruction's, and the encoder builds it. -/
theorem encodeDecode : Obligations.EncodeDecode :=
  fun _ _ h => (decode_eq_ok_iff.1 h).encode_eq

end Sys2Proof

/-! ## A word that is no instruction (R140, R512) -/

namespace Sys2Proof.Machine

/-- The VA numbers 35 and 45 are not assigned (R135). -/
theorem decode_eq_illegal_of_unassigned {w : Word} (hop : field w 0 6 = 4)
    (hxo : field w 26 6 = 35 ∨ field w 26 6 = 45) : decode w = .error .illegal := by
  rcases hxo with h | h <;> (rw [decode_eq_decodeVA hop (by rw [h]; decide), decodeVA, h]; rfl)

theorem step_undecoded {s : State} {e : DecodeError} (hr : s.refusal = none) (hd : decode s.fetch = .error e) :
    step s = undecoded s.fetch e := by
  rw [step, hr]
  simp only [hd]

/-- Settles O50: the step is not refused, and what the decoder rejects stops as `undecoded` says. -/
theorem undecodedStops : Obligations.UndecodedStops := by
  intro s ⟨ht, hp⟩
  have hr := State.refusal_none ht hp
  exact ⟨step_undecoded hr, step_undecoded hr, step_undecoded hr,
    fun h4 h31 => step_undecoded hr (decode_eq_base h4 h31),
    fun hop hxo => step_undecoded hr (decode_eq_illegal_of_unassigned hop hxo)⟩

end Sys2Proof.Machine

/-! PROOFS. Integer add and subtract (40_int_arith_add_sub.md). A vector made element by element is described once for
each element size (`Lanewise`, `LanewiseSat`); what an operation makes of two elements is then stated for every width,
and each instruction's clause joins the two. -/

namespace Sys2Proof.Machine

/-! ## Elementwise results -/

/-- Each of the `n` elements of `w` bits of `v` is `f` of the elements of `a` and `b`. -/
def Lanewise (w n : Nat) (f : BitVec w → BitVec w → BitVec w) (a b v : Vec) : Prop :=
  ∀ i < n, elem w i v = f (elem w i a) (elem w i b)

/-- The same for a saturating operation, whose flag is set when that of some element is (R37). -/
structure LanewiseSat (w n : Nat) (f : BitVec w → BitVec w → BitVec w × Bool) (a b : Vec) (v : Vec × Bool) : Prop where
  value : Lanewise w n (fun x y => (f x y).1) a b v.1
  flag : v.2 = true ↔ ∃ i < n, (f (elem w i a) (elem w i b)).2 = true

theorem bytes2_lanewise (f : BitVec 8 → BitVec 8 → BitVec 8) (a b : Vec) : Lanewise 8 16 f a b (bytes2 f a b) :=
  fun _ hi => byte_ofBytes _ hi

theorem halves2_lanewise (f : BitVec 16 → BitVec 16 → BitVec 16) (a b : Vec) : Lanewise 16 8 f a b (halves2 f a b) :=
  fun _ hi => half_ofHalves _ hi

theorem words2_lanewise (f : BitVec 32 → BitVec 32 → BitVec 32) (a b : Vec) : Lanewise 32 4 f a b (words2 f a b) :=
  fun _ hi => word_ofWords _ hi

theorem satBytes2_lanewise (f : BitVec 8 → BitVec 8 → BitVec 8 × Bool) (a b : Vec) :
    LanewiseSat 8 16 f a b (satBytes2 f a b) :=
  ⟨fun _ hi => byte_ofBytes _ hi, anyLane_eq_true 16 fun i => (f (byte a i) (byte b i)).2⟩

theorem satHalves2_lanewise (f : BitVec 16 → BitVec 16 → BitVec 16 × Bool) (a b : Vec) :
    LanewiseSat 16 8 f a b (satHalves2 f a b) :=
  ⟨fun _ hi => half_ofHalves _ hi, anyLane_eq_true 8 fun i => (f (half a i) (half b i)).2⟩

theorem satWords2_lanewise (f : BitVec 32 → BitVec 32 → BitVec 32 × Bool) (a b : Vec) :
    LanewiseSat 32 4 f a b (satWords2 f a b) :=
  ⟨fun _ hi => word_ofWords _ hi, anyLane_eq_true 4 fun i => (f (word a i) (word b i)).2⟩

/-- What holds of `f x y` for all elements holds of every element of an elementwise result. -/
theorem Lanewise.forall_elem {w n : Nat} {f : BitVec w → BitVec w → BitVec w} {a b v : Vec}
    (h : Lanewise w n f a b v) {R : BitVec w → BitVec w → BitVec w → Prop} (hf : ∀ x y, R x y (f x y)) :
    ∀ i < n, R (elem w i a) (elem w i b) (elem w i v) := fun i hi => h i hi ▸ hf _ _

/-- The flag of a saturating result, by what sets that of one element. -/
theorem LanewiseSat.flag_iff {w n : Nat} {f : BitVec w → BitVec w → BitVec w × Bool} {a b : Vec} {v : Vec × Bool}
    (h : LanewiseSat w n f a b v) {S : BitVec w → BitVec w → Prop} (hf : ∀ x y, (f x y).2 = true ↔ S x y) :
    v.2 = true ↔ ∃ i < n, S (elem w i a) (elem w i b) := by
  simp only [h.flag, hf]

/-! ## One element (R12, R200) -/

section
variable {w : Nat} (x y : BitVec w)

/-- The modulo difference is that of the integers, reduced into `0 .. 2^w - 1`. -/
theorem toNat_sub_eq_emod : ((x - y).toNat : Int) = ((x.toNat : Int) - y.toNat) % 2 ^ w := by
  rw [BitVec.toNat_sub, Int.natCast_emod, Nat.cast_add, Nat.cast_sub y.isLt.le, Nat.cast_pow, Nat.cast_ofNat,
    show (2 ^ w - (y.toNat : Int) + x.toNat) = x.toNat - y.toNat + 2 ^ w by ring, Int.add_emod_right]

/-- A difference of unsigned elements cannot exceed the largest element, so only the lower clamp is seen. -/
theorem subUnsignedSat_toNat : ((subUnsignedSat x y).1.toNat : Int) = max 0 ((x.toNat : Int) - y.toNat) := by
  have hx : (x.toNat : Int) < 2 ^ w := by exact_mod_cast x.isLt
  rw [subUnsignedSat, siToUiSat_toNat, min_eq_left (by omega)]

theorem subUnsignedSat_sat : (subUnsignedSat x y).2 = true ↔ (x.toNat : Int) - y.toNat < 0 := by
  have hx : (x.toNat : Int) < 2 ^ w := by exact_mod_cast x.isLt
  rw [subUnsignedSat, siToUiSat_sat]
  omega

end

/-! ## Instructions -/

section
variable {s : State} {i : Instr} {e : Word} {vD : VReg} {w n : Nat} {a b : Vec}

theorem add_writes {v : Vec} (hv : s.vecEnabled = true) (he : exec i s = result s vD v) (hw : encode i = e)
    (h : Lanewise w n (· + ·) a b v) :
    Writes i e s vD fun d => ∀ k < n, (elem w k d).toNat = ((elem w k a).toNat + (elem w k b).toNat) % 2 ^ w :=
  result_writes hv he hw
    (h.forall_elem (R := fun x y r => r.toNat = (x.toNat + y.toNat) % 2 ^ w) BitVec.toNat_add)

theorem sub_writes {v : Vec} (hv : s.vecEnabled = true) (he : exec i s = result s vD v) (hw : encode i = e)
    (h : Lanewise w n (· - ·) a b v) :
    Writes i e s vD fun d =>
      ∀ k < n, ((elem w k d).toNat : Int) = ((elem w k a).toNat - (elem w k b).toNat) % 2 ^ w :=
  result_writes hv he hw
    (h.forall_elem (R := fun x y r => (r.toNat : Int) = (x.toNat - y.toNat) % 2 ^ w) toNat_sub_eq_emod)

/-- A truth value as a word, 1 or 0: the carry and the complement of the borrow. -/
theorem carry_writes {v : Vec} {c : Word → Word → Prop} [∀ x y, Decidable (c x y)] (hv : s.vecEnabled = true)
    (he : exec i s = result s vD v) (hw : encode i = e) (h : Lanewise 32 4 (fun x y => if c x y then 1 else 0) a b v) :
    Writes i e s vD fun d => ∀ k < 4, (word d k).toNat = if c (word a k) (word b k) then 1 else 0 :=
  result_writes hv he hw
    (h.forall_elem (R := fun x y r => r.toNat = if c x y then 1 else 0) fun x y => by split <;> rfl)

variable {v : Vec × Bool}

theorem addUnsignedSat_writes (hv : s.vecEnabled = true) (he : exec i s = resultSat s vD v) (hw : encode i = e)
    (h : LanewiseSat w n addUnsignedSat a b v) :
    WritesSat i e s vD
      (fun d => ∀ k < n, (elem w k d).toNat = min ((elem w k a).toNat + (elem w k b).toNat) (2 ^ w - 1))
      (∃ k < n, (elem w k a).toNat + (elem w k b).toNat > 2 ^ w - 1) :=
  resultSat_writes hv he hw
    (h.value.forall_elem (R := fun x y r => r.toNat = min (x.toNat + y.toNat) (2 ^ w - 1))
      fun _ _ => uiToUiSat_toNat w _)
    (h.flag_iff fun _ _ => uiToUiSat_sat w _)

theorem subUnsignedSat_writes (hv : s.vecEnabled = true) (he : exec i s = resultSat s vD v) (hw : encode i = e)
    (h : LanewiseSat w n subUnsignedSat a b v) :
    WritesSat i e s vD
      (fun d => ∀ k < n, ((elem w k d).toNat : Int) = max 0 ((elem w k a).toNat - (elem w k b).toNat : Int))
      (∃ k < n, ((elem w k a).toNat - (elem w k b).toNat : Int) < 0) :=
  resultSat_writes hv he hw
    (h.value.forall_elem (R := fun x y r => (r.toNat : Int) = max 0 (x.toNat - y.toNat : Int)) subUnsignedSat_toNat)
    (h.flag_iff subUnsignedSat_sat)

/-- A signed operation `f` on the exact results `g` of the elements, clamped at both ends. -/
theorem signedSat_writes {g : Int → Int → Int} (hv : s.vecEnabled = true) (he : exec i s = resultSat s vD v)
    (hw : encode i = e) (hpos : 0 < w) (h : LanewiseSat w n (fun x y => siToSiSat w (g x.toInt y.toInt)) a b v) :
    WritesSat i e s vD
      (fun d => ∀ k < n, (elem w k d).toInt =
        max (-2 ^ (w - 1)) (min (g (elem w k a).toInt (elem w k b).toInt) (2 ^ (w - 1) - 1)))
      (∃ k < n, g (elem w k a).toInt (elem w k b).toInt < -2 ^ (w - 1) ∨
        g (elem w k a).toInt (elem w k b).toInt > 2 ^ (w - 1) - 1) :=
  resultSat_writes hv he hw
    (h.value.forall_elem (R := fun x y r => r.toInt = max (-2 ^ (w - 1)) (min (g x.toInt y.toInt) (2 ^ (w - 1) - 1)))
      fun _ _ => siToSiSat_toInt w hpos _)
    (h.flag_iff fun _ _ => siToSiSat_sat w _)

end

/-! ## The statements -/

/-- Settles O1: three element sizes of the modulo sum, then three of the difference. -/
theorem addSubModulo : Obligations.AddSubModulo := by
  intro s vD vA vB hv a b
  exact ⟨add_writes hv rfl rfl (bytes2_lanewise _ a b), add_writes hv rfl rfl (halves2_lanewise _ a b),
    add_writes hv rfl rfl (words2_lanewise _ a b), sub_writes hv rfl rfl (bytes2_lanewise _ a b),
    sub_writes hv rfl rfl (halves2_lanewise _ a b), sub_writes hv rfl rfl (words2_lanewise _ a b)⟩

/-- Settles O2: both instructions write a truth value to each word. -/
theorem carryOuts : Obligations.CarryOuts := by
  intro s vD vA vB hv a b
  exact ⟨carry_writes (c := fun x y => x.toNat + y.toNat ≥ 2 ^ 32) hv rfl rfl (words2_lanewise _ a b),
    carry_writes (c := fun x y => x.toNat ≥ y.toNat) hv rfl rfl (words2_lanewise _ a b)⟩

/-- Settles O3: three element sizes of the clamped sum, then three of the clamped difference. -/
theorem unsignedSaturatingAddSub : Obligations.UnsignedSaturatingAddSub := by
  intro s vD vA vB hv a b
  exact ⟨addUnsignedSat_writes hv rfl rfl (satBytes2_lanewise _ a b),
    addUnsignedSat_writes hv rfl rfl (satHalves2_lanewise _ a b),
    addUnsignedSat_writes hv rfl rfl (satWords2_lanewise _ a b),
    subUnsignedSat_writes hv rfl rfl (satBytes2_lanewise _ a b),
    subUnsignedSat_writes hv rfl rfl (satHalves2_lanewise _ a b),
    subUnsignedSat_writes hv rfl rfl (satWords2_lanewise _ a b)⟩

/-- Settles O4: the clamp at both ends, for the exact sum and for the exact difference, in three element sizes. -/
theorem signedSaturatingAddSub : Obligations.SignedSaturatingAddSub := by
  intro s vD vA vB hv a b
  exact ⟨signedSat_writes (g := (· + ·)) hv rfl rfl (by decide) (satBytes2_lanewise addSignedSat a b),
    signedSat_writes (g := (· + ·)) hv rfl rfl (by decide) (satHalves2_lanewise addSignedSat a b),
    signedSat_writes (g := (· + ·)) hv rfl rfl (by decide) (satWords2_lanewise addSignedSat a b),
    signedSat_writes (g := (· - ·)) hv rfl rfl (by decide) (satBytes2_lanewise subSignedSat a b),
    signedSat_writes (g := (· - ·)) hv rfl rfl (by decide) (satHalves2_lanewise subSignedSat a b),
    signedSat_writes (g := (· - ·)) hv rfl rfl (by decide) (satWords2_lanewise subSignedSat a b)⟩

end Sys2Proof.Machine

/-! PROOFS. Integer multiply, multiply-add, multiply-sum, sum across, average, maximum and minimum
(41_int_arith_mul_sum_avg_minmax.md). What is computed from two or three elements is stated once for every width; a
vector whose elements or flags are known by index then gives each instruction's clause. -/

namespace Sys2Proof.Machine

/-! ## Results known by index -/

/-- The elements of `v` are the narrowed values `g`, and its flag is set when that of some element is (R37). -/
structure SatElems (w n : Nat) (g : Nat → BitVec w × Bool) (v : Vec × Bool) : Prop where
  value : ∀ i < n, elem w i v.1 = (g i).1
  flag : v.2 = true ↔ ∃ i < n, (g i).2 = true

theorem satHalves_elems (g : Nat → BitVec 16 × Bool) : SatElems 16 8 g (satHalves g) :=
  ⟨fun _ hi => half_ofHalves _ hi, anyLane_eq_true 8 fun i => (g i).2⟩

theorem satWords_elems (g : Nat → BitVec 32 × Bool) : SatElems 32 4 g (satWords g) :=
  ⟨fun _ hi => word_ofWords _ hi, anyLane_eq_true 4 fun i => (g i).2⟩

theorem half_mulBytes (f : BitVec 8 → BitVec 8 → Int) (odd : Nat) (a b : Vec) :
    ∀ k < 8, half (mulBytes f odd a b) k = BitVec.ofInt 16 (f (byte a (2 * k + odd)) (byte b (2 * k + odd))) :=
  fun _ hk => half_ofHalves _ hk

theorem word_mulHalves (f : BitVec 16 → BitVec 16 → Int) (odd : Nat) (a b : Vec) :
    ∀ k < 4, word (mulHalves f odd a b) k = BitVec.ofInt 32 (f (half a (2 * k + odd)) (half b (2 * k + odd))) :=
  fun _ hk => word_ofWords _ hk

/-! ## One element -/

section
variable {w : Nat} (x y : BitVec w)

/-- An integer narrowed to `w` bits is that integer modulo `2^w`. -/
theorem toNat_ofInt_eq_emod (w : Nat) (z : Int) : ((BitVec.ofInt w z).toNat : Int) = z % 2 ^ w := by
  rw [BitVec.toNat_ofInt, Int.toNat_of_nonneg (Int.emod_nonneg _ (by positivity)), Nat.cast_pow, Nat.cast_ofNat]

/-- Twice the width holds an unsigned product. -/
theorem mulUU_toNat : (BitVec.ofInt (w * 2) (mulUU x y)).toNat = x.toNat * y.toNat := by
  have hlt : x.toNat * y.toNat < 2 ^ (w * 2) := by
    rw [pow_mul, sq]
    exact Nat.mul_lt_mul'' x.isLt y.isLt
  rw [mulUU, ← Nat.cast_mul, BitVec.ofInt_natCast, BitVec.toNat_ofNat, Nat.mod_eq_of_lt hlt]

/-- Twice the width holds a signed product: the largest one, of the two least elements, is `2^(2w - 2)`. -/
theorem mulSS_toInt (hpos : 0 < w) : (BitVec.ofInt (w * 2) (mulSS x y)).toInt = x.toInt * y.toInt := by
  have hpow : (2 : Int) ^ (w * 2 - 2) < 2 ^ (w * 2 - 1) := pow_lt_pow_right₀ one_lt_two (by omega)
  have hle : x.toInt * y.toInt ≤ 2 ^ (w * 2 - 2) := BitVec.toInt_mul_toInt_le
  have hge : -2 ^ (w * 2 - 2) ≤ x.toInt * y.toInt := BitVec.le_toInt_mul_toInt
  exact BitVec.toInt_ofInt_eq_self (by omega) (by rw [mulSS]; omega) (by rw [mulSS]; omega)

/-- The model's integer quotient is the floor of the rational one (R241, R242). -/
theorem mulHighAdd_eq (round : Int) (x y z : BitVec 16) :
    mulHighAdd round x y z = siToSiSat 16 (⌊(x.toInt * y.toInt + round : ℚ) / 2 ^ 15⌋ + z.toInt) := by
  have hfloor : ⌊(x.toInt * y.toInt + round : ℚ) / 2 ^ 15⌋ = (x.toInt * y.toInt + round) / 2 ^ 15 := by
    exact_mod_cast Rat.floor_intCast_div_natCast (x.toInt * y.toInt + round) (2 ^ 15)
  rw [mulHighAdd, mulSS, hfloor]

theorem toNat_mul_add (z : BitVec w) : (x * y + z).toNat = (x.toNat * y.toNat + z.toNat) % 2 ^ w := by
  rw [BitVec.toNat_add, BitVec.toNat_mul, Nat.mod_add_mod]

theorem avgUnsigned_toNat : (avgUnsigned x y).toNat = (x.toNat + y.toNat + 1) / 2 := by
  have hx := x.isLt
  have hy := y.isLt
  rw [avgUnsigned, BitVec.toNat_ofNat, Nat.mod_eq_of_lt (by omega)]

theorem avgSigned_toInt (hpos : 0 < w) : (avgSigned x y).toInt = (x.toInt + y.toInt + 1) / 2 := by
  have hx := BitVec.le_toInt x
  have hy := BitVec.le_toInt y
  have hx' := BitVec.toInt_lt (x := x)
  have hy' := BitVec.toInt_lt (x := y)
  exact BitVec.toInt_ofInt_eq_self hpos (by omega) (by omega)

theorem maxUnsigned_toNat : (maxUnsigned x y).toNat = max x.toNat y.toNat := by
  unfold maxUnsigned
  split <;> omega

theorem maxSigned_toInt : (maxSigned x y).toInt = max x.toInt y.toInt := by
  unfold maxSigned
  split <;> omega

theorem minUnsigned_toNat : (minUnsigned x y).toNat = min x.toNat y.toNat := by
  unfold minUnsigned
  split <;> omega

theorem minSigned_toInt : (minSigned x y).toInt = min x.toInt y.toInt := by
  unfold minSigned
  split <;> omega

end

/-! ## The products inside a word (R244 to R249) -/

theorem sumProducts4_mulUU (a b : Vec) (i : Nat) : sumProducts4 mulUU a b i =
    ((byte a (4 * i)).toNat * (byte b (4 * i)).toNat + (byte a (4 * i + 1)).toNat * (byte b (4 * i + 1)).toNat +
      (byte a (4 * i + 2)).toNat * (byte b (4 * i + 2)).toNat +
      (byte a (4 * i + 3)).toNat * (byte b (4 * i + 3)).toNat : Nat) := by
  simp only [sumProducts4, mulUU, Nat.cast_add, Nat.cast_mul]

theorem sumProducts2_mulUU (a b : Vec) (i : Nat) : sumProducts2 mulUU a b i =
    ((half a (2 * i)).toNat * (half b (2 * i)).toNat +
      (half a (2 * i + 1)).toNat * (half b (2 * i + 1)).toNat : Nat) := by
  simp only [sumProducts2, mulUU, Nat.cast_add, Nat.cast_mul]

/-! ## Instructions -/

section
variable {s : State} {i : Instr} {e : Word} {vD : VReg} {w n : Nat} {a b v : Vec}

/-- An operation of two elements that is `g` on their unsigned values. -/
theorem unsigned2_writes {f : BitVec w → BitVec w → BitVec w} {g : Nat → Nat → Nat} (hv : s.vecEnabled = true)
    (he : exec i s = result s vD v) (hw : encode i = e) (h : Lanewise w n f a b v)
    (hf : ∀ x y, (f x y).toNat = g x.toNat y.toNat) :
    Writes i e s vD fun d => ∀ k < n, (elem w k d).toNat = g (elem w k a).toNat (elem w k b).toNat :=
  result_writes hv he hw (h.forall_elem (R := fun x y r => r.toNat = g x.toNat y.toNat) hf)

/-- An operation of two elements that is `g` on their signed values. -/
theorem signed2_writes {f : BitVec w → BitVec w → BitVec w} {g : Int → Int → Int} (hv : s.vecEnabled = true)
    (he : exec i s = result s vD v) (hw : encode i = e) (h : Lanewise w n f a b v)
    (hf : ∀ x y, (f x y).toInt = g x.toInt y.toInt) :
    Writes i e s vD fun d => ∀ k < n, (elem w k d).toInt = g (elem w k a).toInt (elem w k b).toInt :=
  result_writes hv he hw (h.forall_elem (R := fun x y r => r.toInt = g x.toInt y.toInt) hf)

theorem avgUnsigned_writes (hv : s.vecEnabled = true) (he : exec i s = result s vD v) (hw : encode i = e)
    (h : Lanewise w n avgUnsigned a b v) :
    Writes i e s vD fun d =>
      ∀ k < n, (elem w k d).toNat = ((elem w k a).toNat + (elem w k b).toNat + 1) / 2 :=
  unsigned2_writes (g := fun p q => (p + q + 1) / 2) hv he hw h avgUnsigned_toNat

theorem avgSigned_writes (hv : s.vecEnabled = true) (he : exec i s = result s vD v) (hw : encode i = e)
    (hpos : 0 < w) (h : Lanewise w n avgSigned a b v) :
    Writes i e s vD fun d =>
      ∀ k < n, (elem w k d).toInt = ((elem w k a).toInt + (elem w k b).toInt + 1) / 2 :=
  signed2_writes (g := fun p q => (p + q + 1) / 2) hv he hw h fun x y => avgSigned_toInt x y hpos

theorem mulUU_writes {x y : Nat → BitVec w} (hv : s.vecEnabled = true) (he : exec i s = result s vD v)
    (hw : encode i = e) (h : ∀ k < n, elem (w * 2) k v = BitVec.ofInt (w * 2) (mulUU (x k) (y k))) :
    Writes i e s vD fun d => ∀ k < n, (elem (w * 2) k d).toNat = (x k).toNat * (y k).toNat :=
  result_writes hv he hw fun k hk => by rw [h k hk, mulUU_toNat]

theorem mulSS_writes {x y : Nat → BitVec w} (hv : s.vecEnabled = true) (he : exec i s = result s vD v)
    (hw : encode i = e) (hpos : 0 < w)
    (h : ∀ k < n, elem (w * 2) k v = BitVec.ofInt (w * 2) (mulSS (x k) (y k))) :
    Writes i e s vD fun d => ∀ k < n, (elem (w * 2) k d).toInt = (x k).toInt * (y k).toInt :=
  result_writes hv he hw fun k hk => by rw [h k hk, mulSS_toInt _ _ hpos]

/-- Words that are integers `t` modulo 2^32. -/
theorem moduloWords_writes {t : Nat → Int} (hv : s.vecEnabled = true)
    (he : exec i s = result s vD (ofWords fun k => BitVec.ofInt 32 (t k))) (hw : encode i = e) :
    Writes i e s vD fun d => ∀ k < 4, ((word d k).toNat : Int) = t k % 2 ^ 32 :=
  result_writes hv he hw fun k hk => by rw [word_ofWords _ hk, toNat_ofInt_eq_emod]

/-- The sums of unsigned products are stated over the natural numbers. -/
theorem moduloWords_writes_nat {t : Nat → Int} {u : Nat → Nat} (hv : s.vecEnabled = true)
    (he : exec i s = result s vD (ofWords fun k => BitVec.ofInt 32 (t k))) (hw : encode i = e)
    (ht : ∀ k, t k = u k) : Writes i e s vD fun d => ∀ k < 4, (word d k).toNat = u k % 2 ^ 32 :=
  writes_imp (moduloWords_writes hv he hw) fun d hd k hk => by exact_mod_cast ht k ▸ hd k hk

variable {r : Vec × Bool} {g : Nat → BitVec w × Bool}

/-- Elements that are the unsigned integers `t`, clamped. -/
theorem clampUnsigned_writes {t : Nat → Nat} (hv : s.vecEnabled = true) (he : exec i s = resultSat s vD r)
    (hw : encode i = e) (h : SatElems w n g r) (hg : ∀ k, g k = uiToUiSat w (t k)) :
    WritesSat i e s vD (fun d => ∀ k < n, (elem w k d).toNat = min (t k) (2 ^ w - 1)) (∃ k < n, t k > 2 ^ w - 1) :=
  resultSat_writes hv he hw (fun k hk => by rw [h.value k hk, hg, uiToUiSat_toNat])
    (by simp only [h.flag, hg, uiToUiSat_sat, gt_iff_lt])

/-- Elements that are the signed integers `t`, clamped at both ends. -/
theorem clampSigned_writes {t : Nat → Int} (hv : s.vecEnabled = true) (he : exec i s = resultSat s vD r)
    (hw : encode i = e) (hpos : 0 < w) (h : SatElems w n g r) (hg : ∀ k, g k = siToSiSat w (t k)) :
    WritesSat i e s vD (fun d => ∀ k < n, (elem w k d).toInt = max (-2 ^ (w - 1)) (min (t k) (2 ^ (w - 1) - 1)))
      (∃ k < n, t k < -2 ^ (w - 1) ∨ t k > 2 ^ (w - 1) - 1) :=
  resultSat_writes hv he hw (fun k hk => by rw [h.value k hk, hg, siToSiSat_toInt w hpos])
    (by simp only [h.flag, hg, siToSiSat_sat, gt_iff_lt])

end

/-! ## Saturation of some words, the others being cleared (R250, R251) -/

section
variable {w n : Nat} {p : Nat → Prop} [DecidablePred p] {t : Nat → Int} {r : Vec × Bool}

theorem SatElems.toInt_of_selected (h : SatElems w n (fun k => if p k then siToSiSat w (t k) else (0, false)) r)
    (hpos : 0 < w) {k : Nat} (hk : k < n) (hp : p k) :
    (elem w k r.1).toInt = max (-2 ^ (w - 1)) (min (t k) (2 ^ (w - 1) - 1)) := by
  rw [h.value k hk, if_pos hp, siToSiSat_toInt w hpos]

theorem SatElems.eq_zero_of_not_selected
    (h : SatElems w n (fun k => if p k then siToSiSat w (t k) else (0, false)) r) {k : Nat} (hk : k < n)
    (hp : ¬ p k) : elem w k r.1 = 0 := by
  rw [h.value k hk, if_neg hp]

theorem SatElems.flag_iff_selected (h : SatElems w n (fun k => if p k then siToSiSat w (t k) else (0, false)) r) :
    r.2 = true ↔ ∃ k < n, p k ∧ (t k < -2 ^ (w - 1) ∨ t k > 2 ^ (w - 1) - 1) := by
  have hk (k : Nat) : (if p k then siToSiSat w (t k) else (0, false)).2 = true ↔
      p k ∧ (t k < -2 ^ (w - 1) ∨ t k > 2 ^ (w - 1) - 1) := by
    split
    · next hp => rw [siToSiSat_sat]; exact (and_iff_right hp).symm
    · next hp => exact iff_of_false Bool.false_ne_true fun hq => hp hq.1
  simp only [h.flag, hk]

end

/-- The odd indices below 4 are `2j + 1` for `j` below 2. -/
theorem exists_odd_lt_four {q : Nat → Prop} : (∃ k < 4, k % 2 = 1 ∧ q k) ↔ ∃ j < 2, q (2 * j + 1) := by
  constructor
  · rintro ⟨k, hk, hodd, hq⟩
    exact ⟨k / 2, by omega, by rwa [show 2 * (k / 2) + 1 = k by omega]⟩
  · rintro ⟨j, hj, hq⟩
    exact ⟨2 * j + 1, by omega, by omega, hq⟩

section
variable {s : State} {i : Instr} {e : Word} {vD : VReg}

/-- Word 3 is the integer `t`, clamped; words 0 to 2 are cleared. -/
theorem clampWord3_writes {t : Int} (hv : s.vecEnabled = true)
    (he : exec i s = resultSat s vD (satWords fun k => if k = 3 then siToSiSat 32 t else (0, false)))
    (hw : encode i = e) :
    WritesSat i e s vD
      (fun d => word d 0 = 0 ∧ word d 1 = 0 ∧ word d 2 = 0 ∧
        (word d 3).toInt = max (-2 ^ 31) (min (t) (2 ^ 31 - 1)))
      (t < -2 ^ 31 ∨ t > 2 ^ 31 - 1) := by
  have h := satWords_elems fun k => if k = 3 then siToSiSat 32 t else (0, false)
  have hzero (k : Nat) (hk : k < 3) := h.eq_zero_of_not_selected (k := k) (by omega) (by omega)
  refine resultSat_writes hv he hw ⟨hzero 0 (by decide), hzero 1 (by decide), hzero 2 (by decide),
    h.toInt_of_selected (by decide) (by decide) rfl⟩ (h.flag_iff_selected.trans ⟨?_, fun hsat => ?_⟩)
  · rintro ⟨k, -, rfl, hsat⟩
    exact hsat
  · exact ⟨3, by decide, rfl, hsat⟩

/-- Words 1 and 3 are the integers `u`, clamped; words 0 and 2 are cleared. -/
theorem clampOddWords_writes {t u : Nat → Int} (hv : s.vecEnabled = true)
    (he : exec i s = resultSat s vD (satWords fun k => if k % 2 = 1 then siToSiSat 32 (t k) else (0, false)))
    (hw : encode i = e) (ht : ∀ j, t (2 * j + 1) = u j) :
    WritesSat i e s vD
      (fun d => ∀ j < 2, word d (2 * j) = 0 ∧
        (word d (2 * j + 1)).toInt = max (-2 ^ 31) (min (u j) (2 ^ 31 - 1)))
      (∃ j < 2, u j < -2 ^ 31 ∨ u j > 2 ^ 31 - 1) := by
  have h := satWords_elems fun k => if k % 2 = 1 then siToSiSat 32 (t k) else (0, false)
  simp only [← ht]
  exact resultSat_writes hv he hw
    (fun j hj => ⟨h.eq_zero_of_not_selected (by omega) (by omega),
      h.toInt_of_selected (by decide) (by omega) (by omega)⟩)
    (h.flag_iff_selected.trans exists_odd_lt_four)

end

/-! ## The statements -/

/-- Settles O5: the odd elements, then the even ones; a product needs twice the width of its factors. -/
theorem multiplies : Obligations.Multiplies := by
  intro s vD vA vB hv a b
  exact ⟨mulUU_writes (w := 8) hv rfl rfl (half_mulBytes mulUU 1 a b),
    mulUU_writes (w := 16) hv rfl rfl (word_mulHalves mulUU 1 a b),
    mulSS_writes (w := 8) hv rfl rfl (by decide) (half_mulBytes mulSS 1 a b),
    mulSS_writes (w := 16) hv rfl rfl (by decide) (word_mulHalves mulSS 1 a b),
    mulUU_writes (w := 8) hv rfl rfl (half_mulBytes mulUU 0 a b),
    mulUU_writes (w := 16) hv rfl rfl (word_mulHalves mulUU 0 a b),
    mulSS_writes (w := 8) hv rfl rfl (by decide) (half_mulBytes mulSS 0 a b),
    mulSS_writes (w := 16) hv rfl rfl (by decide) (word_mulHalves mulSS 0 a b)⟩

/-- Settles O6: the high part is a floor, and its sum with the element of vC is clamped once. -/
theorem multiplyAdds : Obligations.MultiplyAdds := by
  intro s vD vA vB vC hv a b c
  refine ⟨clampSigned_writes hv rfl rfl (by decide) (satHalves_elems _) fun k => ?_,
    clampSigned_writes hv rfl rfl (by decide) (satHalves_elems _) fun k => ?_,
    result_writes hv rfl rfl fun k hk => ?_⟩
  · rw [mulHighAdd_eq, Int.cast_zero, add_zero]
  · rw [mulHighAdd_eq, Int.cast_ofNat]
  · rw [half_ofHalves _ hk, toNat_mul_add]

/-- Settles O7: each word is an integer modulo 2^32, a natural number where all factors are unsigned. -/
theorem multiplySumsModulo : Obligations.MultiplySumsModulo := by
  intro s vD vA vB vC hv a b c
  exact ⟨moduloWords_writes_nat hv rfl rfl fun k => by rw [sumProducts4_mulUU, ← Nat.cast_add],
    moduloWords_writes hv rfl rfl,
    moduloWords_writes_nat hv rfl rfl fun k => by rw [sumProducts2_mulUU, ← Nat.cast_add],
    moduloWords_writes hv rfl rfl⟩

/-- Settles O8: the model adds both products first, which makes the same sum. -/
theorem multiplySumsSaturating : Obligations.MultiplySumsSaturating := by
  intro s vD vA vB vC hv a b c
  refine ⟨clampUnsigned_writes hv rfl rfl (satWords_elems _) fun k => ?_,
    clampSigned_writes hv rfl rfl (by decide) (satWords_elems _) fun k => ?_⟩
  · rw [sumProducts2_mulUU, ← Nat.cast_add, Int.toNat_natCast, Nat.add_assoc]
  · rw [sumProducts2, mulSS, mulSS, Int.add_assoc]

/-- Settles O9: two sums into some words only, then three into every word. -/
theorem sumsAcross : Obligations.SumsAcross := by
  intro s vD vA vB hv a b
  refine ⟨clampWord3_writes hv rfl rfl, clampOddWords_writes hv rfl rfl fun j => ?_,
    clampUnsigned_writes hv rfl rfl (satWords_elems _) fun _ => rfl,
    clampSigned_writes hv rfl rfl (by decide) (satWords_elems _) fun _ => rfl,
    clampSigned_writes hv rfl rfl (by decide) (satWords_elems _) fun _ => rfl⟩
  rw [Nat.add_sub_cancel]
  ring

/-- Settles O10: both averages are floors, in three element sizes each. -/
theorem averages : Obligations.Averages := by
  intro s vD vA vB hv a b
  exact ⟨avgUnsigned_writes hv rfl rfl (bytes2_lanewise _ a b),
    avgUnsigned_writes hv rfl rfl (halves2_lanewise _ a b),
    avgUnsigned_writes hv rfl rfl (words2_lanewise _ a b),
    avgSigned_writes hv rfl rfl (by decide) (bytes2_lanewise _ a b),
    avgSigned_writes hv rfl rfl (by decide) (halves2_lanewise _ a b),
    avgSigned_writes hv rfl rfl (by decide) (words2_lanewise _ a b)⟩

/-- Settles O11: the maximum and the minimum, of unsigned and of signed elements, in three element sizes. -/
theorem maximaMinima : Obligations.MaximaMinima := by
  intro s vD vA vB hv a b
  exact ⟨unsigned2_writes hv rfl rfl (bytes2_lanewise _ a b) maxUnsigned_toNat,
    unsigned2_writes hv rfl rfl (halves2_lanewise _ a b) maxUnsigned_toNat,
    unsigned2_writes hv rfl rfl (words2_lanewise _ a b) maxUnsigned_toNat,
    signed2_writes hv rfl rfl (bytes2_lanewise _ a b) maxSigned_toInt,
    signed2_writes hv rfl rfl (halves2_lanewise _ a b) maxSigned_toInt,
    signed2_writes hv rfl rfl (words2_lanewise _ a b) maxSigned_toInt,
    unsigned2_writes hv rfl rfl (bytes2_lanewise _ a b) minUnsigned_toNat,
    unsigned2_writes hv rfl rfl (halves2_lanewise _ a b) minUnsigned_toNat,
    unsigned2_writes hv rfl rfl (words2_lanewise _ a b) minUnsigned_toNat,
    signed2_writes hv rfl rfl (bytes2_lanewise _ a b) minSigned_toInt,
    signed2_writes hv rfl rfl (halves2_lanewise _ a b) minSigned_toInt,
    signed2_writes hv rfl rfl (words2_lanewise _ a b) minSigned_toInt⟩

end Sys2Proof.Machine

/-! PROOFS. Integer compares, logical instructions, element rotates and shifts (42_int_compare_logical_rotate_shift.md).
What each operation makes of one element is stated for every width, and joined to the elementwise vectors of the integer
add and subtract; the logical instructions are stated by bits and need no elements. -/

namespace Sys2Proof.Machine

/-! ## One element (R280, R298 to R309) -/

/-- The mask of a relation that is decided. -/
theorem truth_decide (w : Nat) (p : Prop) [Decidable p] : truth w (decide p) = if p then BitVec.allOnes w else 0 := by
  simp only [truth, decide_eq_true_eq]

section
variable {w : Nat} (x y : BitVec w)

theorem isEqual_eq_ite : isEqual x y = if x = y then BitVec.allOnes w else 0 := truth_decide w _

theorem isGreaterUnsigned_eq_ite :
    isGreaterUnsigned x y = if x.toNat > y.toNat then BitVec.allOnes w else 0 := truth_decide w _

theorem isGreaterSigned_eq_ite :
    isGreaterSigned x y = if x.toInt > y.toInt then BitVec.allOnes w else 0 := truth_decide w _

theorem shiftLeftBy_toNat : (shiftLeftBy x y).toNat = x.toNat * 2 ^ (y.toNat % w) % 2 ^ w := by
  rw [shiftLeftBy, BitVec.toNat_shiftLeft, Nat.shiftLeft_eq]

theorem shiftRightBy_toNat : (shiftRightBy x y).toNat = x.toNat / 2 ^ (y.toNat % w) := by
  rw [shiftRightBy, BitVec.toNat_ushiftRight, Nat.shiftRight_eq_div_pow]

theorem shiftRightAlgebraicBy_toInt : (shiftRightAlgebraicBy x y).toInt = x.toInt / 2 ^ (y.toNat % w) := by
  rw [shiftRightAlgebraicBy, BitVec.toInt_sshiftRight, Int.shiftRight_eq_div_pow, Nat.cast_pow, Nat.cast_ofNat]

/-- The bits that leave at the left of `x * 2^r` come in at its right, below the `r` low-order bits that it leaves 0. -/
theorem toNat_rotateLeft_eq_add {r : Nat} (hr : r < w) :
    (x.rotateLeft r).toNat = x.toNat * 2 ^ r % 2 ^ w + x.toNat * 2 ^ r / 2 ^ w := by
  have hpow : 2 ^ w = 2 ^ (w - r) * 2 ^ r := by rw [← pow_add, Nat.sub_add_cancel hr.le]
  have hlow : x.toNat / 2 ^ (w - r) < 2 ^ r := Nat.div_lt_of_lt_mul (hpow ▸ x.isLt)
  rw [BitVec.toNat_rotateLeft, Nat.mod_eq_of_lt hr, Nat.shiftLeft_eq, Nat.shiftRight_eq_div_pow, hpow,
    Nat.mul_mod_mul_right, Nat.mul_div_mul_right _ _ (Nat.two_pow_pos r), ← Nat.shiftLeft_eq,
    Nat.shiftLeft_add_eq_or_of_lt hlow]

theorem rotateLeftBy_toNat (hpos : 0 < w) :
    (rotateLeftBy x y).toNat = x.toNat * 2 ^ (y.toNat % w) % 2 ^ w + x.toNat * 2 ^ (y.toNat % w) / 2 ^ w :=
  toNat_rotateLeft_eq_add x (Nat.mod_lt _ hpos)

end

/-- Beyond the width a complement reads 0, as the value itself does. -/
theorem getMsbD_not_of_lt {w k : Nat} (x : BitVec w) (hk : k < w) : (~~~x).getMsbD k = !x.getMsbD k := by
  rw [BitVec.getMsbD_not, decide_eq_true hk, Bool.true_and]

/-! ## Instructions -/

section
variable {s : State} {i : Instr} {e : Word} {vD : VReg} {w n : Nat} {a b v : Vec}

/-- A compare by the relation `p`: a mask in each element, and CR6 as R281 says. -/
theorem compared_writes {rc : Bool} {f : BitVec w → BitVec w → BitVec w} {p : BitVec w → BitVec w → Prop}
    [∀ x y, Decidable (p x y)] (hv : s.vecEnabled = true) (he : exec i s = compared s vD rc v) (hw : encode i = e)
    (h : Lanewise w n f a b v) (hf : ∀ x y, f x y = if p x y then BitVec.allOnes w else 0) :
    WritesRecord i e s vD rc
      (fun d => ∀ k < n, elem w k d = if p (elem w k a) (elem w k b) then BitVec.allOnes w else 0) allOrNone :=
  resultCompare_writes hv he hw
    (h.forall_elem (R := fun x y r => r = if p x y then BitVec.allOnes w else 0) hf) (cr6Compare_bits v)

theorem rotateLeftBy_writes (hv : s.vecEnabled = true) (he : exec i s = result s vD v) (hw : encode i = e)
    (hpos : 0 < w) (h : Lanewise w n rotateLeftBy a b v) :
    Writes i e s vD fun d => ∀ k < n, (elem w k d).toNat =
      (elem w k a).toNat * 2 ^ ((elem w k b).toNat % w) % 2 ^ w +
        (elem w k a).toNat * 2 ^ ((elem w k b).toNat % w) / 2 ^ w :=
  unsigned2_writes (g := fun p q => p * 2 ^ (q % w) % 2 ^ w + p * 2 ^ (q % w) / 2 ^ w) hv he hw h
    fun x y => rotateLeftBy_toNat x y hpos

theorem shiftLeftBy_writes (hv : s.vecEnabled = true) (he : exec i s = result s vD v) (hw : encode i = e)
    (h : Lanewise w n shiftLeftBy a b v) :
    Writes i e s vD fun d =>
      ∀ k < n, (elem w k d).toNat = (elem w k a).toNat * 2 ^ ((elem w k b).toNat % w) % 2 ^ w :=
  unsigned2_writes (g := fun p q => p * 2 ^ (q % w) % 2 ^ w) hv he hw h shiftLeftBy_toNat

theorem shiftRightBy_writes (hv : s.vecEnabled = true) (he : exec i s = result s vD v) (hw : encode i = e)
    (h : Lanewise w n shiftRightBy a b v) :
    Writes i e s vD fun d => ∀ k < n, (elem w k d).toNat = (elem w k a).toNat / 2 ^ ((elem w k b).toNat % w) :=
  unsigned2_writes (g := fun p q => p / 2 ^ (q % w)) hv he hw h shiftRightBy_toNat

/-- The shifted element is signed and its count is not. -/
theorem shiftRightAlgebraicBy_writes (hv : s.vecEnabled = true) (he : exec i s = result s vD v) (hw : encode i = e)
    (h : Lanewise w n shiftRightAlgebraicBy a b v) :
    Writes i e s vD fun d => ∀ k < n, (elem w k d).toInt = (elem w k a).toInt / 2 ^ ((elem w k b).toNat % w) :=
  result_writes hv he hw
    (h.forall_elem (R := fun x y r => r.toInt = x.toInt / 2 ^ (y.toNat % w)) shiftRightAlgebraicBy_toInt)

end

/-! ## The statements -/

/-- Settles O12: three relations in three element sizes; the record field is that of the vector written. -/
theorem integerCompares : Obligations.IntegerCompares := by
  intro s vD vA vB rc hv a b
  exact ⟨compared_writes (p := (· = ·)) hv rfl rfl (bytes2_lanewise _ a b) isEqual_eq_ite,
    compared_writes (p := (· = ·)) hv rfl rfl (halves2_lanewise _ a b) isEqual_eq_ite,
    compared_writes (p := (· = ·)) hv rfl rfl (words2_lanewise _ a b) isEqual_eq_ite,
    compared_writes (p := (·.toNat > ·.toNat)) hv rfl rfl (bytes2_lanewise _ a b) isGreaterUnsigned_eq_ite,
    compared_writes (p := (·.toNat > ·.toNat)) hv rfl rfl (halves2_lanewise _ a b) isGreaterUnsigned_eq_ite,
    compared_writes (p := (·.toNat > ·.toNat)) hv rfl rfl (words2_lanewise _ a b) isGreaterUnsigned_eq_ite,
    compared_writes (p := (·.toInt > ·.toInt)) hv rfl rfl (bytes2_lanewise _ a b) isGreaterSigned_eq_ite,
    compared_writes (p := (·.toInt > ·.toInt)) hv rfl rfl (halves2_lanewise _ a b) isGreaterSigned_eq_ite,
    compared_writes (p := (·.toInt > ·.toInt)) hv rfl rfl (words2_lanewise _ a b) isGreaterSigned_eq_ite⟩

/-- Settles O13: each operation of 128-bit vectors acts bit by bit, a complement within the 128 bits only. -/
theorem logicals : Obligations.Logicals := by
  intro s vD vA vB hv a b
  exact ⟨result_writes hv rfl rfl fun _ _ => BitVec.getMsbD_and,
    result_writes hv rfl rfl fun _ hk => by rw [BitVec.getMsbD_and, getMsbD_not_of_lt _ hk],
    result_writes hv rfl rfl fun _ _ => BitVec.getMsbD_or,
    result_writes hv rfl rfl fun _ _ => BitVec.getMsbD_xor,
    result_writes hv rfl rfl fun _ hk => by rw [getMsbD_not_of_lt _ hk, BitVec.getMsbD_or]⟩

/-- Settles O14: the rotate and the three shifts, in three element sizes each. -/
theorem rotatesShifts : Obligations.RotatesShifts := by
  intro s vD vA vB hv a b
  exact ⟨rotateLeftBy_writes hv rfl rfl (by decide) (bytes2_lanewise _ a b),
    rotateLeftBy_writes hv rfl rfl (by decide) (halves2_lanewise _ a b),
    rotateLeftBy_writes hv rfl rfl (by decide) (words2_lanewise _ a b),
    shiftLeftBy_writes hv rfl rfl (bytes2_lanewise _ a b),
    shiftLeftBy_writes hv rfl rfl (halves2_lanewise _ a b),
    shiftLeftBy_writes hv rfl rfl (words2_lanewise _ a b),
    shiftRightBy_writes hv rfl rfl (bytes2_lanewise _ a b),
    shiftRightBy_writes hv rfl rfl (halves2_lanewise _ a b),
    shiftRightBy_writes hv rfl rfl (words2_lanewise _ a b),
    shiftRightAlgebraicBy_writes hv rfl rfl (bytes2_lanewise _ a b),
    shiftRightAlgebraicBy_writes hv rfl rfl (halves2_lanewise _ a b),
    shiftRightAlgebraicBy_writes hv rfl rfl (words2_lanewise _ a b)⟩

end Sys2Proof.Machine

/-! PROOFS. Floating-point arithmetic, maximum and minimum, rounding to an integer, and the conversions
(43_floating_point.md). Every value is an integer over 2^149 or over a multiple of it (`signedInt`), so that ROUND and
the ways of rounding to an integer are shown on integers; each instruction then follows the branches of its element's
definition. -/

namespace Sys2Proof.Machine

/-! ## Signed integers, and the value of a word as one of them -/

/-- An integer given by its sign and its magnitude. -/
def signedInt (s : Bool) (m : Nat) : ℤ := if s then -(m : ℤ) else m

@[simp] theorem signedInt_true (m : Nat) : signedInt true m = -(m : ℤ) := if_pos rfl

@[simp] theorem signedInt_false (m : Nat) : signedInt false m = m := if_neg Bool.false_ne_true

/-- The value as an integer over 2^149. -/
theorem fpValue_eq_signedInt (x : Word) : fpValue x = (signedInt (fpSign x) (fpMag x) : ℚ) / 2 ^ 149 :=
  fpValue_eq_fpVal x

theorem fpTruncate_eq_signedInt (x : Word) (u : Nat) :
    fpTruncate x u = signedInt (fpSign x) (fpMag x * 2 ^ u / 2 ^ 149) := rfl

theorem signedInt_mul (s : Bool) (m k : Nat) : signedInt s (m * k) = signedInt s m * k := by
  cases s <;> simp

theorem signedInt_cast (s : Bool) (m : Nat) : ((signedInt s m : ℤ) : ℚ) = (if s then -1 else 1) * (m : ℚ) := by
  cases s <;> simp

theorem withSign_zero (s : Bool) : withSign s 0 = if s then 0x80000000 else 0 := by cases s <;> rfl

theorem infinity_eq (s : Bool) : infinity s = if s then 0xFF800000 else 0x7F800000 := by cases s <;> rfl

/-! ## `ROUND` (R348) -/

/-- `roundFp` is `ROUND` of the integer `v` over `den`, in units of 2^-149. -/
theorem roundFp_rounded_int (nj : Bool) {v : ℤ} {den : Nat} (hv : v ≠ 0) (hd : 0 < den) :
    Rounded nj ((v : ℚ) / den / 2 ^ 149) (roundFp nj (v < 0) v.natAbs den) := by
  have hsigned : (v : ℚ) = (if decide (v < 0) then -1 else 1) * (v.natAbs : ℚ) := by
    rw [← signedInt_cast, Int.cast_inj, signedInt]
    split <;> simp only [decide_eq_true_eq] at * <;> omega
  have h := roundFp_rounded nj (decide (v < 0)) (Int.natAbs_pos.2 hv) hd
  rwa [← mul_div_assoc, ← hsigned] at h

theorem roundFp_zero (nj s : Bool) (den : Nat) : roundFp nj s 0 den = withSign s 0 := by
  have hq : roundNearest 0 den = 0 := by simp [roundNearest]
  have hm : roundMag nj 0 den = 0 := by simp [roundMag, hq]
  rw [roundFp, hm]

/-- In Java mode only an overflow keeps the result from being the nearest number. -/
theorem Rounded.nearestTo {v : ℚ} {r : Word} (h : Rounded false v r) (hv : |v| < 2 ^ 128 - 2 ^ 103) :
    NearestTo v r := by
  simpa [Rounded, not_le.2 hv] using h

/-- A value that is a single-precision number is its own nearest number. -/
theorem NearestTo.fpValue_eq_of_finite {v : ℚ} {r y : Word} (h : NearestTo v r) (hy : isFinite y)
    (hv : fpValue y = v) : fpValue r = v := by
  have hdist := h.nearest y hy
  rw [hv, sub_self, abs_zero] at hdist
  exact sub_eq_zero.1 (abs_nonpos_iff.1 hdist)

theorem isNaN_eq_false_of_finite {x : Word} (h : isFinite x) : isNaN x = false := by
  simp [isNaN, show fpExp x ≠ 255 from h]

/-- `ROUND` gives no NaN. -/
theorem Rounded.isNaN_eq_false {nj : Bool} {v : ℚ} {r : Word} (h : Rounded nj v r) : isNaN r = false := by
  unfold Rounded at h
  split at h
  · subst h
    split <;> decide
  · split at h
    · subst h
      split <;> decide
    · exact isNaN_eq_false_of_finite h.finite

/-! ## Addition and the fused multiply-add (R350 to R353) -/

theorem fpValue_add (x y : Word) :
    fpValue x + fpValue y = ((fpVal x + fpVal y : ℤ) : ℚ) / (1 : Nat) / 2 ^ 149 := by
  rw [fpValue_eq_fpVal, fpValue_eq_fpVal]
  push_cast
  ring

theorem fpValue_mul_add (x y z : Word) :
    fpValue x * fpValue z + fpValue y =
      ((fpVal x * fpVal z + fpVal y * 2 ^ 149 : ℤ) : ℚ) / (2 ^ 149 : Nat) / 2 ^ 149 := by
  rw [fpValue_eq_fpVal, fpValue_eq_fpVal, fpValue_eq_fpVal]
  push_cast
  field_simp
  ring

theorem intCast_div_eq_zero_iff {v : ℤ} {den : Nat} (hd : 0 < den) : (v : ℚ) / den / 2 ^ 149 = 0 ↔ v = 0 := by
  have hden : (den : ℚ) ≠ 0 := Nat.cast_ne_zero.2 hd.ne'
  simp [hden]

/-- The sum: the model and the statement split alike, and give the same word in every branch but the last, where the
exact sum is rounded. -/
theorem fpAdd_sumOf (nj : Bool) (x y : Word) : SumOf nj x y (fpAdd nj x y) := by
  simp only [SumOf, fpAdd, fpValue_add, intCast_div_eq_zero_iff one_pos, withSign_zero, Bool.and_eq_true]
  split_ifs with hx hy hopposite hxi hyi hzero
  on_goal -1 => exact roundFp_rounded_int nj hzero one_pos
  all_goals rfl

theorem fpSub_differenceOf (nj : Bool) (x y : Word) : DifferenceOf nj x y (fpSub nj x y) := by
  unfold DifferenceOf fpSub
  split_ifs with hx hy
  · rfl
  · rfl
  · exact fpAdd_sumOf nj x (negate y)

/-- The fused sum, branch by branch as for `fpAdd_sumOf`. -/
theorem fpMulAdd_fusedOf (nj : Bool) (x y z : Word) : FusedOf nj x y z (fpMulAdd nj x y z) := by
  simp only [FusedOf, fpMulAdd, fpValue_mul_add, intCast_div_eq_zero_iff (Nat.two_pow_pos 149), withSign_zero,
    infinity_eq, Bool.and_eq_true]
  split_ifs with hx hy hz hinvalid hinf hopposite hsign hyi hzero
  on_goal -1 => exact roundFp_rounded_int nj hzero (Nat.two_pow_pos 149)
  all_goals rfl

theorem isNaN_negate (x : Word) : isNaN (negate x) = isNaN x := by
  have hexp : fpExp (negate x) = fpExp x := by
    have h : signMask.extractLsb' 23 8 = 0 := by decide
    simp [fpExp, negate, BitVec.extractLsb'_xor, h]
  have hfrac : fpFrac (negate x) = fpFrac x := by
    have h : signMask.extractLsb' 0 23 = 0 := by decide
    simp [fpFrac, negate, BitVec.extractLsb'_xor, h]
  simp only [isNaN, hexp, hfrac]

/-- Of operands that are no NaNs the fused sum is the NaN of an invalid operation (R347), or no NaN. -/
theorem FusedOf.eq_defaultNaN_or {nj : Bool} {x y z q : Word} (h : FusedOf nj x y z q) (hx : isNaN x = false)
    (hy : isNaN y = false) (hz : isNaN z = false) : q = 0x7FC00000 ∨ isNaN q = false := by
  simp only [FusedOf, hx, hy, hz, Bool.false_eq_true, if_false] at h
  split_ifs at h with hinvalid hinf hopposite hsign hyi hzero
  · exact .inl h
  · exact .inl h
  · exact .inr (h ▸ by decide)
  · exact .inr (h ▸ by decide)
  · exact .inr (h ▸ hy)
  · exact .inr (h ▸ by decide)
  · exact .inr (h ▸ by decide)
  · exact .inr h.isNaN_eq_false

theorem fpNegMulSub_negatedFusedOf (nj : Bool) (x y z : Word) : NegatedFusedOf nj x y z (fpNegMulSub nj x y z) := by
  unfold NegatedFusedOf fpNegMulSub
  split_ifs with hx hy hz
  · rfl
  · rfl
  · rfl
  · have hq := fpMulAdd_fusedOf nj x (negate y) z
    refine ⟨fpMulAdd nj x (negate y) z, hq, ?_⟩
    rw [Bool.not_eq_true] at hx hy hz
    rcases hq.eq_defaultNaN_or hx ((isNaN_negate y).trans hy) hz with hnan | hnan
    · rw [hnan]
      rfl
    · have hne : fpMulAdd nj x (negate y) z ≠ 0x7FC00000 := by
        intro he
        rw [he] at hnan
        exact absurd hnan (by decide)
      simp only [hnan, hne, Bool.false_eq_true, if_false]
      rfl

/-! ## Maximum and minimum (R354, R355) -/

/-- The infinities are at the ends of the values, 2^128 from 0, and the finite numbers are between them. -/
theorem fpVal_range {x : Word} (h : isNaN x = false) :
    (-(2 ^ 24 * 2 ^ 253) ≤ fpVal x ∧ fpVal x ≤ 2 ^ 24 * 2 ^ 253) ∧
      (x = 0xFF800000 ↔ fpVal x = -(2 ^ 24 * 2 ^ 253)) ∧ (x = 0x7F800000 ↔ fpVal x = 2 ^ 24 * 2 ^ 253) ∧
      (isFinite x ↔ -(2 ^ 24 * 2 ^ 253) < fpVal x ∧ fpVal x < 2 ^ 24 * 2 ^ 253) := by
  cases hi : isInf x with
  | true =>
    unfold isFinite
    rcases eq_infinity_of_isInf hi with rfl | rfl
    · decide
    · decide
  | false =>
    have hfin : isFinite x := fpExp_ne_of_finite h hi
    have hval : -(2 ^ 24 * 2 ^ 253) < fpVal x ∧ fpVal x < 2 ^ 24 * 2 ^ 253 := by
      have hmag := fpMag_le hfin
      unfold fpVal
      split <;> omega
    have hneg : x ≠ 0xFF800000 := by
      rintro rfl
      exact absurd hi (by decide)
    have hpos : x ≠ 0x7F800000 := by
      rintro rfl
      exact absurd hi (by decide)
    exact ⟨by omega, iff_of_false hneg (by omega), iff_of_false hpos (by omega), iff_of_true hfin hval⟩

/-- The order of numbers is that of their values in units of 2^-149. -/
theorem fpLe_iff {x y : Word} (hx : isNaN x = false) (hy : isNaN y = false) : fpLe x y ↔ fpVal x ≤ fpVal y := by
  have hvalue : fpValue x ≤ fpValue y ↔ fpVal x ≤ fpVal y := by
    rw [fpValue_eq_fpVal, fpValue_eq_fpVal, div_le_div_iff_of_pos_right (by positivity), Int.cast_le]
  obtain ⟨hxr, hxneg, -, hxfin⟩ := fpVal_range hx
  obtain ⟨hyr, -, hypos, hyfin⟩ := fpVal_range hy
  simp only [fpLe, hx, hy, hvalue, hxneg, hypos, hxfin, hyfin, true_and]
  omega

/-- The larger of `x` and `y` (R354). -/
def MaximumOf (x y r : Word) : Prop :=
  if isNaN x then r = x ||| 0x00400000
  else if isNaN y then r = y ||| 0x00400000
  else if isZero x ∧ isZero y then
    (x = 0 ∨ y = 0 → r = 0) ∧ (x = 0x80000000 → y = 0x80000000 → r = 0x80000000)
  else (fpLe y x → r = x) ∧ (¬ fpLe y x → r = y)

/-- The smaller of `x` and `y` (R355). -/
def MinimumOf (x y r : Word) : Prop :=
  if isNaN x then r = x ||| 0x00400000
  else if isNaN y then r = y ||| 0x00400000
  else if isZero x ∧ isZero y then
    (x = 0x80000000 ∨ y = 0x80000000 → r = 0x80000000) ∧ (x = 0 → y = 0 → r = 0)
  else ((fpLe x y ∧ ¬ fpLe y x) → r = x) ∧ (¬ (fpLe x y ∧ ¬ fpLe y x) → r = y)

theorem fpMax_maximumOf (x y : Word) : MaximumOf x y (fpMax x y) := by
  unfold MaximumOf fpMax
  split_ifs with hx hy hzero hle
  · rfl
  · rfl
  · rcases eq_zero_of_isZero hzero.1 with rfl | rfl <;> rcases eq_zero_of_isZero hzero.2 with rfl | rfl <;> decide
  · rw [fpLe_iff (Bool.eq_false_of_not_eq_true hy) (Bool.eq_false_of_not_eq_true hx)]
    exact ⟨fun _ => rfl, fun h => absurd hle h⟩
  · rw [fpLe_iff (Bool.eq_false_of_not_eq_true hy) (Bool.eq_false_of_not_eq_true hx)]
    exact ⟨fun h => absurd h hle, fun _ => rfl⟩

theorem fpMin_minimumOf (x y : Word) : MinimumOf x y (fpMin x y) := by
  have hlt_iff (hx : ¬ isNaN x = true) (hy : ¬ isNaN y = true) : (fpLe x y ∧ ¬ fpLe y x) ↔ fpVal x < fpVal y := by
    rw [Bool.not_eq_true] at hx hy
    rw [fpLe_iff hx hy, fpLe_iff hy hx]
    omega
  unfold MinimumOf fpMin
  split_ifs with hx hy hzero hlt
  · rfl
  · rfl
  · rcases eq_zero_of_isZero hzero.1 with rfl | rfl <;> rcases eq_zero_of_isZero hzero.2 with rfl | rfl <;> decide
  · rw [hlt_iff hx hy]
    exact ⟨fun _ => rfl, fun h => absurd hlt h⟩
  · rw [hlt_iff hx hy]
    exact ⟨fun h => absurd h hlt, fun _ => rfl⟩

/-! ## Rounding to an integer (R343, R356 to R359) -/

theorem ceil_signedInt (s : Bool) (m : Nat) :
    ⌈(signedInt s m : ℚ) / 2 ^ 149⌉ = signedInt s (integralMag .up s m) := by
  have h := Rat.ceil_intCast_div_natCast (signedInt s m) (2 ^ 149)
  rw [Nat.cast_pow, Nat.cast_ofNat] at h
  rw [h]
  cases s <;> simp only [signedInt_true, signedInt_false, integralMag, if_true, Bool.false_eq_true, if_false] <;> omega

theorem floor_signedInt (s : Bool) (m : Nat) :
    ⌊(signedInt s m : ℚ) / 2 ^ 149⌋ = signedInt s (integralMag .down s m) := by
  have h := Rat.floor_intCast_div_natCast (signedInt s m) (2 ^ 149)
  rw [Nat.cast_pow, Nat.cast_ofNat] at h
  rw [h]
  cases s <;> simp only [signedInt_true, signedInt_false, integralMag, if_true, Bool.false_eq_true, if_false] <;> omega

/-- Truncation keeps the sign and drops the fraction. -/
theorem towardZero_signedInt (s : Bool) (m : Nat) :
    towardZero ((signedInt s m : ℚ) / 2 ^ 149) = signedInt s (m / 2 ^ 149) := by
  have hneg : (signedInt s m : ℚ) / 2 ^ 149 < 0 ↔ signedInt s m < 0 := by
    rw [div_lt_iff₀ (by positivity), zero_mul, Int.cast_lt_zero]
  rw [towardZero, ceil_signedInt, floor_signedInt]
  simp only [hneg]
  cases s <;> simp only [signedInt_true, signedInt_false, integralMag, if_true, Bool.false_eq_true, if_false] <;> omega

/-- The nearest integer to a fraction, without division. -/
theorem nearestInteger_div_iff {v n : ℤ} {d : Nat} (hd : 0 < d) :
    nearestInteger ((v : ℚ) / d) n ↔ 2 * |v - n * d| ≤ d ∧ (2 * |v - n * d| = d → n % 2 = 0) := by
  have hdq : (0 : ℚ) < d := Nat.cast_pos.2 hd
  have hdist : |(v : ℚ) / d - n| = ((|v - n * d| : ℤ) : ℚ) / d := by
    rw [div_sub' hdq.ne', abs_div, abs_of_pos hdq, mul_comm (d : ℚ)]
    push_cast
    rfl
  rw [nearestInteger, hdist, div_le_div_iff₀ hdq two_pos, div_eq_div_iff hdq.ne' two_ne_zero]
  norm_cast
  rw [one_mul, mul_comm]

theorem nearestInteger_signedInt (s : Bool) (m : Nat) {d : Nat} (hd : 0 < d) :
    nearestInteger ((signedInt s m : ℚ) / d) (signedInt s (roundNearest m d)) := by
  obtain ⟨⟨hhi, hlo⟩, htie⟩ := roundNearest_spec m hd
  rw [nearestInteger_div_iff hd]
  generalize roundNearest m d = q at *
  have habs : |signedInt s m - signedInt s q * d| = |(m : ℤ) - (q * d : Nat)| := by
    cases s
    · rw [Nat.cast_mul]
      rfl
    · rw [← abs_neg, Nat.cast_mul]
      simp only [signedInt_true]
      ring_nf
  have hparity : signedInt s q % 2 = 0 ↔ q % 2 = 0 := by
    cases s <;> simp only [signedInt_true, signedInt_false] <;> omega
  rw [habs, hparity]
  rcases abs_cases ((m : ℤ) - (q * d : Nat)) with ⟨he, _⟩ | ⟨he, _⟩ <;> rw [he] <;> omega

/-! ## The floating-point integer (R369) -/

/-- A scale and a significand of 24 bits make a finite number. -/
theorem exists_word_of_scaled (s : Bool) {k q : Nat} (hk : k ≤ 252) (hlo : 2 ^ 23 ≤ q) (hhi : q ≤ 2 ^ 24) :
    ∃ y, isFinite y ∧ fpSign y = s ∧ fpMag y = q * 2 ^ k := by
  have htoNat : (BitVec.ofNat 32 (k * 2 ^ 23 + q)).toNat = k * 2 ^ 23 + q := by
    rw [BitVec.toNat_ofNat, Nat.mod_eq_of_lt (by omega)]
  have hlt : k * 2 ^ 23 + q < 2 ^ 31 := by omega
  obtain ⟨hsign, hmag, hexp, -⟩ := withSign_fields s (htoNat.trans_lt hlt)
  refine ⟨_, ?_, hsign, ?_⟩
  · rw [isFinite, hexp, fpExp_eq, htoNat]
    omega
  · rw [hmag, fpMag_eq, htoNat, Nat.mod_eq_of_lt hlt, magnitude_scaled (.inr ⟨hlo, hhi⟩)]

/-- An integer in units of 2^-149. -/
theorem signedInt_units (s : Bool) (m : Nat) : ((signedInt s (m * 2 ^ 149) : ℤ) : ℚ) / 2 ^ 149 = signedInt s m := by
  rw [signedInt_cast, Nat.cast_mul, Nat.cast_pow, Nat.cast_ofNat, ← mul_assoc,
    mul_div_cancel_right₀ _ (by positivity), ← signedInt_cast]

/-- A positive integer of at most 2^23 needs 24 significant bits at most, so it is a single-precision number. -/
theorem exists_word_of_integer (s : Bool) {m : Nat} (hpos : 0 < m) (hm : m ≤ 2 ^ 23) :
    ∃ y, isFinite y ∧ fpValue y = signedInt s m := by
  obtain ⟨l, hl⟩ : ∃ l, Nat.log2 m = l := ⟨_, rfl⟩
  have hlo : 2 ^ l ≤ m := hl ▸ Nat.log2_self_le hpos.ne'
  have hhi : m < 2 ^ (l + 1) := hl ▸ Nat.lt_log2_self
  have hl23 : l ≤ 23 := (Nat.pow_le_pow_iff_right one_lt_two).1 (hlo.trans hm)
  have hq1 : 2 ^ 23 ≤ m * 2 ^ (23 - l) := by
    calc 2 ^ 23 = 2 ^ l * 2 ^ (23 - l) := by rw [← pow_add, Nat.add_sub_cancel' hl23]
      _ ≤ m * 2 ^ (23 - l) := Nat.mul_le_mul_right _ hlo
  have hq2 : m * 2 ^ (23 - l) ≤ 2 ^ 24 := by
    calc m * 2 ^ (23 - l) ≤ 2 ^ (l + 1) * 2 ^ (23 - l) := Nat.mul_le_mul_right _ hhi.le
      _ = 2 ^ 24 := by rw [← pow_add]; congr 1; omega
  have hunits : m * 2 ^ (23 - l) * 2 ^ (126 + l) = m * 2 ^ 149 := by
    rw [mul_assoc, ← pow_add]
    congr 2
    omega
  obtain ⟨y, hfin, hsign, hmag⟩ := exists_word_of_scaled s (k := 126 + l) (by omega) hq1 hq2
  refine ⟨y, hfin, ?_⟩
  rw [fpValue_eq_signedInt, hsign, hmag, hunits, signedInt_units]

theorem abs_signedInt (s : Bool) (m : Nat) : |((signedInt s m : ℤ) : ℚ)| = m := by
  cases s <;> simp

/-- An integer of magnitude at most 2^23 is given exactly, and a zero has the sign asked for. -/
theorem roundFp_integer (s : Bool) {m : Nat} (hm : m ≤ 2 ^ 23) :
    isFinite (roundFp false s (m * 2 ^ 149) 1) ∧ fpSign (roundFp false s (m * 2 ^ 149) 1) = s ∧
      fpValue (roundFp false s (m * 2 ^ 149) 1) = signedInt s m := by
  obtain ⟨hsign, hfin, -⟩ := roundFp_error s one_pos (num := m * 2 ^ 149) (by omega)
  refine ⟨hfin, hsign, ?_⟩
  rcases Nat.eq_zero_or_pos m with rfl | hpos
  · have hmag : fpMag (withSign s 0) = 0 := by cases s <;> decide
    rw [Nat.zero_mul, roundFp_zero, fpValue_eq, hmag]
    simp [signedInt]
  · have hr := roundFp_rounded false s (num := m * 2 ^ 149) (by positivity) one_pos
    rw [Nat.cast_one, div_one, ← signedInt_cast, signedInt_units] at hr
    have hmq : (m : ℚ) ≤ 2 ^ 23 := by exact_mod_cast hm
    obtain ⟨y, hy, hyv⟩ := exists_word_of_integer s hpos hm
    exact (hr.nearestTo (by rw [abs_signedInt]; linarith)).fpValue_eq_of_finite hy hyv

/-- An integral magnitude is the magnitude without its fraction, or one more. -/
theorem integralMag_le (mode : IntRounding) (s : Bool) (m : Nat) : integralMag mode s m ≤ m / 2 ^ 149 + 1 := by
  cases mode <;> simp only [integralMag, roundNearest]
  case towardZero => omega
  all_goals split <;> omega

theorem integralMag_zero (mode : IntRounding) (s : Bool) : integralMag mode s 0 = 0 := by
  cases mode <;> cases s <;> decide

/-- A magnitude below 2^23 is rounded to 2^23 at most. -/
theorem integralMag_le_of_fpExp_lt (mode : IntRounding) (s : Bool) {x : Word} (h : fpExp x < 150) :
    integralMag mode s (fpMag x) ≤ 2 ^ 23 := by
  have hmag : fpMag x < 2 ^ 24 * 2 ^ 148 := by
    have hfrac : fpFrac x < 2 ^ 23 := by rw [fpFrac_eq]; omega
    unfold fpMag
    split
    · omega
    · exact Nat.mul_lt_mul_of_lt_of_le (by omega) (Nat.pow_le_pow_right two_pos (by omega)) (by positivity)
  have := integralMag_le mode s (fpMag x)
  omega

/-- A zero is rounded to itself. -/
theorem roundFp_integral_of_isZero (mode : IntRounding) {x : Word} (h : isZero x = true) :
    roundFp false (fpSign x) (integralMag mode (fpSign x) (fpMag x) * 2 ^ 149) 1 = x := by
  have hmag : fpMag x = 0 := by rcases eq_zero_of_isZero h with rfl | rfl <;> decide
  rw [hmag, integralMag_zero, Nat.zero_mul, roundFp_zero]
  rcases eq_zero_of_isZero h with rfl | rfl <;> decide

/-- `fpRoundInt` rounds a number to an integer in the way that its mode rounds a signed fraction. -/
theorem fpRoundInt_integralOf {mode : IntRounding} {f : ℚ → ℤ → Prop}
    (hf : ∀ s m, f ((signedInt s m : ℚ) / 2 ^ 149) (signedInt s (integralMag mode s m))) (x : Word) :
    IntegralOf f x (fpRoundInt mode x) := by
  unfold IntegralOf fpRoundInt
  split_ifs with hnan hkept hlarge hlarge
  · rfl
  · rfl
  · rcases hkept with hinf | hzero | hge
    · simp only [isInf, decide_eq_true_eq] at hinf
      omega
    · exact roundFp_integral_of_isZero mode hzero
    · exact absurd hge hlarge
  · exact absurd (.inr (.inr hlarge)) hkept
  · obtain ⟨hfin, hsign, hval⟩ := roundFp_integer (fpSign x)
      (integralMag_le_of_fpExp_lt mode (fpSign x) (not_le.1 hlarge))
    refine ⟨hfin, hsign, _, hval, ?_⟩
    rw [fpValue_eq_signedInt]
    exact hf (fpSign x) (fpMag x)

/-! ## Conversions from fixed-point (R360) -/

theorem fixedToFp_zero (u : Nat) : fixedToFp 0 u = 0 := by
  rw [fixedToFp, Int.natAbs_zero, Nat.zero_mul, roundFp_zero]
  decide

/-- The quotient of an integer of magnitude at most 2^32 does not overflow, so ROUND gives the nearest number. -/
theorem fixedToFp_nearestTo {n : ℤ} (hn : n ≠ 0) (hle : |n| ≤ 2 ^ 32) (u : Nat) :
    NearestTo ((n : ℚ) / 2 ^ u) (fixedToFp n u) := by
  have hr := roundFp_rounded_int false (v := n * 2 ^ 149) (by positivity) (Nat.two_pow_pos u)
  have hval : ((n * 2 ^ 149 : ℤ) : ℚ) / (2 ^ u : Nat) / 2 ^ 149 = (n : ℚ) / 2 ^ u := by
    rw [Int.cast_mul, Int.cast_pow, Int.cast_ofNat, Nat.cast_pow, Nat.cast_ofNat, div_right_comm,
      mul_div_cancel_right₀ _ (by positivity)]
  have hmag : (n * 2 ^ 149).natAbs = n.natAbs * 2 ^ 149 := Int.natAbs_mul n (2 ^ 149)
  have hneg : n * 2 ^ 149 < 0 ↔ n < 0 := by omega
  simp only [hval, hmag, hneg] at hr
  refine hr.nearestTo ?_
  have hn32 : |(n : ℚ)| ≤ 2 ^ 32 := by exact_mod_cast hle
  calc |(n : ℚ) / 2 ^ u| = |(n : ℚ)| / 2 ^ u := by rw [abs_div, abs_of_pos (by positivity : (0 : ℚ) < 2 ^ u)]
    _ ≤ |(n : ℚ)| := div_le_self (abs_nonneg _) (one_le_pow₀ one_le_two)
    _ < 2 ^ 128 - 2 ^ 103 := by linarith

/-! ## Conversions to fixed-point (R362) -/

/-- The model's truncation is that of the rational value, an infinity being taken as 2^128. -/
theorem fpTruncate_eq_towardZero (x : Word) (u : Nat) : fpTruncate x u = towardZero (fpValue x * 2 ^ u) := by
  have hval : fpValue x * 2 ^ u = (signedInt (fpSign x) (fpMag x * 2 ^ u) : ℚ) / 2 ^ 149 := by
    rw [fpValue_eq_signedInt, signedInt_mul, Int.cast_mul, div_mul_eq_mul_div]
    norm_cast
  rw [hval, towardZero_signedInt, fpTruncate_eq_signedInt]

/-- An infinity is truncated to a number beyond every integer of 32 bits. -/
theorem fpTruncate_infinity (u : Nat) :
    2 ^ 32 < fpTruncate 0x7F800000 u ∧ fpTruncate 0xFF800000 u < -2 ^ 32 := by
  have hle : 2 ^ 24 * 2 ^ 253 ≤ 2 ^ 24 * 2 ^ 253 * 2 ^ u := Nat.le_mul_of_pos_right _ (Nat.two_pow_pos u)
  have hpos : fpSign 0x7F800000 = false ∧ fpMag 0x7F800000 = 2 ^ 24 * 2 ^ 253 := by decide
  have hneg : fpSign 0xFF800000 = true ∧ fpMag 0xFF800000 = 2 ^ 24 * 2 ^ 253 := by decide
  rw [fpTruncate_eq_signedInt, fpTruncate_eq_signedInt, hpos.1, hpos.2, hneg.1, hneg.2]
  simp only [signedInt_true, signedInt_false]
  omega

section
variable {lo hi : ℤ} {u : Nat} {x : Word}

/-- A number, infinite or not, is converted to its truncation, clamped. -/
theorem fixedOf_eq_clamp (hlo : -2 ^ 32 ≤ lo) (hle : lo ≤ hi) (hhi : hi ≤ 2 ^ 32) (hx : isNaN x = false) :
    fixedOf lo hi u x = max lo (min (fpTruncate x u) hi) := by
  obtain ⟨hpos, hneg⟩ := fpTruncate_infinity u
  simp only [fixedOf, hx, Bool.false_eq_true, if_false, ← fpTruncate_eq_towardZero]
  split_ifs with hpinf hninf
  · subst hpinf
    omega
  · subst hninf
    omega
  · omega

/-- An infinity is among the numbers whose truncation is clamped. -/
theorem fixedSaturates_iff (hlo : -2 ^ 32 ≤ lo) (hhi : hi ≤ 2 ^ 32) (hx : isNaN x = false) :
    fixedSaturates lo hi u x ↔ fpTruncate x u < lo ∨ hi < fpTruncate x u := by
  have hinf (h : isInf x = true) : fpTruncate x u < lo ∨ hi < fpTruncate x u := by
    obtain ⟨hpos, hneg⟩ := fpTruncate_infinity u
    rcases eq_infinity_of_isInf h with rfl | rfl
    · exact .inr (hhi.trans_lt hpos)
    · exact .inl (hneg.trans_le hlo)
  rw [fixedSaturates, ← fpTruncate_eq_towardZero]
  exact ⟨fun h => h.2.elim hinf id, fun h => ⟨hx, .inr h⟩⟩

theorem fixedOf_of_isNaN (hx : isNaN x = true) : fixedOf lo hi u x = 0 := if_pos hx

theorem not_fixedSaturates_of_isNaN (hx : isNaN x = true) : ¬ fixedSaturates lo hi u x := by
  simp only [fixedSaturates, hx, Bool.true_eq_false, false_and, not_false_eq_true]

theorem fpToUnsigned_of_not_isNaN (hx : isNaN x = false) : fpToUnsigned u x = siToUiSat 32 (fpTruncate x u) := by
  simp only [fpToUnsigned, hx, Bool.false_eq_true, if_false]

theorem fpToUnsigned_of_isNaN (hx : isNaN x = true) : fpToUnsigned u x = (0, false) := if_pos hx

theorem fpToSigned_of_not_isNaN (hx : isNaN x = false) : fpToSigned u x = siToSiSat 32 (fpTruncate x u) := by
  simp only [fpToSigned, hx, Bool.false_eq_true, if_false]

theorem fpToSigned_of_isNaN (hx : isNaN x = true) : fpToSigned u x = (0, false) := if_pos hx

theorem fpToUnsigned_toNat : ((fpToUnsigned u x).1.toNat : ℤ) = fixedOf 0 (2 ^ 32 - 1) u x := by
  cases hx : isNaN x with
  | true =>
    rw [fpToUnsigned_of_isNaN hx, fixedOf_of_isNaN hx]
    rfl
  | false =>
    rw [fpToUnsigned_of_not_isNaN hx, siToUiSat_toNat, fixedOf_eq_clamp (by decide) (by decide) (by decide) hx]

theorem fpToUnsigned_sat : (fpToUnsigned u x).2 = true ↔ fixedSaturates 0 (2 ^ 32 - 1) u x := by
  cases hx : isNaN x with
  | true =>
    rw [fpToUnsigned_of_isNaN hx]
    exact iff_of_false Bool.false_ne_true (not_fixedSaturates_of_isNaN hx)
  | false => rw [fpToUnsigned_of_not_isNaN hx, siToUiSat_sat, fixedSaturates_iff (by decide) (by decide) hx]

theorem fpToSigned_toInt : (fpToSigned u x).1.toInt = fixedOf (-2 ^ 31) (2 ^ 31 - 1) u x := by
  cases hx : isNaN x with
  | true =>
    rw [fpToSigned_of_isNaN hx, fixedOf_of_isNaN hx]
    rfl
  | false =>
    rw [fpToSigned_of_not_isNaN hx, siToSiSat_toInt 32 (by decide),
      fixedOf_eq_clamp (by decide) (by decide) (by decide) hx]

theorem fpToSigned_sat : (fpToSigned u x).2 = true ↔ fixedSaturates (-2 ^ 31) (2 ^ 31 - 1) u x := by
  cases hx : isNaN x with
  | true =>
    rw [fpToSigned_of_isNaN hx]
    exact iff_of_false Bool.false_ne_true (not_fixedSaturates_of_isNaN hx)
  | false => rw [fpToSigned_of_not_isNaN hx, siToSiSat_sat, fixedSaturates_iff (by decide) (by decide) hx]

end

/-! ## Instructions -/

section
variable {s : State} {i : Instr} {e : Word} {vD : VReg}

/-- A result made word by word: what holds of each word that `f` gives holds of each word of `VR[vD]`. -/
theorem ofWords_writes {f : Nat → Word} {R : Nat → Word → Prop} (hv : s.vecEnabled = true)
    (he : exec i s = result s vD (ofWords f)) (hw : encode i = e) (hR : ∀ k, R k (f k)) :
    Writes i e s vD fun d => ∀ k < 4, R k (word d k) :=
  result_writes hv he hw fun k hk => (word_ofWords f hk).symm ▸ hR k

/-- The same for a saturating result, whose flag is set when that of some word is (R37). -/
theorem satWords_writes {g : Nat → Word × Bool} {R : Nat → Word → Prop} {S : Nat → Prop} (hv : s.vecEnabled = true)
    (he : exec i s = resultSat s vD (satWords g)) (hw : encode i = e) (hR : ∀ k, R k (g k).1)
    (hS : ∀ k, (g k).2 = true ↔ S k) :
    WritesSat i e s vD (fun d => ∀ k < 4, R k (word d k)) (∃ k < 4, S k) :=
  have h := satWords_elems g
  resultSat_writes hv he hw (fun k hk => (word_ofWords _ hk).symm ▸ hR k) (by simp only [h.flag, hS])

/-- The conversion of the integers `n` of the words of `b`, which are `q` as rational numbers. -/
theorem fixedToFp_writes {b : Vec} {n : Word → ℤ} {q : Word → ℚ} {u : Nat} (hv : s.vecEnabled = true)
    (he : exec i s = result s vD (words1 (fun x => fixedToFp (n x) u) b)) (hw : encode i = e)
    (hzero : ∀ x, n x = 0 ↔ x = 0) (hle : ∀ x, |n x| ≤ 2 ^ 32) (hq : ∀ x, (n x : ℚ) = q x) :
    Writes i e s vD fun d => ∀ k < 4,
      if word b k = 0 then word d k = 0 else NearestTo (q (word b k) / 2 ^ u) (word d k) := by
  refine ofWords_writes (R := fun k r => if word b k = 0 then r = 0 else NearestTo (q (word b k) / 2 ^ u) r) hv he hw
    fun k => ?_
  dsimp only
  split_ifs with h
  · rw [(hzero _).2 h, fixedToFp_zero]
  · rw [← hq]
    exact fixedToFp_nearestTo (mt (hzero _).1 h) (hle _) u

end

/-! ## The statements -/

/-- Settles O22: each word is a sum or a difference. -/
theorem floatAddSub : Obligations.FloatAddSub := by
  intro s vD vA vB hv
  exact ⟨ofWords_writes hv rfl rfl fun k => fpAdd_sumOf s.nj (s.fpIn vA k) (s.fpIn vB k),
    ofWords_writes hv rfl rfl fun k => fpSub_differenceOf s.nj (s.fpIn vA k) (s.fpIn vB k)⟩

/-- Settles O23: each word is a fused sum or a negated one. -/
theorem floatMultiplyAdd : Obligations.FloatMultiplyAdd := by
  intro s vD vA vB vC hv
  exact ⟨ofWords_writes hv rfl rfl fun k => fpMulAdd_fusedOf s.nj (s.fpIn vA k) (s.fpIn vB k) (s.fpIn vC k),
    ofWords_writes hv rfl rfl fun k => fpNegMulSub_negatedFusedOf s.nj (s.fpIn vA k) (s.fpIn vB k) (s.fpIn vC k)⟩

/-- Settles O24: each word is the maximum or the minimum of two. -/
theorem floatMaximumMinimum : Obligations.FloatMaximumMinimum := by
  intro s vD vA vB hv
  exact ⟨ofWords_writes (R := fun k r => MaximumOf (s.fpIn vA k) (s.fpIn vB k) r) hv rfl rfl fun k =>
      fpMax_maximumOf (s.fpIn vA k) (s.fpIn vB k),
    ofWords_writes (R := fun k r => MinimumOf (s.fpIn vA k) (s.fpIn vB k) r) hv rfl rfl fun k =>
      fpMin_minimumOf (s.fpIn vA k) (s.fpIn vB k)⟩

/-- Settles O25: each way of rounding, of a signed fraction of 2^149. -/
theorem roundsToInteger : Obligations.RoundsToInteger := by
  intro s vD vB hv b
  have hnearest (sign m) : nearestInteger ((signedInt sign m : ℚ) / 2 ^ 149)
      (signedInt sign (integralMag .nearest sign m)) := by
    have h := nearestInteger_signedInt sign m (Nat.two_pow_pos 149)
    rwa [Nat.cast_pow, Nat.cast_ofNat] at h
  exact ⟨ofWords_writes hv rfl rfl fun k => fpRoundInt_integralOf hnearest (word b k),
    ofWords_writes hv rfl rfl fun k =>
      fpRoundInt_integralOf (mode := .towardZero) (fun s m => (towardZero_signedInt s m).symm) (word b k),
    ofWords_writes hv rfl rfl fun k => fpRoundInt_integralOf (fun s m => (ceil_signedInt s m).symm) (s.fpIn vB k),
    ofWords_writes hv rfl rfl fun k => fpRoundInt_integralOf (fun s m => (floor_signedInt s m).symm) (s.fpIn vB k)⟩

/-- Settles O26: the unsigned and the signed integer of a word have at most 32 bits. -/
theorem convertsFromFixed : Obligations.ConvertsFromFixed := by
  intro s vD vB uimm hv b
  have hunsigned (x : Word) : |(x.toNat : ℤ)| ≤ 2 ^ 32 := by
    have := x.isLt
    rw [abs_of_nonneg] <;> omega
  have hsigned (x : Word) : |x.toInt| ≤ 2 ^ 32 := by
    have hlo := BitVec.le_toInt x
    have hhi := BitVec.toInt_lt (x := x)
    rw [abs_le]
    omega
  exact ⟨fixedToFp_writes (n := fun x => x.toNat) (q := fun x => x.toNat) hv rfl rfl
      (fun x => Int.natCast_eq_zero.trans (BitVec.toNat_inj (y := 0))) hunsigned fun _ => Int.cast_natCast _,
    fixedToFp_writes (n := BitVec.toInt) (q := fun x => x.toInt) hv rfl rfl
      (fun x => BitVec.toInt_inj (y := 0)) hsigned fun _ => rfl⟩

/-- Settles O27: the value and the flag of each word. -/
theorem convertsToFixed : Obligations.ConvertsToFixed := by
  intro s vD vB uimm hv b
  exact ⟨satWords_writes (R := fun k r => (r.toNat : ℤ) = fixedOf 0 (2 ^ 32 - 1) uimm.toNat (word b k)) hv rfl rfl
      (fun _ => fpToUnsigned_toNat) fun _ => fpToUnsigned_sat,
    satWords_writes (R := fun k r => r.toInt = fixedOf (-2 ^ 31) (2 ^ 31 - 1) uimm.toNat (word b k)) hv rfl rfl
      (fun _ => fpToSigned_toInt) fun _ => fpToSigned_sat⟩

end Sys2Proof.Machine

/-! PROOFS. Loads, stores and the shift controls (44_load_store.md), and the words that the spec prints. A quad word is
two double words that little-endian mode swaps, an element of a vector is the bytes it is made of; the bytes of both
then follow from reads and writes of single bytes. -/

namespace Sys2Proof

/-! ## The words that the spec prints -/

/-- A word that the encoder builds for an instruction decodes to it. -/
theorem decode_of_encode {w : Word} {i : Instr} (h : encode i = w) : decode w = .ok i := h ▸ (decodeEncode i).1

/-- Settles O53: each word is the one that the encoder builds for the instruction named. -/
theorem specWords : Obligations.SpecWords := by
  unfold Obligations.SpecWords
  and_intros <;> exact decode_of_encode rfl

end Sys2Proof

namespace Sys2Proof.Machine

/-! ## Elements inside elements (R9) -/

/-- Element `k` of the `n` elements that make up a larger element. -/
theorem elem_elem {m w n i k : Nat} (v : BitVec m) (hk : k < n) (hi : w * n * (i + 1) ≤ m) :
    elem w k (elem (w * n) i v) = elem w (n * i + k) v := by
  have hin : w * (k + 1) ≤ w * n := Nat.mul_le_mul_left w hk
  have hpos : w ≤ w * (k + 1) := Nat.le_mul_of_pos_right w (Nat.succ_pos k)
  have hstart : w * (n * i + k + 1) = w * n * i + w * (k + 1) := by ring
  have hend : w * n * (i + 1) = w * n * i + w * n := by ring
  apply BitVec.eq_of_getLsbD_eq
  intro j hj
  simp only [elem, BitVec.getLsbD_extractLsb', hj, decide_true, Bool.true_and]
  rw [decide_eq_true (by omega), Bool.true_and]
  congr 1
  omega

/-- A byte of two double words put together. -/
theorem byte_append (x y : BitVec 64) {k : Nat} (hk : k < 16) :
    byte (x ++ y) k = if k < 8 then elem 8 k x else elem 8 (k - 8) y := by
  split
  case isTrue hhigh =>
    calc byte (x ++ y) k = elem 8 k (elem (8 * 8) 0 (x ++ y)) := by
          rw [elem_elem _ hhigh (by decide), Nat.mul_zero, Nat.zero_add]
      _ = elem 8 k (elem (8 * 8) 0 x) := congrArg (elem 8 k) (elem_append_init (w := 64) (n := 1) x y one_pos)
      _ = elem 8 k x := by rw [elem_elem _ hhigh (by decide), Nat.mul_zero, Nat.zero_add]
  case isFalse hlow =>
    calc byte (x ++ y) k = elem 8 (k - 8) (elem (8 * 8) 1 (x ++ y)) := by
          rw [elem_elem _ (by omega) (by decide), Nat.mul_one, Nat.add_sub_cancel' (not_lt.1 hlow)]
      _ = elem 8 (k - 8) y := congrArg (elem 8 (k - 8)) (elem_append_last (w := 64) (n := 1) x y)

/-! ## Quad words (R93, R390, R398) -/

/-- Where byte `k` of a quad word lies: little-endian mode swaps the double words. -/
def quadByte (le : Bool) (k : Nat) : Nat := if le then (if k < 8 then 8 + k else k - 8) else k

/-- The swap stays inside the quad word. -/
theorem quadByte_lt (le : Bool) {k : Nat} (hk : k < 16) : quadByte le k < 16 := by
  unfold quadByte
  split_ifs <;> omega

/-- A second swap undoes the first. -/
theorem quadByte_quadByte (le : Bool) {k : Nat} (hk : k < 16) : quadByte le (quadByte le k) = k := by
  unfold quadByte
  split_ifs <;> omega

/-- Addresses of bytes counted from an address further on. -/
theorem byteAddress_add (a : Word) (m k : Nat) : byteAddress (a + BitVec.ofNat 32 m) k = byteAddress a (m + k) := by
  simp only [byteAddress, BitVec.toNat_add, BitVec.toNat_ofNat]
  omega

/-- What a quad-word load reads, byte by byte. -/
theorem State.byte_quadRead (s : State) (q : Word) {k : Nat} (hk : k < 16) :
    byte (s.quadRead q) k = Memory.read s.mem (byteAddress q (quadByte s.littleEndian k)) := by
  unfold State.quadRead quadByte
  cases s.littleEndian with
  | false => exact s.elem_memRead q hk
  | true =>
    simp only [if_true]
    refine (byte_append (s.memRead (q + 8) 8) (s.memRead q 8) hk).trans ?_
    split
    case isTrue hhigh => rw [s.elem_memRead _ hhigh]; exact congrArg _ (byteAddress_add q 8 k)
    case isFalse => exact s.elem_memRead q (by omega)

/-- What a quad-word store writes, byte by byte. -/
theorem elem_quadImage (le : Bool) (v : Vec) {k : Nat} (hk : k < 16) :
    elem 8 k (quadImage le v) = byte v (quadByte le k) := by
  unfold quadImage quadByte
  cases le with
  | false => rfl
  | true =>
    simp only [if_true]
    refine (byte_append (v.extractLsb' 0 64) (v.extractLsb' 64 64) hk).trans ?_
    split
    case isTrue hhigh => exact elem_elem (n := 8) (i := 1) v hhigh (by decide)
    case isFalse =>
      exact (elem_elem (n := 8) (i := 0) v (by omega) (by decide)).trans (by rw [Nat.mul_zero, Nat.zero_add])

/-! ## The lane of an element (R89, R94) -/

section
variable {j : Nat} (hj : j ≤ 4)
include hj

/-- The lane lies inside the vector. -/
theorem laneOf_le (le : Bool) (a : Word) : 8 * 2 ^ j * (laneOf le (2 ^ j) a + 1) ≤ 128 := by
  have := Nat.mod_lt a.toNat (y := 16) (by decide)
  unfold laneOf
  interval_cases j <;> split <;> omega

/-- The lanes of the two byte orders are counted from opposite ends of the vector. -/
theorem laneOf_eq (le : Bool) {a : Word} (ha : a.toNat % 2 ^ j = 0) :
    laneOf le (2 ^ j) a = if le then 16 / 2 ^ j - 1 - a.toNat % 16 / 2 ^ j else a.toNat % 16 / 2 ^ j := by
  unfold laneOf
  interval_cases j <;> split <;> omega

/-- The first byte of the lane. -/
theorem mul_laneOf (le : Bool) {a : Word} (ha : a.toNat % 2 ^ j = 0) :
    2 ^ j * laneOf le (2 ^ j) a = if le then 16 - 2 ^ j - a.toNat % 16 else a.toNat % 16 := by
  unfold laneOf
  interval_cases j <;> split <;> omega

end

/-! ## Instructions -/

section
variable {s : State} {i : Instr} {e : Word} {v : VReg} {rA rB : GReg} {j : Nat}

/-- What an element load writes, in either byte order. -/
theorem loadElement_writes_either {lane : Nat} (hj : j ≤ 4) (hv : s.vecEnabled = true)
    (ha : s.accessible (alignTo (2 ^ j) (s.ea rA rB)) (2 ^ j) false) (he : exec i s = loadElement (2 ^ j) v rA rB s)
    (hw : encode i = e) (hlane : (alignTo (2 ^ j) (s.ea rA rB)).toNat % 16 / 2 ^ j = lane) :
    Writes i e s v fun d =>
      if s.littleEndian then
        elem (8 * 2 ^ j) (16 / 2 ^ j - 1 - lane) d = s.memRead (munge (alignTo (2 ^ j) (s.ea rA rB)) (2 ^ j)) (2 ^ j)
      else elem (8 * 2 ^ j) lane d = s.memRead (alignTo (2 ^ j) (s.ea rA rB)) (2 ^ j) := by
  refine writes_imp (loadElement_writes hv ha he hw rfl (laneOf_le hj _ _)) fun d hd => ?_
  rw [laneOf_eq hj _ (alignTo_mod (by omega) _), hlane] at hd
  cases hle : s.littleEndian <;> rw [hle] at hd <;> exact hd

/-- What an element store writes: the bytes of its lane. -/
theorem storeElement_stores (hj : j ≤ 4) (hv : s.vecEnabled = true)
    (ha : s.accessible (alignTo (2 ^ j) (s.ea rA rB)) (2 ^ j) true) (he : exec i s = storeElement (2 ^ j) v rA rB s)
    (hw : encode i = e) :
    Stores i e s (elementAddress s.littleEndian (2 ^ j) (alignTo (2 ^ j) (s.ea rA rB))) (2 ^ j) fun k =>
      byte (s.vreg v) (if s.littleEndian then 16 - 2 ^ j - (alignTo (2 ^ j) (s.ea rA rB)).toNat % 16 + k
        else (alignTo (2 ^ j) (s.ea rA rB)).toNat % 16 + k) := by
  refine memWrite_stores hv ha he hw (Nat.pow_le_pow_right two_pos (by omega)) fun k hk => ?_
  rw [elem_elem _ hk (laneOf_le hj _ _), mul_laneOf hj _ (alignTo_mod (by omega) _), ite_add]

/-- What a quad-word load writes, byte by byte. -/
theorem loadQuad_writes_bytes (hv : s.vecEnabled = true) (ha : s.accessible (alignTo 16 (s.ea rA rB)) 16 false)
    (he : exec i s = loadQuad v rA rB s) (hw : encode i = e) :
    Writes i e s v fun d => ∀ k < 16,
      byte d k = Memory.read s.mem (byteAddress (alignTo 16 (s.ea rA rB)) (quadByte s.littleEndian k)) :=
  loadQuad_writes hv ha he hw fun _ hk => s.byte_quadRead _ hk

/-- What a quad-word store writes to memory. -/
theorem storeQuad_stores (hv : s.vecEnabled = true) (ha : s.accessible (alignTo 16 (s.ea rA rB)) 16 true)
    (he : exec i s = storeQuad v rA rB s) (hw : encode i = e) :
    Stores i e s (alignTo 16 (s.ea rA rB)) 16 fun k => byte (s.vreg v) (quadByte s.littleEndian k) :=
  memWrite_stores hv ha he hw (by decide) fun _ hk => elem_quadImage s.littleEndian _ hk

/-- A result of consecutive byte numbers, the last of which is 31 at most. -/
theorem consecutive_writes {m : Nat} (hv : s.vecEnabled = true)
    (he : exec i s = result s v (ofBytes fun k => BitVec.ofNat 8 (m + k))) (hw : encode i = e) (hm : m ≤ 16) :
    Writes i e s v fun d => ∀ k < 16, (byte d k).toNat = m + k :=
  result_writes hv he hw fun k hk => by
    rw [byte_ofBytes _ hk, BitVec.toNat_ofNat, Nat.mod_eq_of_lt (by omega)]

end

/-- The low four bits of EA, computed without the wrap at 2^32 (R82, R392). -/
theorem shiftControl_eq (s : State) (rA rB : GReg) :
    shiftControl s rA rB = ((if rA = 0 then 0 else (s.greg rA).toNat) + (s.greg rB).toNat) % 16 := by
  rw [shiftControl, State.ea, State.gregOrZero, BitVec.toNat_add, Nat.mod_mod_of_dvd _ (by decide),
    apply_ite BitVec.toNat]
  rfl

/-! ## The statements -/

/-- Settles O34: both instructions read the quad word at the aligned address. -/
theorem quadWordLoads : Obligations.QuadWordLoads := by
  intro s vD rA rB hv q ha loaded
  exact ⟨loadQuad_writes_bytes hv ha rfl rfl, loadQuad_writes_bytes hv ha rfl rfl⟩

/-- Settles O35: elements of 1, 2 and 4 bytes. -/
theorem elementLoads : Obligations.ElementLoads := by
  intro s vD rA rB hv
  exact ⟨fun ha => loadElement_writes_either (j := 0) (by decide) hv ha rfl rfl (Nat.div_one _),
    fun ha => loadElement_writes_either (j := 1) (by decide) hv ha rfl rfl rfl,
    fun ha => loadElement_writes_either (j := 2) (by decide) hv ha rfl rfl rfl⟩

/-- Settles O36: elements of 1, 2 and 4 bytes. -/
theorem elementStores : Obligations.ElementStores := by
  intro s vS rA rB hv
  exact ⟨fun ha => storeElement_stores (j := 0) (by decide) hv ha rfl rfl,
    fun ha => storeElement_stores (j := 1) (by decide) hv ha rfl rfl,
    fun ha => storeElement_stores (j := 2) (by decide) hv ha rfl rfl⟩

/-- Settles O37: both instructions write the quad word at the aligned address. -/
theorem quadWordStores : Obligations.QuadWordStores := by
  intro s vS rA rB hv q ha stored
  exact ⟨storeQuad_stores hv ha rfl rfl, storeQuad_stores hv ha rfl rfl⟩

/-- Settles O38: the store changes nothing that the load's address, byte order and access depend on, so each byte comes
back from where O37 put it, swapped twice or not at all. -/
theorem storeThenLoad : Obligations.StoreThenLoad := by
  intro s vS vD rA rB hv hstore hload
  obtain ⟨⟨-, t, hexec, ht, hstored, -⟩, -⟩ := quadWordStores s vS rA rB hv hstore
  have hcontext : t.vecEnabled = s.vecEnabled ∧ t.ea = s.ea ∧ t.littleEndian = s.littleEndian ∧
      t.accessible = s.accessible := by
    rw [ht]
    exact ⟨rfl, rfl, rfl, rfl⟩
  obtain ⟨hven, hea, hle, hacc⟩ := hcontext
  obtain ⟨⟨-, u, hexec', -, hloaded, -⟩, -⟩ :=
    quadWordLoads t vD rA rB (hven.trans hv) (by rwa [hacc, hea])
  refine ⟨t, u, hexec, hexec', eq_of_bytes fun k hk => ?_⟩
  calc byte (u.vreg vD) k
      = Memory.read t.mem (byteAddress (alignTo 16 (s.ea rA rB)) (quadByte s.littleEndian k)) := by
        rw [← hea, ← hle]
        exact hloaded k hk
    _ = byte (s.vreg vS) (quadByte s.littleEndian (quadByte s.littleEndian k)) := hstored _ (quadByte_lt _ hk)
    _ = byte (s.vreg vS) k := by rw [quadByte_quadByte _ hk]

/-- Settles O39: the byte numbers start at the shift count, or at 16 less it. -/
theorem shiftControls : Obligations.ShiftControls := by
  intro s vD rA rB hv sh
  have hsh : shiftControl s rA rB = sh := shiftControl_eq s rA rB
  have hlt : sh < 16 := Nat.mod_lt _ (by decide)
  exact ⟨consecutive_writes hv (by rw [← hsh]; rfl) rfl hlt.le,
    consecutive_writes hv (by rw [← hsh]; rfl) rfl (Nat.sub_le _ _)⟩

end Sys2Proof.Machine

/-! PROOFS. Pack, unpack, splat, merge, permute, select and whole-register shifts (45_permute_format.md). A vector made
element by element is described by the elements it is made of; pixels and shifts of the whole register are described by
bits counted from the most significant end (R8). -/

namespace Sys2Proof.Machine

/-! ## Bits of elements and of fields, from the most significant end (R8, R9) -/

/-- Bit `k` of element `i` of `w` bits is bit `w * i + k` of the vector. -/
theorem getMsbD_elem {w i k : Nat} (v : Vec) (hk : k < w) (hi : w * (i + 1) ≤ 128) :
    (elem w i v).getMsbD k = v.getMsbD (w * i + k) := by
  rw [Nat.mul_succ] at hi
  rw [BitVec.getMsbD_eq_getLsbD, BitVec.getMsbD_eq_getLsbD, elem_getLsbD _ _ _ _ (by omega), Nat.mul_succ,
    decide_eq_true hk, decide_eq_true (by omega)]
  congr 2
  omega

/-- Bit `k` of the field that starts at bit `a` is bit `a + k` of the word. -/
theorem getMsbD_field {a len k : Nat} (x : Word) (hk : k < len) (ha : a + len ≤ 32) :
    (field x a len).getMsbD k = x.getMsbD (a + k) := by
  rw [field, BitVec.getMsbD_extractLsb', decide_eq_true hk, decide_eq_true (by omega), Bool.true_and, Bool.true_and]
  congr 1
  omega

/-! ## Saturated bytes known by index -/

theorem satBytes_elems (g : Nat → BitVec 8 × Bool) : SatElems 8 16 g (satBytes g) :=
  ⟨fun _ hi => byte_ofBytes _ hi, anyLane_eq_true 16 fun i => (g i).2⟩

/-! ## Pixels (R420, R426) -/

/-- A pixel holds bits 7, 8-12, 16-20 and 24-28 of the word. -/
theorem getMsbD_packPixel (x : Word) {k : Nat} (hk : k < 16) : (packPixel x).getMsbD k =
    x.getMsbD (if k = 0 then 7 else if k < 6 then k + 7 else if k < 11 then k + 10 else k + 13) := by
  have hsource : (if k = 0 then 7 else if k < 6 then k + 7 else if k < 11 then k + 10 else k + 13) =
      if 1 + 5 + 5 ≤ k then 24 + (k - (1 + 5 + 5)) else if 1 + 5 ≤ k then 16 + (k - (1 + 5))
        else if 1 ≤ k then 8 + (k - 1) else 7 + k := by
    split_ifs <;> omega
  simp only [packPixel, BitVec.getMsbD_append, hsource]
  split_ifs <;> exact getMsbD_field x (by omega) (by decide)

/-- Channel `q`, from 1 to 3, of a pixel takes bits `5 * q - 4` to `5 * q`, after three zeros. -/
theorem getMsbD_channel (h : BitVec 16) {q j : Nat} (hpos : 1 ≤ q) (hq : q ≤ 3) (hj : j < 8) :
    ((h.extractLsb' (15 - 5 * q) 5).setWidth 8).getMsbD j =
      if j < 3 then false else h.getMsbD (5 * (q - 1) + j - 2) := by
  rw [BitVec.getMsbD_setWidth]
  split_ifs with h3
  · rw [decide_eq_false (by omega), Bool.false_and]
  · rw [BitVec.getMsbD_extractLsb', decide_eq_true (by omega), decide_eq_true (by omega), decide_eq_true (by omega),
      Bool.true_and, Bool.true_and, Bool.true_and]
    congr 1
    omega

/-- The high-order bit of a pixel fills a byte. -/
theorem getMsbD_signByte (h : BitVec 16) {j : Nat} (hj : j < 8) :
    ((h.extractLsb' 15 1).signExtend 8).getMsbD j = h.getMsbD 0 := by
  rw [BitVec.getMsbD_signExtend, decide_eq_true hj, Bool.true_and, BitVec.msb_eq_getMsbD_zero,
    show j + 1 - 8 = 0 by omega, ite_self, BitVec.getMsbD_extractLsb']
  rfl

/-- A word unpacked from a pixel: eight copies of bit 0, then the three channels. -/
theorem getMsbD_unpackPixel (h : BitVec 16) {k : Nat} (hk : k < 32) : (unpackPixel h).getMsbD k =
    if k < 8 then h.getMsbD 0 else if k % 8 < 3 then false else h.getMsbD (5 * (k / 8 - 1) + k % 8 - 2) := by
  have hmod : k % 8 < 8 := Nat.mod_lt _ (by decide)
  simp only [unpackPixel, BitVec.getMsbD_append]
  by_cases h3 : 8 + 8 + 8 ≤ k
  · rw [if_pos h3, if_neg (by omega), show k / 8 = 3 by omega, show k - (8 + 8 + 8) = k % 8 by omega]
    exact getMsbD_channel h (q := 3) (by decide) (by decide) hmod
  by_cases h2 : 8 + 8 ≤ k
  · rw [if_neg h3, if_pos h2, if_neg (by omega), show k / 8 = 2 by omega, show k - (8 + 8) = k % 8 by omega]
    exact getMsbD_channel h (q := 2) (by decide) (by decide) hmod
  by_cases h1 : 8 ≤ k
  · rw [if_neg h3, if_neg h2, if_pos h1, if_neg (by omega), show k / 8 = 1 by omega, show k - 8 = k % 8 by omega]
    exact getMsbD_channel h (q := 1) (by decide) (by decide) hmod
  · rw [if_neg h3, if_neg h2, if_neg h1, if_pos (not_le.1 h1)]
    exact getMsbD_signByte h (not_le.1 h1)

/-! ## Two vectors interleaved (R436) -/

/-- The even elements of an interleaving are those of the first vector, the odd ones those of the second. -/
theorem elem_of_interleave {w n first : Nat} {a b v : Vec} (h : ∀ k < 2 * n, elem w k v = interleave a b first k) :
    ∀ i < n, elem w (2 * i) v = elem w (first + i) a ∧ elem w (2 * i + 1) v = elem w (first + i) b := by
  intro i hi
  rw [h _ (by omega), h _ (by omega), interleave, interleave, if_pos (by omega), if_neg (by omega)]
  exact ⟨by rw [Nat.mul_div_cancel_left _ two_pos], by rw [show (2 * i + 1) / 2 = i by omega]⟩

/-! ## Shifts of the whole register (R446, R449) -/

/-- A shift left by `m` bytes; a zero byte comes in at the right. -/
theorem byte_shiftLeft (a : Vec) (m : Nat) {i : Nat} (hi : i < 16) :
    byte (a <<< (8 * m)) i = if i + m ≤ 15 then byte a (i + m) else 0 := by
  apply BitVec.eq_of_getMsbD_eq
  intro k hk
  rw [getMsbD_elem _ hk (by omega), BitVec.getMsbD_shiftLeft]
  split_ifs with hin
  · rw [getMsbD_elem _ hk (by omega)]
    congr 1
    omega
  · rw [BitVec.getMsbD_of_ge _ _ (by omega)]
    exact BitVec.getMsbD_zero.symm

/-- A shift right by `m` bytes; a zero byte comes in at the left. -/
theorem byte_shiftRight (a : Vec) (m : Nat) {i : Nat} (hi : i < 16) :
    byte (a >>> (8 * m)) i = if i ≥ m then byte a (i - m) else 0 := by
  apply BitVec.eq_of_getMsbD_eq
  intro k hk
  rw [getMsbD_elem _ hk (by omega), BitVec.getMsbD_ushiftRight, decide_eq_true (by omega), Bool.true_and]
  split_ifs with hin
  · rw [getMsbD_elem _ hk (by omega), decide_eq_false (by omega), Bool.not_false, Bool.true_and]
    congr 1
    omega
  · rw [decide_eq_true (by omega), Bool.not_true, Bool.false_and]
    exact BitVec.getMsbD_zero.symm

/-- The model's test of the counts, as R449 says it. -/
theorem countsAgree_iff (b : Vec) : countsAgree b = true ↔ ∀ i < 16, (byte b i).toNat % 8 = b.toNat % 8 := by
  simp only [countsAgree, List.all_eq_true, List.mem_range, decide_eq_true_eq]
  rfl

/-! ## Selection (R445) -/

/-- The mask chooses between the bits of the two vectors. -/
theorem getMsbD_select (a b c : Vec) {k : Nat} (hk : k < 128) :
    ((a &&& ~~~c) ||| (b &&& c)).getMsbD k = if c.getMsbD k then b.getMsbD k else a.getMsbD k := by
  rw [BitVec.getMsbD_or, BitVec.getMsbD_and, BitVec.getMsbD_and, getMsbD_not_of_lt _ hk]
  cases c.getMsbD k <;> simp

/-! ## Instructions -/

section
variable {s : State} {i : Instr} {e : Word} {vD vB : VReg} {m w n : Nat} {v : Vec} {x : Nat → BitVec m}

/-- Elements that are the low-order bits of `x`. -/
theorem narrowed_writes (hv : s.vecEnabled = true) (he : exec i s = result s vD v) (hw : encode i = e)
    (h : ∀ k < n, elem w k v = (x k).setWidth w) :
    Writes i e s vD fun d => ∀ k < n, (elem w k d).toNat = (x k).toNat % 2 ^ w :=
  result_writes hv he hw fun k hk => by rw [h k hk, BitVec.toNat_setWidth]

/-- Elements that are `x`, sign-extended. -/
theorem signExtended_writes (hv : s.vecEnabled = true) (he : exec i s = result s vD v) (hw : encode i = e)
    (hle : m ≤ w) (h : ∀ k < n, elem w k v = (x k).signExtend w) :
    Writes i e s vD fun d => ∀ k < n, (elem w k d).toInt = (x k).toInt :=
  result_writes hv he hw fun k hk => by rw [h k hk, BitVec.toInt_signExtend_of_le hle]

/-- Words that are pixels unpacked. -/
theorem unpackedPixels_writes {p : Nat → BitVec 16} (hv : s.vecEnabled = true)
    (he : exec i s = result s vD (ofWords fun k => unpackPixel (p k))) (hw : encode i = e) :
    Writes i e s vD fun d => ∀ j < 4, ∀ k < 32, (word d j).getMsbD k =
      if k < 8 then (p j).getMsbD 0
      else if k % 8 < 3 then false else (p j).getMsbD (5 * (k / 8 - 1) + k % 8 - 2) :=
  result_writes hv he hw fun j hj k hk => by rw [word_ofWords _ hj, getMsbD_unpackPixel _ hk]

/-- The elements from the high-order end on, interleaved. -/
theorem mergeHigh_writes {a b : Vec} (hv : s.vecEnabled = true) (he : exec i s = result s vD v) (hw : encode i = e)
    (h : ∀ k < 2 * n, elem w k v = interleave a b 0 k) :
    Writes i e s vD fun d => ∀ k < n, elem w (2 * k) d = elem w k a ∧ elem w (2 * k + 1) d = elem w k b :=
  result_writes hv he hw fun k hk => by simpa only [Nat.zero_add] using elem_of_interleave h k hk

/-- A bit shift of the whole register: the new value is known where the counts of all bytes agree. -/
theorem shiftWhole_writes (hv : s.vecEnabled = true) (he : exec i s = shiftWhole s vD vB v) (hw : encode i = e) :
    Writes i e s vD fun d =>
      (∀ k < 16, (byte (s.vreg vB) k).toNat % 8 = (s.vreg vB).toNat % 8) → d = v := by
  rw [shiftWhole] at he
  split at he
  case isTrue => exact result_writes hv he hw fun _ => rfl
  case isFalse hdisagree =>
    exact resultDrawn_writes hv he hw fun hagree => absurd ((countsAgree_iff _).2 hagree) hdisagree

variable {r : Vec × Bool} {g : Nat → BitVec w × Bool} {t : Nat → Int}

/-- Elements that are the signed integers `t`, clamped into the unsigned range. -/
theorem clampToUnsigned_writes (hv : s.vecEnabled = true) (he : exec i s = resultSat s vD r) (hw : encode i = e)
    (h : SatElems w n g r) (hg : ∀ k, g k = siToUiSat w (t k)) :
    WritesSat i e s vD (fun d => ∀ k < n, ((elem w k d).toNat : Int) = max 0 (min (t k) (2 ^ w - 1)))
      (∃ k < n, t k < 0 ∨ t k > 2 ^ w - 1) :=
  resultSat_writes hv he hw (fun k hk => by rw [h.value k hk, hg, siToUiSat_toNat])
    (by simp only [h.flag, hg, siToUiSat_sat, gt_iff_lt])

end

/-! ## The statements -/

/-- Settles O15: two packs of low-order halves, and the pixels. -/
theorem packsModulo : Obligations.PacksModulo := by
  intro s vD vA vB hv a b
  exact ⟨narrowed_writes hv rfl rfl fun _ hk => byte_ofBytes _ hk,
    narrowed_writes hv rfl rfl fun _ hk => half_ofHalves _ hk,
    result_writes hv rfl rfl fun j hj k hk => by rw [half_ofHalves _ hj, getMsbD_packPixel _ hk]⟩

/-- Settles O16: the clamp at the upper end, at both ends into the unsigned range, and at both ends into the signed
range, from half words and from words. -/
theorem packsSaturating : Obligations.PacksSaturating := by
  intro s vD vA vB hv a b
  exact ⟨clampUnsigned_writes hv rfl rfl (satBytes_elems _) fun _ => rfl,
    clampUnsigned_writes hv rfl rfl (satHalves_elems _) fun _ => rfl,
    clampToUnsigned_writes hv rfl rfl (satBytes_elems _) fun _ => rfl,
    clampToUnsigned_writes hv rfl rfl (satHalves_elems _) fun _ => rfl,
    clampSigned_writes hv rfl rfl (by decide) (satBytes_elems _) fun _ => rfl,
    clampSigned_writes hv rfl rfl (by decide) (satHalves_elems _) fun _ => rfl⟩

/-- Settles O17: four sign extensions, then the pixels of either half. -/
theorem unpacks : Obligations.Unpacks := by
  intro s vD vB hv b
  exact ⟨signExtended_writes hv rfl rfl (by decide) fun _ hk => half_ofHalves _ hk,
    signExtended_writes hv rfl rfl (by decide) fun _ hk => word_ofWords _ hk,
    signExtended_writes hv rfl rfl (by decide) fun _ hk => half_ofHalves _ hk,
    signExtended_writes hv rfl rfl (by decide) fun _ hk => word_ofWords _ hk,
    unpackedPixels_writes hv rfl rfl, unpackedPixels_writes hv rfl rfl⟩

/-- Settles O18: one element in every element, or the immediate sign-extended. -/
theorem splats : Obligations.Splats := by
  intro s vD vB hv b
  exact ⟨fun _ => result_writes hv rfl rfl fun _ hk => byte_ofBytes _ hk,
    fun _ => result_writes hv rfl rfl fun _ hk => half_ofHalves _ hk,
    fun _ => result_writes hv rfl rfl fun _ hk => word_ofWords _ hk,
    fun imm => ⟨signExtended_writes (x := fun _ => imm) hv rfl rfl (by decide) fun _ hk => byte_ofBytes _ hk,
      signExtended_writes (x := fun _ => imm) hv rfl rfl (by decide) fun _ hk => half_ofHalves _ hk,
      signExtended_writes (x := fun _ => imm) hv rfl rfl (by decide) fun _ hk => word_ofWords _ hk⟩⟩

/-- Settles O19: the interleaving from element 0 on, then from the first element of the low-order half on. -/
theorem merges : Obligations.Merges := by
  intro s vD vA vB hv a b
  exact ⟨mergeHigh_writes hv rfl rfl fun _ hk => byte_ofBytes _ hk,
    mergeHigh_writes hv rfl rfl fun _ hk => half_ofHalves _ hk,
    mergeHigh_writes hv rfl rfl fun _ hk => word_ofWords _ hk,
    result_writes hv rfl rfl (elem_of_interleave fun _ hk => byte_ofBytes _ hk),
    result_writes hv rfl rfl (elem_of_interleave fun _ hk => half_ofHalves _ hk),
    result_writes hv rfl rfl (elem_of_interleave fun _ hk => word_ofWords _ hk)⟩

/-- Settles O20: the bytes of `vperm` and `vsldoi` are known by index, and `vsel` acts bit by bit. -/
theorem permuteSelectShift : Obligations.PermuteSelectShift := by
  intro s vD vA vB vC hv a b c
  exact ⟨result_writes hv rfl rfl fun _ hk => byte_ofBytes _ hk,
    result_writes hv rfl rfl fun _ hk => getMsbD_select a b c hk,
    fun _ => result_writes hv rfl rfl fun _ hk => byte_ofBytes _ hk⟩

/-- Settles O21: shifts by bytes, then by bits, whose result counts only where the counts agree. -/
theorem wholeShifts : Obligations.WholeShifts := by
  intro s vD vA vB hv a b
  refine ⟨result_writes hv rfl rfl fun _ hk => byte_shiftLeft a _ hk,
    result_writes hv rfl rfl fun _ hk => byte_shiftRight a _ hk,
    writes_imp (shiftWhole_writes hv rfl rfl) fun d hd hagree => ?_,
    writes_imp (shiftWhole_writes hv rfl rfl) fun d hd hagree => ?_⟩
  · rw [hd hagree, BitVec.toNat_shiftLeft, Nat.shiftLeft_eq, bitCount]
  · rw [hd hagree, BitVec.toNat_ushiftRight, Nat.shiftRight_eq_div_pow, bitCount]

end Sys2Proof.Machine

/-! PROOFS. VSCR moves and data streams (46_vscr_and_streams.md). VSCR is read and written bit by bit; what a stream
touch, a stop and a move of the stream engine do is said once for each of their cases, as an equation. The engine counts
the cache blocks of a unit as R471 does (`Stream.blocksInUnit_eq_ceil`), but `StreamProgress` as it is written does not:
its remainder by the block size is taken among the rationals, where every remainder is 0, so that it leaves out where
in its first cache block the unit starts. `streamProgress_with_nat_remainder` is the statement with the remainder of
natural numbers; `not_streamProgress` refutes the one that is written. -/

namespace Sys2Proof.Machine

/-! ## VSCR (R35, R40, R460, R461) -/

/-- Numbering from the most significant end (R8). -/
theorem bit_eq_getMsbD (x : Word) {k : Nat} (hk : k < 32) : bit x k = x.getMsbD k := by
  rw [bit, BitVec.getMsbD_eq_getLsbD, decide_eq_true hk, Bool.true_and]

/-- A word right-justified in a vector: bits 0-95 are zero, and bit `96 + k` is bit `k` of the word (R460). -/
theorem getMsbD_setWidth_word (x : Word) :
    (∀ k < 96, (x.setWidth 128).getMsbD k = false) ∧ ∀ k < 32, (x.setWidth 128).getMsbD (96 + k) = bit x k := by
  refine ⟨fun k hk => ?_, fun k hk => ?_⟩
  · rw [BitVec.getMsbD_setWidth, decide_eq_false (by omega), Bool.false_and]
  · rw [BitVec.getMsbD_setWidth, decide_eq_true (by omega), Bool.true_and, bit_eq_getMsbD x hk]
    exact congrArg x.getMsbD (by omega)

/-- Bit `k` of the last word of a vector. -/
theorem bit_word_three (v : Vec) {k : Nat} (hk : k < 32) : bit (word v 3) k = v.getMsbD (96 + k) := by
  rw [bit_eq_getMsbD _ hk, getMsbD_elem v hk (by decide)]

/-- What a read of VSCR gives: a free bit is 1 only where 1 was last written, and NJ is `State.nj` (R36, R40). -/
theorem State.bit_vscrRead (s : State) {k : Nat} (hk : k < 32) :
    bit s.vscrRead k =
      ((bit s.vscr k && (k = 15 || k = 31 || bit (s.undefinedNow.setWidth 32) k)) || (s.nj && k = 15)) := by
  have hnj : bit (if s.nj then bitMask 15 else 0) k = (s.nj && decide (k = 15)) := by
    cases s.nj with
    | false => exact BitVec.getLsbD_zero
    | true => exact bit_bitMask (by decide) hk
  rw [State.vscrRead, bit_or, bit_and, bit_or, bit_or, bit_bitMask (by decide) hk, bit_bitMask (by decide) hk, hnj]

theorem State.vscrRead_nj (s : State) : bit s.vscrRead 15 = s.nj := by
  rw [s.bit_vscrRead (by decide), State.nj]
  cases bit s.vscr 15 <;> simp

theorem State.vscrRead_sat (s : State) : bit s.vscrRead 31 = bit s.vscr 31 := by
  simp [s.bit_vscrRead]

/-- A reserved bit last written as 0 reads as 0 (R40). -/
theorem State.vscrRead_reserved (s : State) {k : Nat} (hk : k < 32) (hnj : k ≠ 15) (h : bit s.vscr k = false) :
    bit s.vscrRead k = false := by
  rw [s.bit_vscrRead hk, h, decide_eq_false hnj, Bool.false_and, Bool.and_false, Bool.or_false]

/-- What `mtvscr` leaves in VSCR: the word, NJ being 1 on an NJ_ONLY implementation (R461). -/
theorem State.bit_writeVscr (s : State) (w : Word) {k : Nat} (hk : k < 32) :
    bit (s.writeVscr w).vscr k = (bit w k || (s.cfg.njOnly && k = 15)) := by
  unfold State.writeVscr
  cases s.cfg.njOnly with
  | false => simp
  | true => simp [bit_or, bit_bitMask, hk]

/-- Settles O41: `mfvscr` writes VSCR as it reads, `mtvscr` stores the last word of its source. -/
theorem vscrMoves : Obligations.VscrMoves := by
  intro s vD vB hv
  obtain ⟨hzero, hlow⟩ := getMsbD_setWidth_word s.vscrRead
  refine ⟨resultDrawn_writes hv rfl rfl ⟨hzero, ?_, ?_, fun k hk hnj _ hwritten => ?_⟩, rfl,
    (s.writeVscr (word (s.vreg vB) 3)).advance, whenAvailable_on hv _, rfl, ?_, fun k hk hnj => ?_⟩
  · exact (hlow 15 (by decide)).trans s.vscrRead_nj
  · exact (hlow 31 (by decide)).trans s.vscrRead_sat
  · exact (hlow k hk).trans (s.vscrRead_reserved hk hnj hwritten)
  · rw [State.advance_vscr, s.bit_writeVscr _ (by decide), bit_word_three _ (by decide), decide_eq_true rfl,
      Bool.and_true, Bool.or_comm]
  · rw [State.advance_vscr, s.bit_writeVscr _ hk, bit_word_three _ hk, decide_eq_false hnj, Bool.and_false,
      Bool.or_false]

/-! ## Stream touches (R463 to R466) -/

section
variable {s : State} {strm : BitVec 2} {rA rB : GReg} {i : Instr}

/-- The four stream touches are `streamTouch` with its two hints. -/
theorem exec_touch (hi : i ∈ [.dst strm rA rB, .dstt strm rA rB, .dstst strm rA rB, .dststt strm rA rB]) (s : State) :
    ∃ transient forStore, exec i s = streamTouch s transient forStore strm rA rB := by
  simp only [List.mem_cons, List.not_mem_nil, or_false] at hi
  rcases hi with rfl | rfl | rfl | rfl
  · exact ⟨false, false, rfl⟩
  · exact ⟨true, false, rfl⟩
  · exact ⟨false, true, rfl⟩
  · exact ⟨true, true, rfl⟩

variable (hs : s.cfg.streamsImplemented = true) (transient forStore : Bool) (strm rB)
include hs

theorem streamTouch_invalid (hA : rA = 0) :
    streamTouch s transient forStore strm rA rB = .refused .invalidStreamForm := by
  rw [streamTouch, hs, if_neg (by decide), if_pos hA]

theorem streamTouch_untranslated (hA : rA ≠ 0) (hdr : s.translated = false) :
    streamTouch s transient forStore strm rA rB = .refused .streamUntranslated := by
  rw [streamTouch, hs, if_neg (by decide), if_neg hA, hdr, if_pos (by decide)]

theorem streamTouch_starts (hA : rA ≠ 0) (hdr : s.translated = true) :
    streamTouch s transient forStore strm rA rB =
      .next (s.setStream strm (some (s.newStream transient forStore rA rB))).advance := by
  rw [streamTouch, hs, if_neg (by decide), if_neg hA, hdr, if_neg (by decide)]

end

/-- Settles O46: the A field is looked at before MSR[DR]. -/
theorem streamRefusals : Obligations.StreamRefusals := by
  intro s strm rA rB i hs hi
  obtain ⟨transient, forStore, he⟩ := exec_touch hi s
  exact ⟨fun hA => he.trans (streamTouch_invalid strm rB hs transient forStore hA),
    fun hA hdr => he.trans (streamTouch_untranslated strm rB hs transient forStore hA hdr)⟩

/-! The descriptor in rB (R463) -/

theorem field_toNat (w : Word) (a len : Nat) : (field w a len).toNat = w.toNat / 2 ^ (32 - a - len) % 2 ^ len := by
  rw [field, BitVec.extractLsb'_toNat, Nat.shiftRight_eq_div_pow]

theorem field_eq_zero_iff (w : Word) (a len : Nat) :
    field w a len = 0 ↔ w.toNat / 2 ^ (32 - a - len) % 2 ^ len = 0 := by
  rw [← field_toNat]
  exact BitVec.toNat_inj.symm

theorem descriptorSize_eq (w : Word) :
    descriptorSize w = if w.toNat / 2 ^ 24 % 32 = 0 then 32 else w.toNat / 2 ^ 24 % 32 := by
  simp only [descriptorSize, field_eq_zero_iff, field_toNat, Nat.reduceSub, Nat.reducePow]

theorem descriptorCount_eq (w : Word) :
    descriptorCount w = if w.toNat / 2 ^ 16 % 256 = 0 then 256 else w.toNat / 2 ^ 16 % 256 := by
  simp only [descriptorCount, field_eq_zero_iff, field_toNat, Nat.reduceSub, Nat.reducePow]

/-- The stride is read as a signed half word. -/
theorem descriptorStride_eq (w : Word) :
    descriptorStride w =
      if w.toNat % 2 ^ 16 = 0 then 32768
      else if w.toNat % 2 ^ 16 < 2 ^ 15 then ((w.toNat % 2 ^ 16 : Nat) : Int)
      else ((w.toNat % 2 ^ 16 : Nat) : Int) - 2 ^ 16 := by
  have hsign : 2 * (w.toNat % 2 ^ 16) < 2 ^ 16 ↔ w.toNat % 2 ^ 16 < 2 ^ 15 := by omega
  simp only [descriptorStride, field_eq_zero_iff, BitVec.toInt_eq_toNat_cond, field_toNat, Nat.reduceSub, pow_zero,
    Nat.div_one, hsign]
  norm_cast

/-- Settles O44: each of the four starts the stream that `State.newStream` describes, with its own two hints. -/
theorem streamTouches : Obligations.StreamTouches := by
  intro s strm rA rB i w t0 st0 hs hA hdr hi d
  have hexec : encode i = w ∧ exec i s = streamTouch s t0 st0 strm rA rB := by
    rcases hi with ⟨rfl, rfl, rfl, rfl⟩ | ⟨rfl, rfl, rfl, rfl⟩ | ⟨rfl, rfl, rfl, rfl⟩ | ⟨rfl, rfl, rfl, rfl⟩ <;>
      exact ⟨rfl, rfl⟩
  obtain ⟨hencode, htouch⟩ := hexec
  refine ⟨hencode, _, htouch.trans (streamTouch_starts strm rB hs t0 st0 hA hdr), rfl, fun tag htag => ?_, ?_⟩
  · exact (s.setStream_stream strm tag _).trans (if_neg htag)
  · refine (s.setStream_stream strm strm _).trans ((if_pos rfl).trans ?_)
    rw [State.newStream, descriptorSize_eq, descriptorCount_eq, descriptorStride_eq]
    rfl

/-! ## Stops (R467, R469) -/

/-- A stream is read from the stream table only. -/
@[simp] theorem State.advance_stream (s : State) (tag : BitVec 2) : s.advance.stream tag = s.stream tag := rfl

theorem exec_dss (strm : BitVec 2) (s : State) :
    exec (.dss strm) s = .next (if s.cfg.streamsImplemented then s.setStream strm none else s).advance := rfl

theorem exec_dssall (strm : BitVec 2) (s : State) :
    exec (.dssall strm) s = .next (if s.cfg.streamsImplemented then s.clearStreams else s).advance := rfl

/-- Settles O43: each of the six is a no-op without the facility. -/
theorem streamsNoOps : Obligations.StreamsNoOps := by
  intro s strm rA rB i hs hi
  simp only [List.mem_cons, List.not_mem_nil, or_false] at hi
  rcases hi with rfl | rfl | rfl | rfl | rfl | rfl
  · exact streamTouch_noop hs false false strm rA rB
  · exact streamTouch_noop hs true false strm rA rB
  · exact streamTouch_noop hs false true strm rA rB
  · exact streamTouch_noop hs true true strm rA rB
  · rw [exec_dss, hs, if_neg Bool.false_ne_true, State.advance]
  · rw [exec_dssall, hs, if_neg Bool.false_ne_true, State.advance]

/-- Settles O45, by cases on the facility: with it the slot or the whole table is emptied, without it nothing is. -/
theorem streamStops : Obligations.StreamStops := by
  intro s strm
  rw [exec_dss, exec_dssall]
  refine ⟨rfl, rfl, ?_⟩
  cases s.cfg.streamsImplemented with
  | false => exact ⟨⟨s.advance, rfl, rfl, fun tag => by simp⟩, s.advance, rfl, rfl, fun tag => by simp⟩
  | true =>
    exact ⟨⟨(s.setStream strm none).advance, rfl, rfl, fun tag => by simp [State.setStream_stream]⟩,
      s.clearStreams.advance, rfl, rfl, fun tag => by simp⟩

/-! ## The engine (R462, R471, R472) -/

section
variable {s : State} {rest : List EngineMove} {st : Stream} (hs : s.cfg.streamsImplemented = true)

theorem State.streamEnabled_iff : s.streamEnabled st = true ↔ bit s.msr 27 = true ∧ bit s.msr 17 = st.pr := by
  rw [State.streamEnabled, Bool.and_eq_true, beq_iff_eq, State.translated, State.userMode]

/-- The first slot looked at holds an enabled stream: it is the one that moves. -/
theorem State.prefetchFrom_of_enabled (fuel : Nat) {tag : BitVec 2} (hst : s.stream tag = some st)
    (hen : s.streamEnabled st = true)
    (hf : s.accessFaults (st.blockAddress s.cfg.cacheBlockLog2) (2 ^ s.cfg.cacheBlockLog2) false = false) :
    s.prefetchFrom (fuel + 1) tag = { s.setStream tag (st.next s.cfg.cacheBlockLog2) with turn := tag + 1 } := by
  simp [State.prefetchFrom, hst, hen, hf]

include hs

theorem State.engine_eq_makeMove {m : EngineMove} (h : s.schedule = m :: rest) :
    s.engine = ({ s with schedule := rest } : State).makeMove m := by
  simp [State.engine, hs, h]

theorem State.engine_abort {tag : BitVec 2} (h : s.schedule = .abort tag :: rest) :
    s.engine = ({ s with schedule := rest } : State).setStream tag none :=
  State.engine_eq_makeMove hs h

theorem State.engine_prefetch (h : s.schedule = .prefetch :: rest) (hst : s.stream s.turn = some st)
    (hen : s.streamEnabled st = true)
    (hf : s.accessFaults (st.blockAddress s.cfg.cacheBlockLog2) (2 ^ s.cfg.cacheBlockLog2) false = false) :
    s.engine = { s.setStream s.turn (st.next s.cfg.cacheBlockLog2) with schedule := rest, turn := s.turn + 1 } :=
  (State.engine_eq_makeMove hs h).trans
    (State.prefetchFrom_of_enabled (s := { s with schedule := rest }) 3 hst hen hf)

end

/-! ## The number of cache blocks of a unit (R471) -/

/-- The ceiling of R471, the remainder of the unit's address being that of natural numbers. -/
theorem Stream.blocksInUnit_eq_ceil (st : Stream) (k : Nat) :
    (st.blocksInUnit k : Int) = ⌈((16 * st.size + st.unitAddress.toNat % 2 ^ k : Nat) : ℚ) / 2 ^ k⌉ := by
  unfold Stream.blocksInUnit
  generalize 16 * st.size + st.unitAddress.toNat % 2 ^ k = n
  have hpos : 0 < 2 ^ k := Nat.two_pow_pos k
  have hquot := Nat.div_add_mod (n + (2 ^ k - 1)) (2 ^ k)
  have hrem := Nat.mod_lt (n + (2 ^ k - 1)) hpos
  generalize (n + (2 ^ k - 1)) / 2 ^ k = q at *
  have hle : n ≤ 2 ^ k * q := by omega
  have hlt : 2 ^ k * q < n + 2 ^ k := by omega
  rw [eq_comm, Int.ceil_eq_iff, lt_div_iff₀ (by positivity), div_le_iff₀ (by positivity), sub_mul, sub_lt_iff_lt_add,
    one_mul, mul_comm]
  exact_mod_cast And.intro hlt hle

/-- The stream after a cache block, its number of cache blocks as R471 counts them. -/
theorem Stream.next_eq (st : Stream) (k : Nat) :
    st.next k =
      if st.block + 1 < ⌈((16 * st.size + st.unitAddress.toNat % 2 ^ k : Nat) : ℚ) / 2 ^ k⌉ then
        some { st with block := st.block + 1 }
      else if st.unit + 1 < st.count then some { st with unit := st.unit + 1, block := 0 }
      else none := by
  rw [← st.blocksInUnit_eq_ceil k, Stream.next]
  norm_cast

/-- The statement of O47 with the remainder of R471, that of natural numbers, in place of that of rationals. -/
theorem streamProgress_with_nat_remainder (s : State) (rest : List EngineMove) (hs : s.cfg.streamsImplemented = true) :
    (∀ tag, s.schedule = .abort tag :: rest →
      ∃ t, s.engine = t ∧ t = { s with schedule := rest, streams := t.streams } ∧ t.stream tag = none ∧
        ∀ tag', tag' ≠ tag → t.stream tag' = s.stream tag') ∧
    ∀ st, s.schedule = .prefetch :: rest → s.stream s.turn = some st → bit s.msr 27 = true → bit s.msr 17 = st.pr →
      let k := s.cfg.cacheBlockLog2
      s.accessFaults (st.blockAddress k) (2 ^ k) false = false →
      ∃ t, s.engine = t ∧ t = { s with schedule := rest, streams := t.streams, turn := s.turn + 1 } ∧
        (∀ tag', tag' ≠ s.turn → t.stream tag' = s.stream tag') ∧
        t.stream s.turn =
          if st.block + 1 < ⌈((16 * st.size + st.unitAddress.toNat % 2 ^ k : Nat) : ℚ) / 2 ^ k⌉ then
            some { st with block := st.block + 1 }
          else if st.unit + 1 < st.count then some { st with unit := st.unit + 1, block := 0 }
          else none := by
  refine ⟨?_, ?_⟩
  · intro tag h
    refine ⟨_, State.engine_abort hs h, rfl, ?_, fun tag' hne => ?_⟩
    · exact (State.setStream_stream _ tag tag none).trans (if_pos rfl)
    · exact (State.setStream_stream _ tag tag' none).trans (if_neg hne)
  · intro st h hst hdr hpr k hf
    refine ⟨_, State.engine_prefetch hs h hst (State.streamEnabled_iff.2 ⟨hdr, hpr⟩) hf, rfl, fun tag' hne => ?_, ?_⟩
    · exact (State.setStream_stream s s.turn tag' _).trans (if_neg hne)
    · exact (State.setStream_stream s s.turn s.turn _).trans ((if_pos rfl).trans (st.next_eq k))

/-! ## O47 as it is written -/

/-- Among the rationals every remainder is 0, since division is exact. -/
theorem rat_mod_eq_zero (a : ℚ) {b : ℚ} (hb : b ≠ 0) : a % b = 0 := by
  rw [Field.mod_eq, mul_div_cancel_right₀ a hb, sub_self]

/-- One unit of 32 bytes, in the second half of a cache block of 32 bytes and the first half of the next. -/
def straddlingStream : Stream :=
  { ea := 16, size := 2, count := 1, stride := 64, transient := false, forStore := false, pr := false, unit := 0,
    block := 0 }

/-- The stream in slot 0, whose turn it is, with MSR[DR] = 1 and MSR[PR] = 0. -/
def straddlingState : State :=
  { State.reset.setStream 0 (some straddlingStream) with
    msr := 0x00000010
    schedule := [.prefetch]
    cfg := { Config.default with streamsImplemented := true } }

/-- The first of the two cache blocks is not the last. -/
theorem straddlingState_engine :
    straddlingState.engine.stream 0 = some { straddlingStream with block := 1 } := by
  rw [State.engine_prefetch (s := straddlingState) (st := straddlingStream) rfl rfl rfl (by decide) (by decide)]
  decide

/-- Refutes O47: in `straddlingState` the stream goes on to its second cache block, where the statement, which counts
`⌈(32 + 0) / 32⌉ = 1` cache blocks instead of the `⌈(32 + 16) / 32⌉ = 2` of R471, has it end. -/
theorem not_streamProgress : ¬ Obligations.StreamProgress := by
  intro h
  obtain ⟨-, hprefetch⟩ := h straddlingState [] rfl
  obtain ⟨t, rfl, -, -, hslot⟩ := hprefetch straddlingStream rfl rfl (by decide) (by decide) (by decide)
  have hcount : ⌈(16 * straddlingStream.size + straddlingStream.unitAddress.toNat % 2 ^ 5 : ℚ) / 2 ^ 5⌉ = 1 := by
    rw [rat_mod_eq_zero _ (by norm_num)]
    norm_num [straddlingStream]
  have hend : straddlingState.engine.stream 0 = none := by
    refine hslot.trans ((if_neg fun hlt => ?_).trans (if_neg (by decide)))
    exact absurd (hlt.trans_eq hcount) (by decide)
  cases straddlingState_engine.symm.trans hend

end Sys2Proof.Machine

/-! PROOFS. The values after reset (70_reset_and_hazards.md), and the accesses that fault (60_exceptions.md R510, R517):
what each of the four shared loads and stores answers where the environment's predicate holds. -/

namespace Sys2Proof.Machine

/-! ## Reset (R540 to R547) -/

theorem State.reset_stream (tag : BitVec 2) : State.reset.stream tag = none :=
  Vector.getElem_replicate tag.isLt

theorem State.reset_vreg (r : VReg) : State.reset.vreg r = 0 :=
  Vector.getElem_replicate r.isLt

theorem State.reset_greg (r : GReg) : State.reset.greg r = 0 :=
  Vector.getElem_replicate r.isLt

/-- Settles O54: no register is marked in use. -/
theorem resetVrsave : Obligations.ResetVrsave := rfl

/-- Settles O55: register files and the stream table are uniform, no byte of memory is listed, and each other value is
written in `State.reset`. -/
theorem resetChoices : Obligations.ResetChoices :=
  ⟨State.reset_stream, State.reset_vreg, State.reset_greg, rfl, rfl, rfl, rfl, rfl, rfl, rfl,
    fun _ => Memory.read_of_not_listed fun _ hc => absurd hc List.not_mem_nil, rfl⟩

/-! ## Data storage faults (R510, R517) -/

section
variable {s : State} {v : VReg} {rA rB : GReg} {n : Nat}

/-- An access for which the environment's predicate holds stops, a breakpoint match or not. -/
theorem withAccess_fault {ea : Word} {store : Bool} (hf : s.accessFaults ea n store = true) (left : State)
    (k : Result) : withAccess s ea n store left k = .fault (.dataStorage left) := if_pos hf

theorem loadElement_fault (hv : s.vecEnabled = true) (hf : s.accessFaults (alignTo n (s.ea rA rB)) n false = true) :
    loadElement n v rA rB s = .fault (.dataStorage s) :=
  (whenAvailable_on hv _).trans (withAccess_fault hf _ _)

theorem loadQuad_fault (hv : s.vecEnabled = true) (hf : s.accessFaults (alignTo 16 (s.ea rA rB)) 16 false = true) :
    loadQuad v rA rB s = .fault (.dataStorage (s.drawn.setVreg v s.undefinedNow)) :=
  (whenAvailable_on hv _).trans (withAccess_fault hf _ _)

theorem storeElement_fault (hv : s.vecEnabled = true) (hf : s.accessFaults (alignTo n (s.ea rA rB)) n true = true) :
    storeElement n v rA rB s = .fault (.dataStorage s) :=
  (whenAvailable_on hv _).trans (withAccess_fault hf _ _)

theorem storeQuad_fault (hv : s.vecEnabled = true) (hf : s.accessFaults (alignTo 16 (s.ea rA rB)) 16 true = true) :
    storeQuad v rA rB s = .fault (.dataStorage s) :=
  (whenAvailable_on hv _).trans (withAccess_fault hf _ _)

/-- What a quad-word load that faults leaves: the draw and `VR[vD]` are all that differ (R517). -/
theorem setVreg_drawn_kept (s : State) (v : VReg) (d : Vec) :
    othersKept s (s.drawn.setVreg v d) v ∧ KeptBesideVectors s (s.drawn.setVreg v d) := by
  refine ⟨fun r hr => State.setVreg_vreg_ne s.drawn v r d hr, ?_⟩
  constructor <;> intros <;> rfl

end

/-- Settles O40: three sizes of element loads, two quad-word loads, and the stores. -/
theorem dataStorageStops : Obligations.DataStorageStops := by
  intro s v rA rB n i hv
  refine ⟨?_, ?_, ?_⟩
  · rintro (⟨rfl, rfl⟩ | ⟨rfl, rfl⟩ | ⟨rfl, rfl⟩) hf
    all_goals exact loadElement_fault hv hf
  · intro hi hf
    obtain ⟨hothers, hkept⟩ := setVreg_drawn_kept s v s.undefinedNow
    refine ⟨s.drawn.setVreg v s.undefinedNow, ?_, rfl, hothers, rfl, rfl, hkept⟩
    rcases hi with rfl | rfl
    all_goals exact loadQuad_fault hv hf
  · rintro (⟨rfl, rfl⟩ | ⟨rfl, rfl⟩ | ⟨rfl, rfl⟩ | ⟨rfl, rfl | rfl⟩) hf
    · exact storeElement_fault hv hf
    · exact storeElement_fault hv hf
    · exact storeElement_fault hv hf
    · exact storeQuad_fault hv hf
    · exact storeQuad_fault hv hf

end Sys2Proof.Machine

/-! PROOFS. Floating-point compares (47_fp_compare_estimate.md R371 to R374). The three relations and the two bounds are
comparisons of values in units of 2^-149, where the order of numbers `fpLe` is one too. -/

namespace Sys2Proof.Machine

/-! ## The order of numbers (R349, R370) -/

section
variable {x y : Word}

/-- `fpLe` with the NaNs included. -/
theorem fpLe_iff_fpVal : fpLe x y ↔ isNaN x = false ∧ isNaN y = false ∧ fpVal x ≤ fpVal y := by
  refine ⟨fun h => ?_, fun ⟨hx, hy, h⟩ => (fpLe_iff hx hy).2 h⟩
  have ⟨hx, hy, _⟩ := h
  exact ⟨hx, hy, (fpLe_iff hx hy).1 h⟩

theorem fpCompare_iff {rel : Int → Int → Bool} :
    fpCompare rel x y = true ↔ isNaN x = false ∧ isNaN y = false ∧ rel (fpVal x) (fpVal y) = true := by
  simp only [fpCompare, Bool.and_eq_true, Bool.not_eq_true', and_assoc]

theorem fpCompare_eq_iff : fpCompare (fun v w => v = w) x y = true ↔ fpLe x y ∧ fpLe y x := by
  simp only [fpCompare_iff, fpLe_iff_fpVal, decide_eq_true_eq, le_antisymm_iff (a := fpVal x)]
  tauto

theorem fpCompare_le_iff : fpCompare (fun v w => v ≤ w) x y = true ↔ fpLe x y := by
  simp only [fpCompare_iff, fpLe_iff_fpVal, decide_eq_true_eq]

theorem fpCompare_ge_iff : fpCompare (fun v w => w ≤ v) x y = true ↔ fpLe y x := by
  simp only [fpCompare_iff, fpLe_iff_fpVal, decide_eq_true_eq]
  tauto

theorem fpCompare_gt_iff : fpCompare (fun v w => w < v) x y = true ↔ fpLe y x ∧ ¬ fpLe x y := by
  simp only [fpCompare_iff, fpLe_iff_fpVal, decide_eq_true_eq, lt_iff_le_not_ge]
  tauto

theorem fpVal_negate (y : Word) : fpVal (negate y) = -fpVal y := by
  have hexp : fpExp (negate y) = fpExp y := by
    have h : signMask.extractLsb' 23 8 = 0 := by decide
    simp [fpExp, negate, BitVec.extractLsb'_xor, h]
  have hfrac : fpFrac (negate y) = fpFrac y := by
    have h : signMask.extractLsb' 0 23 = 0 := by decide
    simp [fpFrac, negate, BitVec.extractLsb'_xor, h]
  have hsign : fpSign (negate y) = !fpSign y := by
    have h : signMask.getLsbD 31 = true := by decide
    rw [fpSign, fpSign, negate, BitVec.getLsbD_xor, h, Bool.xor_true]
  have hmag : fpMag (negate y) = fpMag y := by simp only [fpMag, hexp, hfrac]
  unfold fpVal
  rw [hsign, hmag]
  cases fpSign y <;> simp

/-- The lower bound of `vcmpbfp` (R373). -/
theorem fpCompare_neg_le_iff : fpCompare (fun v w => -w ≤ v) x y = true ↔ fpLe (negate y) x := by
  simp only [fpCompare_iff, fpLe_iff_fpVal, decide_eq_true_eq, isNaN_negate, fpVal_negate]
  tauto

end

/-! ## The bound bits (R373) -/

theorem bit_zero (k : Nat) : bit 0 k = false := BitVec.getLsbD_zero

/-- A word that is 0, or one bit where a condition fails. -/
theorem bit_ite_bitMask (c : Bool) {i k : Nat} (hi : i < 32) (hk : k < 32) :
    bit (if c then 0 else bitMask i) k = (!c && k = i) := by
  cases c with
  | false => exact bit_bitMask hi hk
  | true => exact bit_zero k

theorem bit_fpBounds (x y : Word) {k : Nat} (hk : k < 32) :
    bit (fpBounds x y) k =
      ((!fpCompare (fun v w => v ≤ w) x y && k = 0) || (!fpCompare (fun v w => -w ≤ v) x y && k = 1)) := by
  have h : fpBounds x y = (if fpCompare (fun v w => v ≤ w) x y then 0 else bitMask 0) |||
      (if fpCompare (fun v w => -w ≤ v) x y then 0 else bitMask 1) := rfl
  rw [h, bit_or, bit_ite_bitMask _ (by decide) hk, bit_ite_bitMask _ (by decide) hk]

/-- Only the two bound bits can be set, each where its bound does not hold. -/
theorem fpBounds_bits (x y : Word) :
    (∀ k, 2 ≤ k → k < 32 → bit (fpBounds x y) k = false) ∧
      (bit (fpBounds x y) 0 = false ↔ fpLe x y) ∧
      (bit (fpBounds x y) 1 = false ↔ fpLe (y ^^^ 0x80000000) x) := by
  refine ⟨fun k hlo hhi => ?_, ?_, ?_⟩
  · rw [bit_fpBounds x y hhi, decide_eq_false (by omega), decide_eq_false (by omega), Bool.and_false, Bool.and_false,
      Bool.or_false]
  · rw [bit_fpBounds x y (by decide), ← fpCompare_le_iff]
    simp
  · rw [bit_fpBounds x y (by decide)]
    exact Iff.trans (by simp) fpCompare_neg_le_iff

/-! ## Instructions -/

section
variable {s : State} {i : Instr} {e : Word} {vD vA vB : VReg} {rc : Bool}

/-- A compare by a relation that `p` describes: the mask, and CR6 as R45 says. -/
theorem fpMask_writes {rel : Int → Int → Bool} {p : Word → Word → Prop} (hv : s.vecEnabled = true)
    (he : exec i s = resultCompare s vD rc (fpMask s vA vB rel) (cr6Compare (fpMask s vA vB rel))) (hw : encode i = e)
    (hp : ∀ x y, fpCompare rel x y = true ↔ p x y) :
    WritesRecord i e s vD rc
      (fun d => ∀ k < 4, (p (s.fpIn vA k) (s.fpIn vB k) → word d k = 0xFFFFFFFF) ∧
        (¬ p (s.fpIn vA k) (s.fpIn vB k) → word d k = 0)) allOrNone := by
  refine resultCompare_writes hv he hw (fun k hk => ?_) (cr6Compare_bits _)
  rw [fpMask, word_ofWords _ hk, ← hp]
  exact ⟨fun h => by rw [h]; rfl, fun h => by rw [Bool.eq_false_of_not_eq_true h]; rfl⟩

end

/-- Settles O28: each relation in terms of the order of numbers. -/
theorem floatCompares : Obligations.FloatCompares := by
  intro s vD vA vB rc hv
  exact ⟨fpMask_writes (p := fun x y => fpLe x y ∧ fpLe y x) hv rfl rfl fun _ _ => fpCompare_eq_iff,
    fpMask_writes (p := fun x y => fpLe y x) hv rfl rfl fun _ _ => fpCompare_ge_iff,
    fpMask_writes (p := fun x y => fpLe y x ∧ ¬ fpLe x y) hv rfl rfl fun _ _ => fpCompare_gt_iff⟩

/-- Settles O29: the bound bits of each word, and CR6 as R46 says. -/
theorem floatBounds : Obligations.FloatBounds := by
  intro s vD vA vB rc hv
  refine resultCompare_writes hv rfl rfl (fun k hk => ?_) (cr6Bounds_bits (fpBoundsMask s vA vB))
  rw [fpBoundsMask, word_ofWords _ hk]
  exact fpBounds_bits (s.fpIn vA k) (s.fpIn vB k)

end Sys2Proof.Machine

/-! PROOFS. The estimates (47_fp_compare_estimate.md R375 to R379). Three of them have a relative error: what the model
compares in integers is `EstimateWithin` of a real number, which `OUT` keeps and which the model's own value inside the
bound meets, being a quotient near that number rounded once. The logarithm has an absolute error instead. -/

namespace Sys2Proof.Machine

/-! ## Kinds of words -/

section
variable {x r : Word}

theorem infinity_kind (s : Bool) :
    isNaN (infinity s) = false ∧ isInf (infinity s) = true ∧ fpSign (infinity s) = s := by
  cases s <;> decide

/-- The zero of positive sign. -/
theorem eq_zero_of_positive (hz : isZero r = true) (hs : fpSign r = false) : r = 0 := by
  rcases eq_zero_of_isZero hz with rfl | rfl
  · rfl
  · exact absurd hs (by decide)

theorem fpMag_of_isZero (h : isZero r = true) : fpMag r = 0 := by
  rcases eq_zero_of_isZero h with rfl | rfl <;> decide

theorem finite_of_not_special (hnan : ¬ isNaN x = true) (hninf : ¬ x = 0xFF800000) (hpinf : ¬ x = 0x7F800000) :
    isFinite x :=
  fpExp_ne_of_finite (Bool.eq_false_of_not_eq_true hnan)
    (Bool.eq_false_of_not_eq_true fun h => (eq_infinity_of_isInf h).elim hpinf hninf)

theorem isInf_eq_false_of_finite (h : isFinite r) : isInf r = false := by
  simp [isInf, show fpExp r ≠ 255 from h]

theorem isZero_eq_false_of_mag_pos (h : 0 < fpMag r) : isZero r = false :=
  Bool.eq_false_of_not_eq_true fun hz => h.ne' (fpMag_of_isZero hz)

/-- The denormalized numbers are those below 2^-126 (R342). -/
theorem isDenormal_iff : isDenormal r = true ↔ 0 < fpMag r ∧ fpMag r < 2 ^ 23 := by
  have hfrac : fpFrac r < 2 ^ 23 := by rw [fpFrac_eq]; omega
  unfold fpMag
  split
  · next h => simp only [isDenormal, h, decide_eq_true_eq, true_and]; omega
  · next h =>
    have hle : 2 ^ 23 * 1 ≤ (2 ^ 23 + fpFrac r) * 2 ^ (fpExp r - 1) :=
      Nat.mul_le_mul (Nat.le_add_right _ _) Nat.one_le_two_pow
    simp only [isDenormal, h, false_and, decide_false, Bool.false_eq_true, false_iff]
    omega

/-- A number that is not denormalized passes `OUT` unchanged (R342). -/
theorem flush_of_le_mag (nj : Bool) (h : 2 ^ 23 ≤ fpMag r) : flush nj r = r := by
  rcases flush_cases nj r with he | ⟨-, hden, -⟩
  · exact he
  · exact absurd (isDenormal_iff.1 hden).2 (not_lt.2 h)

theorem flush_true_of_isDenormal (h : isDenormal r = true) : flush true r = r &&& signMask := if_pos h

/-- In non-Java mode no result is denormalized (R375(e)). -/
theorem isDenormal_flush (r : Word) : isDenormal (flush true r) = false := by
  have hzero : isDenormal (r &&& signMask) = false := Bool.eq_false_of_not_eq_true fun h =>
    (isDenormal_iff.1 h).1.ne' (fpMag_of_isZero (isZero_and_signMask r).1)
  cases hden : isDenormal r with
  | true => rwa [flush_true_of_isDenormal hden]
  | false => rwa [show flush true r = r by simp [flush, hden]]

end

/-! ## Values as real numbers -/

section
variable (r : Word)

theorem fpValue_real_eq : (fpValue r : ℝ) = (if fpSign r then -1 else 1) * (fpMag r / 2 ^ 149) := by
  rw [fpValue_eq, mul_div_assoc]
  cases fpSign r <;> simp

theorem fpValue_of_positive {r : Word} (h : fpSign r = false) : (fpValue r : ℝ) = fpMag r / 2 ^ 149 := by
  rw [fpValue_real_eq, h]
  simp

theorem abs_fpValue : |(fpValue r : ℝ)| = fpMag r / 2 ^ 149 := by
  rw [fpValue_real_eq, abs_mul, abs_of_nonneg (a := (fpMag r : ℝ) / 2 ^ 149) (by positivity)]
  cases fpSign r <;> simp

end

/-- The least number that is not denormalized, in units of 2^-149. -/
theorem two_pow_neg_126 : (2 : ℝ) ^ (-126 : ℤ) = 2 ^ 23 / 2 ^ 149 := by norm_num

/-! ## An estimate with a relative error (R375(d)) -/

/-- `r` has the sign of `v` and a relative error of at most `ε`; it is an infinity or a zero only where that bound
reaches an overflow or an underflow (R348). -/
def EstimateWithin (ε v : ℝ) (r : Word) : Prop :=
  isNaN r = false ∧ (fpSign r = true ↔ v < 0) ∧
    if isInf r then 2 ^ 128 - 2 ^ 103 ≤ (1 + ε) * |v|
    else if isZero r then (1 - ε) * |v| < 2 ^ (-126 : ℤ)
    else (1 - ε) * |v| ≤ fpMag r / 2 ^ 149 ∧ fpMag r / 2 ^ 149 ≤ (1 + ε) * |v|

section
variable {ε v : ℝ} {r : Word}

theorem EstimateWithin.isNaN_eq_false (h : EstimateWithin ε v r) : isNaN r = false := h.1

theorem EstimateWithin.sign_iff (h : EstimateWithin ε v r) : fpSign r = true ↔ v < 0 := by
  obtain ⟨-, hsign, -⟩ := h
  exact hsign

theorem EstimateWithin.sign_eq_false (h : EstimateWithin ε v r) (hv : 0 < v) : fpSign r = false :=
  Bool.eq_false_of_not_eq_true fun hs => (h.sign_iff.1 hs).not_gt hv

theorem EstimateWithin.overflow (h : EstimateWithin ε v r) (hi : isInf r = true) :
    2 ^ 128 - 2 ^ 103 ≤ (1 + ε) * |v| := by
  obtain ⟨-, -, h⟩ := h
  rwa [if_pos hi] at h

theorem EstimateWithin.underflow (h : EstimateWithin ε v r) (hz : isZero r = true) :
    (1 - ε) * |v| < 2 ^ (-126 : ℤ) := by
  have hi : isInf r = false := by
    rcases eq_zero_of_isZero hz with rfl | rfl <;> decide
  obtain ⟨-, -, h⟩ := h
  rwa [hi, if_neg Bool.false_ne_true, if_pos hz] at h

theorem EstimateWithin.magnitude (h : EstimateWithin ε v r) (hi : isInf r = false) (hz : isZero r = false) :
    (1 - ε) * |v| ≤ fpMag r / 2 ^ 149 ∧ fpMag r / 2 ^ 149 ≤ (1 + ε) * |v| := by
  obtain ⟨-, -, h⟩ := h
  rwa [hi, hz, if_neg Bool.false_ne_true, if_neg Bool.false_ne_true] at h

/-- An ordinary estimate of the sign of `v`, by its magnitude. -/
theorem estimateWithin_of_magnitude (hfin : isFinite r) (hpos : 0 < fpMag r) (hs : fpSign r = true ↔ v < 0)
    (hm : (1 - ε) * |v| ≤ fpMag r / 2 ^ 149 ∧ fpMag r / 2 ^ 149 ≤ (1 + ε) * |v|) : EstimateWithin ε v r := by
  refine ⟨isNaN_eq_false_of_finite hfin, hs, ?_⟩
  rwa [isInf_eq_false_of_finite hfin, isZero_eq_false_of_mag_pos hpos, if_neg Bool.false_ne_true,
    if_neg Bool.false_ne_true]

/-- A zero of the sign of `v`, where the bound reaches an underflow. -/
theorem estimateWithin_of_isZero (hz : isZero r = true) (hs : fpSign r = true ↔ v < 0)
    (h : (1 - ε) * |v| < 2 ^ (-126 : ℤ)) : EstimateWithin ε v r := by
  obtain ⟨hnan, hinf⟩ : isNaN r = false ∧ isInf r = false := by
    rcases eq_zero_of_isZero hz with rfl | rfl <;> decide
  refine ⟨hnan, hs, ?_⟩
  rwa [hinf, hz, if_neg Bool.false_ne_true, if_pos rfl]

/-- The error itself: two numbers of one sign are as far apart as their magnitudes. -/
theorem EstimateWithin.abs_sub_le (h : EstimateWithin ε v r) (hi : isInf r = false) (hz : isZero r = false) :
    |(fpValue r : ℝ) - v| ≤ ε * |v| := by
  obtain ⟨hlo, hhi⟩ := h.magnitude hi hz
  have hsign := h.sign_iff
  have hdist : |(fpValue r : ℝ) - v| = |(fpMag r : ℝ) / 2 ^ 149 - abs v| := by
    rw [fpValue_real_eq]
    cases hs : fpSign r with
    | false =>
      have hv : 0 ≤ v := not_lt.1 (mt hsign.2 (by simp [hs]))
      rw [abs_of_nonneg hv, if_neg Bool.false_ne_true, one_mul]
    | true =>
      rw [abs_of_neg (hsign.1 hs), if_pos rfl, neg_one_mul, ← abs_neg]
      congr 1
      ring
  rw [hdist, abs_le]
  constructor <;> linarith

/-- `OUT` keeps the bound: a denormalized number is below 2^-126, so that the bound reaches the underflow. -/
theorem EstimateWithin.flush (h : EstimateWithin ε v r) (nj : Bool) : EstimateWithin ε v (flush nj r) := by
  rcases flush_cases nj r with he | ⟨-, hden, he⟩
  · rwa [he]
  · rw [he]
    obtain ⟨-, -, -, hinf, hzero, hmag⟩ := isDenormal_fields hden
    obtain ⟨hlo, -⟩ := h.magnitude hinf hzero
    obtain ⟨hz, hs, -⟩ := isZero_and_signMask r
    refine estimateWithin_of_isZero hz (hs ▸ h.sign_iff) ?_
    have hmag' : (fpMag r : ℝ) < 2 ^ 23 := by exact_mod_cast hmag
    calc (1 - ε) * |v| ≤ fpMag r / 2 ^ 149 := hlo
      _ < 2 ^ 23 / 2 ^ 149 := by gcongr
      _ = 2 ^ (-126 : ℤ) := two_pow_neg_126.symm

/-- How far `ROUND` in Java mode moves a value that does not overflow, in one bound. -/
theorem roundFp_error_le (s : Bool) {num den : Nat} (hd : 0 < den) (ho : num < (2 ^ 25 - 1) * 2 ^ 252 * den) :
    2 ^ 24 * |(fpMag (roundFp false s num den) * den : ℤ) - num| ≤ num + 2 ^ 23 * den := by
  obtain ⟨-, -, hsmall, hlarge⟩ := roundFp_error s hd ho
  rcases Nat.lt_or_ge (num / den) (2 ^ 23) with h | h
  · have := hsmall h
    omega
  · have := hlarge h
    omega

/-- A quotient of at least 2^-136 keeps its bound when it is rounded, where 2^-13 of it is left for the rounding. -/
theorem roundFp_estimateWithin {s : Bool} {num den : Nat} (hd : 0 < den) (hnum : 2 ^ 13 * den ≤ num)
    (hs : s = true ↔ v < 0) (hlo : (1 - ε) * |v| ≤ (1 - 1 / 2 ^ 13) * (num / den / 2 ^ 149))
    (hhi : (1 + 1 / 2 ^ 13) * (num / den / 2 ^ 149) ≤ (1 + ε) * |v|) :
    EstimateWithin ε v (roundFp false s num den) := by
  have hdr : (0 : ℝ) < den := by exact_mod_cast hd
  rcases Nat.lt_or_ge num ((2 ^ 25 - 1) * 2 ^ 252 * den) with ho | ho
  · obtain ⟨hsign, hfin, -⟩ := roundFp_error s hd ho
    have herr := roundFp_error_le s hd ho
    generalize roundFp false s num den = r at *
    have hdist : 2 ^ 13 * num ≤ 2 ^ 13 * (fpMag r * den) + num ∧ 2 ^ 13 * (fpMag r * den) ≤ 2 ^ 13 * num + num := by
      have hle := le_abs_self ((fpMag r * den : ℤ) - num)
      have hge := neg_abs_le ((fpMag r * den : ℤ) - num)
      generalize |(fpMag r * den : ℤ) - num| = err at *
      zify
      omega
    obtain ⟨hmlo, hmhi⟩ := hdist
    have hpos : 0 < fpMag r := by
      rw [Nat.pos_iff_ne_zero]
      intro h
      rw [h] at hmlo
      omega
    have hmlo' : (1 - 1 / 2 ^ 13) * ((num : ℝ) / den) ≤ fpMag r := by
      rw [← mul_div_assoc, div_le_iff₀ hdr]
      have : (2 : ℝ) ^ 13 * num ≤ 2 ^ 13 * (fpMag r * den) + num := by exact_mod_cast hmlo
      linarith
    have hmhi' : (fpMag r : ℝ) ≤ (1 + 1 / 2 ^ 13) * ((num : ℝ) / den) := by
      rw [← mul_div_assoc, le_div_iff₀ hdr]
      have : 2 ^ 13 * ((fpMag r : ℝ) * den) ≤ 2 ^ 13 * num + num := by exact_mod_cast hmhi
      linarith
    refine estimateWithin_of_magnitude hfin hpos (hsign ▸ hs) ⟨hlo.trans ?_, le_trans ?_ hhi⟩
    · rw [← mul_div_assoc]
      gcongr
    · rw [← mul_div_assoc]
      gcongr
  · have hover : 2 ^ 128 - 2 ^ 103 ≤ (num : ℝ) / den / 2 ^ 149 := by
      have hunits : ((2 : ℝ) ^ 128 - 2 ^ 103) * (den * 2 ^ 149) = (((2 ^ 25 - 1) * 2 ^ 252 * den : ℕ) : ℝ) := by
        push_cast
        ring
      rw [div_div, le_div_iff₀ (by positivity), hunits]
      exact_mod_cast ho
    obtain ⟨hnan, hinf, hsign⟩ := infinity_kind s
    rw [roundFp_overflow false s (by omega) hd ho]
    refine ⟨hnan, by rwa [hsign], ?_⟩
    rw [hinf, if_pos rfl]
    linarith

end

/-! ## Estimates of numbers that a word can hold -/

/-- Where the bound reaches neither an overflow nor an underflow, the estimate is an ordinary number. -/
theorem EstimateWithin.ordinary {ε v : ℝ} {r : Word} (h : EstimateWithin ε v r) (hlo : 2 ^ (-126 : ℤ) ≤ (1 - ε) * |v|)
    (hhi : (1 + ε) * |v| < 2 ^ 128 - 2 ^ 103) : isInf r = false ∧ isZero r = false :=
  ⟨Bool.eq_false_of_not_eq_true fun hi => (h.overflow hi).not_gt hhi,
    Bool.eq_false_of_not_eq_true fun hz => (h.underflow hz).not_ge hlo⟩

theorem overflowUnits_cast : (overflowUnits : ℝ) = (2 ^ 25 - 1) * 2 ^ 252 := by norm_num [overflowUnits]

theorem underflowUnits_cast : (underflowUnits : ℝ) = 2 ^ 23 := by norm_num [underflowUnits]

/-! Powers that the integer comparisons of the model write, in terms of the unit 2^149. -/

theorem two_pow_298 {M : Type} [Semiring M] : (2 : M) ^ 298 = 2 ^ 149 * 2 ^ 149 := pow_add 2 149 149

theorem two_pow_275 {M : Type} [Semiring M] : (2 : M) ^ 275 = 2 ^ 149 * 2 ^ 126 := pow_add 2 149 126

/-! ## `vrefp` (R376) -/

/-- The reciprocal of `x`, or an estimate of it. -/
def ReciprocalOf (nj : Bool) (x r : Word) : Prop :=
  if isNaN x then r = x ||| 0x00400000
  else if x = 0xFF800000 then r = 0x80000000
  else if x = 0x7F800000 then r = 0
  else if x = 0x80000000 then r = 0xFF800000
  else if x = 0 then r = 0x7F800000
  else isNaN r = false ∧ fpSign r = fpSign x ∧
    (isInf r = true → (1 + 1 / 4096) * |1 / fpValue x| ≥ 2 ^ 128 - 2 ^ 103) ∧
    (isZero r = true → (1 - 1 / 4096) * |1 / fpValue x| < 2 ^ (-126 : ℤ)) ∧
    (isInf r = false → isZero r = false → |fpValue r - 1 / fpValue x| ≤ |1 / fpValue x| / 4096) ∧
    (nj = true → isDenormal r = false ∧ (2 ^ 126 < |fpValue x| → isZero r = true))

section
variable {x : Word} (nj : Bool) (raw : Word)

theorem one_div_fpValue_neg_iff (hx : 0 < fpMag x) : 1 / (fpValue x : ℝ) < 0 ↔ fpSign x = true := by
  have hpos : (0 : ℝ) < fpMag x / 2 ^ 149 := by positivity
  rw [one_div_neg, fpValue_real_eq]
  cases fpSign x with
  | false => simpa using hpos.le
  | true => simpa using hpos

theorem abs_one_div_fpValue (x : Word) : |1 / (fpValue x : ℝ)| = 2 ^ 149 / fpMag x := by
  rw [abs_div, abs_one, abs_fpValue, one_div_div]

/-- What the model compares is the relative error of 1/4096. -/
theorem recipOk_iff (hx : 0 < fpMag x) (r : Word) :
    recipOk x r = true ↔ EstimateWithin (1 / 4096) (1 / (fpValue x : ℝ)) r := by
  have hpos : (0 : ℝ) < fpMag x := by exact_mod_cast hx
  have hsign : fpSign r = fpSign x ↔ (fpSign r = true ↔ 1 / (fpValue x : ℝ) < 0) := by
    rw [one_div_fpValue_neg_iff hx, Bool.eq_iff_iff]
  have hover : 4096 * fpMag x * overflowUnits ≤ 4097 * 2 ^ 298 ↔
      (2 : ℝ) ^ 128 - 2 ^ 103 ≤ (1 + 1 / 4096) * (2 ^ 149 / fpMag x) := by
    rw [← mul_div_assoc, le_div_iff₀ hpos, two_pow_298, ← Nat.cast_le (α := ℝ)]
    push_cast [overflowUnits_cast]
    constructor <;> intro h <;> linarith
  have hunder : 4095 * 2 ^ 298 < 4096 * fpMag x * underflowUnits ↔
      (1 - 1 / 4096) * ((2 : ℝ) ^ 149 / fpMag x) < 2 ^ (-126 : ℤ) := by
    rw [two_pow_neg_126, ← mul_div_assoc, div_lt_div_iff₀ hpos (by positivity), two_pow_298, ← Nat.cast_lt (α := ℝ)]
    push_cast [underflowUnits_cast]
    constructor <;> intro h <;> linarith
  have hlow : 4095 * 2 ^ 298 ≤ 4096 * fpMag r * fpMag x ↔
      (1 - 1 / 4096) * ((2 : ℝ) ^ 149 / fpMag x) ≤ fpMag r / 2 ^ 149 := by
    rw [← mul_div_assoc, div_le_div_iff₀ hpos (by positivity), two_pow_298, ← Nat.cast_le (α := ℝ)]
    push_cast
    constructor <;> intro h <;> linarith
  have hhigh : 4096 * fpMag r * fpMag x ≤ 4097 * 2 ^ 298 ↔
      (fpMag r : ℝ) / 2 ^ 149 ≤ (1 + 1 / 4096) * ((2 : ℝ) ^ 149 / fpMag x) := by
    rw [← mul_div_assoc, div_le_div_iff₀ (by positivity) hpos, two_pow_298, ← Nat.cast_le (α := ℝ)]
    push_cast
    constructor <;> intro h <;> linarith
  unfold recipOk EstimateWithin
  rw [abs_one_div_fpValue, ← hsign, ← hover, ← hunder, ← hlow, ← hhigh]
  split_ifs <;> simp only [Bool.and_eq_true, Bool.not_eq_true', beq_iff_eq, decide_eq_true_eq, and_assoc]

/-- The exact reciprocal rounded once meets the bound. -/
theorem recipOk_rounded (hx : 0 < fpMag x) (hfin : isFinite x) :
    recipOk x (roundFp false (fpSign x) (2 ^ 298) (fpMag x)) = true := by
  have hpos : (0 : ℝ) < fpMag x := by exact_mod_cast hx
  have hmag := fpMag_le hfin
  have hexact : ((2 ^ 149 * 2 ^ 149 : ℕ) : ℝ) / fpMag x / 2 ^ 149 = 2 ^ 149 / fpMag x := by
    rw [Nat.cast_mul, Nat.cast_pow, Nat.cast_ofNat, div_right_comm, mul_div_cancel_right₀ _ (by positivity)]
  have hv : (0 : ℝ) < 2 ^ 149 / fpMag x := by positivity
  rw [recipOk_iff hx, two_pow_298]
  refine roundFp_estimateWithin hx (by omega) (one_div_fpValue_neg_iff hx).symm ?_ ?_
  · rw [hexact, abs_one_div_fpValue]
    gcongr
    norm_num
  · rw [hexact, abs_one_div_fpValue]
    gcongr
    norm_num

/-- Of a finite nonzero operand the result is 0 by R376's table, or a value inside the bound after `OUT`. -/
theorem fpRecip_ordinary (hx : 0 < fpMag x) (hfin : isFinite x) :
    fpRecip nj raw x =
      if nj ∧ 2 ^ 275 < fpMag x then withSign (fpSign x) 0
      else choose nj (recipOk x) raw (roundFp false (fpSign x) (2 ^ 298) (fpMag x)) := by
  simp only [fpRecip, isNaN_eq_false_of_finite hfin, isZero_eq_false_of_mag_pos hx, isInf_eq_false_of_finite hfin,
    Bool.false_eq_true, if_false]

/-- In either branch the result is within the bound of 1/x. -/
theorem fpRecip_within (hx : 0 < fpMag x) (hfin : isFinite x) :
    EstimateWithin (1 / 4096) (1 / (fpValue x : ℝ)) (fpRecip nj raw x) := by
  rw [fpRecip_ordinary nj raw hx hfin]
  split_ifs with hbig
  · obtain ⟨hsign, -⟩ := withSign_fields (fpSign x) (x := 0) (by decide)
    have hzero : isZero (withSign (fpSign x) 0) = true := by cases fpSign x <;> decide
    refine estimateWithin_of_isZero hzero (by rw [hsign, one_div_fpValue_neg_iff hx]) ?_
    rw [abs_one_div_fpValue]
    have hmag : (2 : ℝ) ^ 149 * 2 ^ 126 < fpMag x := by
      have hunits := (Nat.cast_lt (α := ℝ)).2 hbig.2
      rwa [Nat.cast_pow, Nat.cast_ofNat, two_pow_275] at hunits
    calc (1 - 1 / 4096) * ((2 : ℝ) ^ 149 / fpMag x) ≤ (1 - 1 / 4096) * (2 ^ 149 / (2 ^ 149 * 2 ^ 126)) := by gcongr
      _ < 2 ^ (-126 : ℤ) := by norm_num
  · obtain ⟨r, hok, hr⟩ := choose_flush (raw := raw) (recipOk_rounded hx hfin)
    rw [hr]
    exact ((recipOk_iff hx r).1 hok).flush nj

/-- Non-Java mode (R376): no denormalized result, and 0 for an operand above 2^126. -/
theorem fpRecip_nonJava (hx : 0 < fpMag x) (hfin : isFinite x) :
    isDenormal (fpRecip true raw x) = false ∧ (2 ^ 126 < |fpValue x| → isZero (fpRecip true raw x) = true) := by
  rw [fpRecip_ordinary true raw hx hfin]
  split_ifs with hbig
  · cases fpSign x <;> exact ⟨by decide, fun _ => by decide⟩
  · refine ⟨isDenormal_flush _, fun habove => absurd ?_ hbig⟩
    have hmag : (2 : ℝ) ^ 126 < |(fpValue x : ℝ)| := by exact_mod_cast habove
    rw [abs_fpValue, lt_div_iff₀ (by positivity), mul_comm] at hmag
    rw [two_pow_275]
    exact ⟨rfl, by exact_mod_cast hmag⟩

/-- The five special operands, and the ordinary ones. -/
theorem fpRecip_reciprocalOf (x : Word) : ReciprocalOf nj x (fpRecip nj raw x) := by
  unfold ReciprocalOf
  split_ifs with hnan hninf hpinf hnzero hpzero
  · exact if_pos hnan
  · subst hninf
    rfl
  · subst hpinf
    rfl
  · subst hnzero
    rfl
  · subst hpzero
    rfl
  · have hx := fpMag_pos (Bool.eq_false_of_not_eq_true fun hz => (eq_zero_of_isZero hz).elim hpzero hnzero)
    have hfin := finite_of_not_special hnan hninf hpinf
    have h := fpRecip_within nj raw hx hfin
    refine ⟨h.isNaN_eq_false, ?_, fun hi => ?_, fun hz => ?_, fun hi hz => ?_, ?_⟩
    · rw [Bool.eq_iff_iff, h.sign_iff, one_div_fpValue_neg_iff hx]
    · rw [ge_iff_le, ← Rat.cast_le (K := ℝ)]
      push_cast
      exact h.overflow hi
    · rw [← Rat.cast_lt (K := ℝ)]
      push_cast
      exact h.underflow hz
    · have hle := h.abs_sub_le hi hz
      rw [one_div_mul_eq_div] at hle
      exact_mod_cast hle
    · rintro rfl
      exact fpRecip_nonJava raw hx hfin

end

/-! ## `vrsqrtefp` (R377) -/

theorem two_pow_447 {M : Type} [Semiring M] : (2 : M) ^ 447 = 2 ^ 149 * (2 ^ 149) ^ 2 := by
  rw [← pow_mul, ← pow_add]

/-- The reciprocal of the square root of `x`, or an estimate of it. -/
def ReciprocalRootOf (x r : Word) : Prop :=
  if isNaN x then r = x ||| 0x00400000
  else if isZero x then r = if fpSign x then 0xFF800000 else 0x7F800000
  else if fpSign x then r = 0x7FC00000
  else if x = 0x7F800000 then r = 0
  else isFinite r ∧ fpSign r = false ∧
    |(fpValue r : ℝ) - 1 / Real.sqrt (fpValue x)| ≤ 1 / Real.sqrt (fpValue x) / 4096

/-- An operand that R377's table does not list: finite, positive and not zero. -/
structure PositiveFinite (x : Word) : Prop where
  finite : isFinite x
  sign : fpSign x = false
  mag : 0 < fpMag x

section
variable {x r : Word} (nj : Bool) (raw : Word)

/-- What is left when the special operands are taken away. -/
theorem positiveFinite_of_not_special (hnan : ¬ isNaN x = true) (hzero : ¬ isZero x = true) (hsign : ¬ fpSign x = true)
    (hinf : ¬ x = 0x7F800000) : PositiveFinite x := by
  rw [Bool.not_eq_true] at hnan hzero hsign
  refine ⟨fpExp_ne_of_finite hnan (Bool.eq_false_of_not_eq_true fun h => ?_), hsign, fpMag_pos hzero⟩
  rcases eq_infinity_of_isInf h with rfl | rfl
  · exact hinf rfl
  · exact absurd hsign (by decide)

theorem PositiveFinite.isInf_eq_false (hx : PositiveFinite x) : isInf x = false := isInf_eq_false_of_finite hx.finite

theorem PositiveFinite.isZero_eq_false (hx : PositiveFinite x) : isZero x = false := isZero_eq_false_of_mag_pos hx.mag

theorem PositiveFinite.isNaN_eq_false (hx : PositiveFinite x) : isNaN x = false := isNaN_eq_false_of_finite hx.finite

/-- The reciprocal root is positive, and its square is the reciprocal. -/
theorem PositiveFinite.one_div_sqrt (hx : PositiveFinite x) :
    0 < 1 / Real.sqrt (fpValue x) ∧ (1 / Real.sqrt (fpValue x)) ^ 2 * fpMag x = 2 ^ 149 := by
  have hmag : (0 : ℝ) < fpMag x := by exact_mod_cast hx.mag
  have hval : (0 : ℝ) < fpValue x := by
    rw [fpValue_of_positive hx.sign]
    positivity
  refine ⟨one_div_pos.2 (Real.sqrt_pos.2 hval), ?_⟩
  rw [div_pow, one_pow, Real.sq_sqrt hval.le, fpValue_of_positive hx.sign, one_div_div, div_mul_cancel₀ _ hmag.ne']

/-- The reciprocal roots of single-precision numbers lie well between an underflow and an overflow. -/
theorem PositiveFinite.one_div_sqrt_range (hx : PositiveFinite x) :
    1 / 2 ^ 64 ≤ 1 / Real.sqrt (fpValue x) ∧ 1 / Real.sqrt (fpValue x) ≤ 2 ^ 75 := by
  obtain ⟨hpos, hsq⟩ := hx.one_div_sqrt
  have hlo : (1 : ℝ) ≤ fpMag x := by exact_mod_cast hx.mag
  have hhi : (fpMag x : ℝ) ≤ 2 ^ 149 * (2 ^ 64) ^ 2 := by
    have := fpMag_le hx.finite
    have h : fpMag x ≤ 2 ^ 149 * (2 ^ 64) ^ 2 := by omega
    exact_mod_cast h
  generalize 1 / Real.sqrt (fpValue x) = v at *
  refine ⟨le_of_sq_le_sq ?_ hpos.le, le_of_sq_le_sq ?_ (by positivity)⟩
  · rw [div_pow, one_pow, div_le_iff₀ (by positivity)]
    nlinarith
  · nlinarith

/-- What the model compares, both sides squared, is the relative error of 1/4096. -/
theorem rsqrtOk_iff (hx : PositiveFinite x) (r : Word) :
    rsqrtOk x r = true ↔ EstimateWithin (1 / 4096) (1 / Real.sqrt (fpValue x)) r := by
  obtain ⟨hpos, hsq⟩ := hx.one_div_sqrt
  obtain ⟨hmin, hmax⟩ := hx.one_div_sqrt_range
  have hmag : (0 : ℝ) < fpMag x := by exact_mod_cast hx.mag
  generalize 1 / Real.sqrt (fpValue x) = v at *
  have hexact (c : ℕ) : ((c ^ 2 * 2 ^ 447 : ℕ) : ℝ) = (c * v * 2 ^ 149) ^ 2 * fpMag x := by
    rw [two_pow_447]
    push_cast
    linear_combination (-(c ^ 2 * (2 ^ 149) ^ 2)) * hsq
  have hanswer : ((4096 ^ 2 * fpMag r ^ 2 * fpMag x : ℕ) : ℝ) = (4096 * fpMag r) ^ 2 * fpMag x := by
    push_cast
    ring
  have hlow : 4095 ^ 2 * 2 ^ 447 ≤ 4096 ^ 2 * fpMag r ^ 2 * fpMag x ↔ (1 - 1 / 4096) * v ≤ fpMag r / 2 ^ 149 := by
    rw [← Nat.cast_le (α := ℝ), hexact, hanswer, mul_le_mul_iff_of_pos_right hmag,
      sq_le_sq₀ (by positivity) (by positivity), le_div_iff₀ (by positivity), Nat.cast_ofNat]
    constructor <;> intro h <;> linarith
  have hhigh : 4096 ^ 2 * fpMag r ^ 2 * fpMag x ≤ 4097 ^ 2 * 2 ^ 447 ↔ fpMag r / 2 ^ 149 ≤ (1 + 1 / 4096) * v := by
    rw [← Nat.cast_le (α := ℝ), hexact, hanswer, mul_le_mul_iff_of_pos_right hmag,
      sq_le_sq₀ (by positivity) (by positivity), div_le_iff₀ (by positivity), Nat.cast_ofNat]
    constructor <;> intro h <;> linarith
  have hok : rsqrtOk x r = true ↔ isNaN r = false ∧ isInf r = false ∧ fpSign r = false ∧
      (1 - 1 / 4096) * v ≤ fpMag r / 2 ^ 149 ∧ fpMag r / 2 ^ 149 ≤ (1 + 1 / 4096) * v := by
    rw [← hlow, ← hhigh]
    simp only [rsqrtOk, Bool.and_eq_true, Bool.not_eq_true', decide_eq_true_eq, and_assoc]
  have hsign : fpSign r = false ↔ (fpSign r = true ↔ v < 0) := by simp [not_lt.2 hpos.le]
  rw [hok]
  constructor
  · rintro ⟨hnan, hinf, hs, hlo, hhi⟩
    have hr : (0 : ℝ) < fpMag r := by
      have := hlo.trans_lt' (by positivity)
      rwa [div_pos_iff_of_pos_right (by positivity)] at this
    refine estimateWithin_of_magnitude (fpExp_ne_of_finite hnan hinf) (by exact_mod_cast hr) (hsign.1 hs) ?_
    rw [abs_of_pos hpos]
    exact ⟨hlo, hhi⟩
  · intro h
    have hv := abs_of_pos hpos
    obtain ⟨hinf, hzero⟩ := h.ordinary (by rw [hv]; linarith) (by rw [hv]; linarith)
    have hm := h.magnitude hinf hzero
    rw [hv] at hm
    exact ⟨h.isNaN_eq_false, hinf, h.sign_eq_false hpos, hm⟩

/-- The integer square root of the reciprocal, rounded once, meets the bound. -/
theorem rsqrtOk_rounded (hx : PositiveFinite x) :
    rsqrtOk x (roundFp false false (sqrtFrom (2 ^ 447 / fpMag x) 224 0) 1) = true := by
  obtain ⟨hpos, hsq⟩ := hx.one_div_sqrt
  obtain ⟨hmin, -⟩ := hx.one_div_sqrt_range
  have hmag : (0 : ℝ) < fpMag x := by exact_mod_cast hx.mag
  rw [rsqrtOk_iff hx]
  generalize 1 / Real.sqrt (fpValue x) = v at *
  have hexact : (v * 2 ^ 149) ^ 2 * fpMag x = ((2 ^ 447 : ℕ) : ℝ) := by
    rw [two_pow_447]
    push_cast
    linear_combination (2 ^ 149) ^ 2 * hsq
  have hbound : 2 ^ 447 / fpMag x < (0 + 2 ^ 224) ^ 2 := by
    rw [zero_add, ← pow_mul]
    calc 2 ^ 447 / fpMag x ≤ 2 ^ 447 := Nat.div_le_self _ _
      _ < 2 ^ (224 * 2) := pow_lt_pow_right₀ one_lt_two (by decide)
  obtain ⟨hqlo, hqhi⟩ := sqrtFrom_spec (2 ^ 447 / fpMag x) 224 0 (Nat.zero_le _) hbound
  generalize sqrtFrom (2 ^ 447 / fpMag x) 224 0 = q at *
  rw [Nat.le_div_iff_mul_le hx.mag, ← Nat.cast_le (α := ℝ), ← hexact, Nat.cast_mul, Nat.cast_pow,
    mul_le_mul_iff_of_pos_right hmag, sq_le_sq₀ (by positivity) (by positivity)] at hqlo
  rw [Nat.div_lt_iff_lt_mul hx.mag, ← Nat.cast_lt (α := ℝ), ← hexact, Nat.cast_mul, Nat.cast_pow,
    mul_lt_mul_iff_of_pos_right hmag, sq_lt_sq₀ (by positivity) (by positivity), Nat.cast_succ] at hqhi
  have hlarge : (2 : ℝ) ^ 84 ≤ q := by
    rw [div_le_iff₀ (by positivity)] at hmin
    linarith
  have hnormal : 2 ^ 13 * 1 ≤ q := by
    have : 2 ^ 84 ≤ q := by exact_mod_cast hlarge
    omega
  refine roundFp_estimateWithin one_pos hnormal (by simp [hpos.le]) ?_ ?_
  · rw [abs_of_pos hpos, Nat.cast_one, div_one, ← mul_div_assoc, le_div_iff₀ (by positivity)]
    linarith
  · rw [abs_of_pos hpos, Nat.cast_one, div_one, ← mul_div_assoc, div_le_iff₀ (by positivity)]
    linarith

/-- The result is within the bound of 1/sqrt(x). -/
theorem fpRsqrt_within (hx : PositiveFinite x) :
    EstimateWithin (1 / 4096) (1 / Real.sqrt (fpValue x)) (fpRsqrt nj raw x) := by
  obtain ⟨r, hok, hr⟩ := choose_flush (raw := raw) (rsqrtOk_rounded hx)
  simp only [fpRsqrt, hx.isNaN_eq_false, hx.isZero_eq_false, hx.sign, hx.isInf_eq_false, Bool.false_eq_true, if_false]
  rw [hr]
  exact ((rsqrtOk_iff hx r).1 hok).flush nj

/-- The special operands, and the ordinary ones, whose roots no bound takes to an infinity or a zero. -/
theorem fpRsqrt_reciprocalRootOf (x : Word) : ReciprocalRootOf x (fpRsqrt nj raw x) := by
  unfold ReciprocalRootOf
  split_ifs with hnan hzero hzsign hsign hinf
  · exact if_pos hnan
  · rw [fpRsqrt, if_neg hnan, if_pos hzero, infinity_eq, if_pos hzsign]
  · rw [fpRsqrt, if_neg hnan, if_pos hzero, infinity_eq, if_neg hzsign]
  · rw [fpRsqrt, if_neg hnan, if_neg hzero, if_pos hsign, defaultNaN]
  · subst hinf
    rfl
  · have hx := positiveFinite_of_not_special hnan hzero hsign hinf
    have h := fpRsqrt_within nj raw hx
    obtain ⟨hpos, -⟩ := hx.one_div_sqrt
    obtain ⟨hmin, hmax⟩ := hx.one_div_sqrt_range
    have hv := abs_of_pos hpos
    obtain ⟨hrinf, hrzero⟩ := h.ordinary (by rw [hv]; linarith) (by rw [hv]; linarith)
    have hle := h.abs_sub_le hrinf hrzero
    rw [hv, one_div_mul_eq_div] at hle
    exact ⟨fpExp_ne_of_finite h.isNaN_eq_false hrinf, h.sign_eq_false hpos, hle⟩

end

/-! ## `vlogefp` (R378) -/

/-- The logarithm of `x` to the base 2, or an estimate of it. -/
def LogarithmOf (x r : Word) : Prop :=
  if isNaN x then r = x ||| 0x00400000
  else if isZero x then r = 0xFF800000
  else if fpSign x then r = 0x7FC00000
  else if x = 0x7F800000 then r = 0x7F800000
  else isFinite r ∧
    (|fpValue x - 1| > 1 / 8 → |(fpValue r : ℝ) - Real.logb 2 (fpValue x)| ≤ 1 / 32)

/-- Away from 1 the logarithm is away from 0, by twice the bound of R378. -/
theorem lt_abs_logb_two {y : ℝ} (hy : 0 < y) (h : 1 / 8 < |y - 1|) : 1 / 16 < |Real.logb 2 y| := by
  have hlog : 0 < Real.log 2 := Real.log_pos one_lt_two
  have hlog1 : Real.log 2 < 1 := by linarith [Real.log_two_lt_d9]
  have hgap : 1 / 16 < |Real.log y| := by
    rcases lt_abs.1 h with habove | hbelow
    · have hle := Real.one_sub_inv_le_log_of_pos hy
      have hinv : y⁻¹ ≤ (9 / 8)⁻¹ := inv_anti₀ (by norm_num) (by linarith)
      exact lt_abs.2 (.inl (by linarith))
    · have hle := Real.log_le_sub_one_of_pos hy
      exact lt_abs.2 (.inr (by linarith))
  rw [Real.logb, abs_div, abs_of_pos hlog, lt_div_iff₀ hlog]
  linarith

theorem isFinite_flush (nj : Bool) {r : Word} (h : isFinite r) : isFinite (flush nj r) := by
  rcases flush_cases nj r with he | ⟨-, -, he⟩
  · rwa [he]
  · rw [he, isFinite, (isZero_and_signMask r).2.2.1]
    decide

section
variable {x : Word} (nj : Bool) (raw : Word)

theorem PositiveFinite.nearOne_iff (hx : PositiveFinite x) : nearOne x = true ↔ |(fpValue x : ℝ) - 1| ≤ 1 / 8 := by
  have hlo : 7 * 2 ^ 146 ≤ fpMag x ↔ (7 * 2 ^ 146 : ℝ) ≤ fpMag x := by exact_mod_cast Iff.rfl
  have hhi : fpMag x ≤ 9 * 2 ^ 146 ↔ (fpMag x : ℝ) ≤ 9 * 2 ^ 146 := by exact_mod_cast Iff.rfl
  rw [fpValue_of_positive hx.sign, abs_sub_le_iff, sub_le_iff_le_add, sub_le_comm,
    div_le_iff₀ (by positivity), le_div_iff₀ (by positivity), nearOne, Bool.and_eq_true,
    decide_eq_true_eq, decide_eq_true_eq, hlo, hhi]
  constructor <;> rintro ⟨h1, h2⟩ <;> constructor <;> linarith

/-- What the model compares is the absolute error of 1/32, where the operand is not near 1. -/
theorem logOk_iff (hx : PositiveFinite x) (r : Word) :
    logOk x r = true ↔
      isFinite r ∧ (1 / 8 < |(fpValue x : ℝ) - 1| → |(fpValue r : ℝ) - Real.logb 2 (fpValue x)| ≤ 1 / 32) := by
  have hfin : isNaN r = false ∧ isInf r = false ↔ isFinite r :=
    ⟨fun ⟨hn, hi⟩ => fpExp_ne_of_finite hn hi, fun h => ⟨isNaN_eq_false_of_finite h, isInf_eq_false_of_finite h⟩⟩
  have hquotient : (fpMag x : ℝ) / (2 ^ 149 : ℕ) = fpValue x := by
    rw [fpValue_of_positive hx.sign, Nat.cast_pow, Nat.cast_ofNat]
  have hbound : logAtMost (fpMag x) (2 ^ 149) (fpVal r + 2 ^ 144) = true ∧
      logAtLeast (fpMag x) (2 ^ 149) (fpVal r - 2 ^ 144) = true ↔
      |(fpValue r : ℝ) - Real.logb 2 (fpValue x)| ≤ 1 / 32 := by
    rw [logAtMost_iff_logb hx.mag (by positivity), logAtLeast_iff_logb hx.mag (by positivity), hquotient,
      abs_sub_le_iff, Int.cast_add, Int.cast_sub, Int.cast_pow, Int.cast_ofNat, add_div, sub_div, ← fpValue_real,
      show (2 : ℝ) ^ 144 / 2 ^ 149 = 1 / 32 by norm_num]
    constructor <;> rintro ⟨h1, h2⟩ <;> constructor <;> linarith
  rw [← hfin, ← hbound, ← not_le, ← hx.nearOne_iff]
  simp only [logOk, Bool.and_eq_true, Bool.or_eq_true, Bool.not_eq_true', and_assoc, or_iff_not_imp_left]

/-- The logarithms of single-precision numbers. -/
theorem PositiveFinite.logb_range (hx : PositiveFinite x) :
    -149 ≤ Real.logb 2 (fpValue x) ∧ Real.logb 2 (fpValue x) ≤ 128 := by
  have hlo : (1 : ℝ) ≤ fpMag x := by exact_mod_cast hx.mag
  have hhi : (fpMag x : ℝ) ≤ 2 ^ 128 * 2 ^ 149 := by
    have := fpMag_le hx.finite
    have h : fpMag x ≤ 2 ^ 128 * 2 ^ 149 := by omega
    exact_mod_cast h
  have hpos : (0 : ℝ) < fpMag x / 2 ^ 149 := by positivity
  rw [fpValue_of_positive hx.sign]
  refine ⟨?_, ?_⟩
  · have hunit : (2 : ℝ) ^ (-149 : ℝ) * 2 ^ 149 = 1 := by
      rw [Real.rpow_neg zero_le_two]
      norm_num
    rwa [Real.le_logb_iff_rpow_le one_lt_two hpos, le_div_iff₀ (by positivity), hunit]
  · rw [Real.logb_le_iff_le_rpow one_lt_two hpos, div_le_iff₀ (by positivity)]
    exact_mod_cast hhi

/-- The logarithm to 80 binary digits, rounded once, meets the bound. -/
theorem logOk_rounded (hx : PositiveFinite x) :
    logOk x (roundFp false (log2Units (fpMag x) (2 ^ 149) < 0) ((log2Units (fpMag x) (2 ^ 149)).natAbs * 2 ^ 69) 1) =
      true := by
  have hquotient : (fpMag x : ℝ) / (2 ^ 149 : ℕ) = fpValue x := by
    rw [fpValue_of_positive hx.sign, Nat.cast_pow, Nat.cast_ofNat]
  have hdigits := log2Units_spec hx.mag (Nat.two_pow_pos 149)
  obtain ⟨hmin, hmax⟩ := hx.logb_range
  rw [logOk_iff hx]
  rw [hquotient] at hdigits
  obtain ⟨hlo, hhi⟩ := hdigits
  generalize Real.logb 2 (fpValue x) = v at *
  generalize log2Units (fpMag x) (2 ^ 149) = u at *
  have hmin' : -(150 * 2 ^ 80) ≤ u := by
    have : (-(150 * 2 ^ 80) : ℝ) ≤ u := by linarith
    exact_mod_cast this
  have hmax' : u ≤ 150 * 2 ^ 80 := by
    have : (u : ℝ) ≤ 150 * 2 ^ 80 := by linarith
    exact_mod_cast this
  have hover : u.natAbs * 2 ^ 69 < (2 ^ 25 - 1) * 2 ^ 252 * 1 := by omega
  obtain ⟨hsign, hfin, -⟩ := roundFp_error (u < 0) one_pos hover
  have herr := roundFp_error_le (u < 0) one_pos hover
  generalize roundFp false (u < 0) (u.natAbs * 2 ^ 69) 1 = r at *
  refine ⟨hfin, fun _ => ?_⟩
  have hdist : 2 ^ 24 * |fpVal r - u * 2 ^ 69| ≤ 150 * 2 ^ 149 + 2 ^ 23 := by
    have hmag : |fpVal r - u * 2 ^ 69| = |(fpMag r * (1 : ℕ) : ℤ) - (u.natAbs * 2 ^ 69 : ℕ)| := by
      rw [fpVal_eq, hsign]
      push_cast
      rcases lt_or_ge u 0 with hneg | hnonneg
      · rw [decide_eq_true hneg, if_pos rfl, abs_of_neg hneg, ← abs_neg]
        congr 1
        ring
      · rw [decide_eq_false hnonneg.not_gt, if_neg Bool.false_ne_true, abs_of_nonneg hnonneg, one_mul, mul_one]
    rw [hmag]
    omega
  have hdist' : 2 ^ 24 * |(fpVal r : ℝ) - u * 2 ^ 69| ≤ 150 * 2 ^ 149 + 2 ^ 23 := by exact_mod_cast hdist
  obtain ⟨hge, hle⟩ := abs_le.1 (le_div_iff₀' (by positivity) |>.2 hdist')
  rw [fpValue_real, abs_sub_le_iff, sub_le_iff_le_add, div_le_iff₀ (by positivity), sub_le_comm,
    le_div_iff₀ (by positivity)]
  constructor <;> linarith

/-- An ordinary operand's logarithm; away from 1 it is not denormalized, so that `OUT` keeps it. -/
theorem fpLog2_ordinary (hx : PositiveFinite x) :
    isFinite (fpLog2 nj raw x) ∧
      (1 / 8 < |(fpValue x : ℝ) - 1| → |(fpValue (fpLog2 nj raw x) : ℝ) - Real.logb 2 (fpValue x)| ≤ 1 / 32) := by
  obtain ⟨r, hok, hr⟩ := choose_flush (raw := raw) (logOk_rounded hx)
  obtain ⟨hfin, hbound⟩ := (logOk_iff hx r).1 hok
  simp only [fpLog2, hx.isNaN_eq_false, hx.isZero_eq_false, hx.sign, hx.isInf_eq_false, Bool.false_eq_true, if_false]
  rw [hr]
  refine ⟨isFinite_flush nj hfin, fun hfar => ?_⟩
  have hnormal : 2 ^ 23 ≤ fpMag r := by
    have hpos : (0 : ℝ) < fpValue x := by
      have := hx.mag
      rw [fpValue_of_positive hx.sign]
      positivity
    have hlog := lt_abs_logb_two hpos hfar
    have hnear := abs_sub_abs_le_abs_sub (Real.logb 2 (fpValue x)) (fpValue r)
    rw [abs_sub_comm] at hnear
    have hmag : 1 / 32 < (fpMag r : ℝ) / 2 ^ 149 := by
      rw [← abs_fpValue]
      linarith [hbound hfar]
    rw [lt_div_iff₀ (by positivity)] at hmag
    have : (2 : ℝ) ^ 23 ≤ fpMag r := by linarith
    exact_mod_cast this
  rw [flush_of_le_mag nj hnormal]
  exact hbound hfar

theorem fpLog2_logarithmOf (x : Word) : LogarithmOf x (fpLog2 nj raw x) := by
  unfold LogarithmOf
  split_ifs with hnan hzero hsign hinf
  · exact if_pos hnan
  · rw [fpLog2, if_neg hnan, if_pos hzero, infinity_eq, if_pos rfl]
  · rw [fpLog2, if_neg hnan, if_neg hzero, if_pos hsign, defaultNaN]
  · subst hinf
    rfl
  · have hx := positiveFinite_of_not_special hnan hzero hsign hinf
    obtain ⟨hfin, hbound⟩ := fpLog2_ordinary nj raw hx
    refine ⟨hfin, fun hfar => hbound ?_⟩
    have hfar' : ((1 / 8 : ℚ) : ℝ) < (|fpValue x - 1| : ℚ) := Rat.cast_lt.2 hfar
    push_cast at hfar'
    exact hfar'

end

/-! ## `vexptefp` (R379) -/

/-- The power of 2 of exponent `x`, or an estimate of it. -/
def ExponentialOf (nj : Bool) (x r : Word) : Prop :=
  if isNaN x then r = x ||| 0x00400000
  else if x = 0xFF800000 then r = 0
  else if x = 0x7F800000 then r = 0x7F800000
  else if fpValue x ≥ 128 then r = 0x7F800000
  else isNaN r = false ∧ fpSign r = false ∧
    (∀ k : ℤ, fpValue x = k → -149 ≤ k →
      if nj = true ∧ k < -126 then r = 0 else fpValue r = 2 ^ k) ∧
    (fpValue x < -150 → r = 0) ∧
    (nj = true → isDenormal r = false) ∧
    (isInf r = true → (2 : ℝ) ^ (fpValue x : ℝ) * (1 + 1 / 16) ≥ 2 ^ 128 - 2 ^ 103) ∧
    (isZero r = true → (2 : ℝ) ^ (fpValue x : ℝ) * (1 - 1 / 16) < 2 ^ (-126 : ℤ)) ∧
    (isInf r = false → isZero r = false →
      |(fpValue r : ℝ) - (2 : ℝ) ^ (fpValue x : ℝ)| ≤ (2 : ℝ) ^ (fpValue x : ℝ) / 16)

/-! ### The bound of 1/16 -/

section
variable (x : Word)

theorem two_rpow_fpValue_pos : (0 : ℝ) < 2 ^ (fpValue x : ℝ) := Real.rpow_pos_of_pos two_pos _

/-! A magnitude compared with a multiple of the power, as `expOk` writes it. -/

theorem units_quotient (m c : Nat) : ((16 * m : ℕ) : ℝ) / (c * 2 ^ 149 : ℕ) = 16 * (m / 2 ^ 149) / c := by
  push_cast
  ring

theorem logAtMost_units {m c : Nat} (hm : 0 < m) (hc : 0 < c) :
    logAtMost (16 * m) (c * 2 ^ 149) (fpVal x) = true ↔ 16 * ((m : ℝ) / 2 ^ 149) ≤ c * 2 ^ (fpValue x : ℝ) := by
  rw [logAtMost_iff (by positivity) (by positivity), ← fpValue_real, units_quotient, div_le_iff₀' (Nat.cast_pos.2 hc)]

theorem logAtLeast_units {m c : Nat} (hm : 0 < m) (hc : 0 < c) :
    logAtLeast (16 * m) (c * 2 ^ 149) (fpVal x) = true ↔ c * 2 ^ (fpValue x : ℝ) ≤ 16 * ((m : ℝ) / 2 ^ 149) := by
  rw [logAtLeast_iff (by positivity) (by positivity), ← fpValue_real, units_quotient, le_div_iff₀' (Nat.cast_pos.2 hc)]

/-- What the model compares is the relative error of 1/16. -/
theorem expOk_iff (r : Word) : expOk x r = true ↔ EstimateWithin (1 / 16) (2 ^ (fpValue x : ℝ)) r := by
  have hpos := two_rpow_fpValue_pos x
  have hsign : fpSign r = false ↔ (fpSign r = true ↔ (2 : ℝ) ^ (fpValue x : ℝ) < 0) := by simp [not_lt.2 hpos.le]
  have hover : logAtMost (16 * overflowUnits) (17 * 2 ^ 149) (fpVal x) = true ↔
      2 ^ 128 - 2 ^ 103 ≤ (1 + 1 / 16) * (2 : ℝ) ^ (fpValue x : ℝ) := by
    rw [logAtMost_units x (by decide) (by decide), overflowUnits_cast, Nat.cast_ofNat]
    constructor <;> intro h <;> linarith
  have hunder : logAtMost (16 * underflowUnits) (15 * 2 ^ 149) (fpVal x) = false ↔
      (1 - 1 / 16) * (2 : ℝ) ^ (fpValue x : ℝ) < 2 ^ (-126 : ℤ) := by
    rw [← Bool.not_eq_true, logAtMost_units x (by decide) (by decide), underflowUnits_cast, Nat.cast_ofNat,
      two_pow_neg_126, not_le]
    constructor <;> intro h <;> linarith
  have hmag (hr : 0 < fpMag r) : logAtMost (16 * fpMag r) (17 * 2 ^ 149) (fpVal x) = true ∧
      logAtLeast (16 * fpMag r) (15 * 2 ^ 149) (fpVal x) = true ↔
      (1 - 1 / 16) * (2 : ℝ) ^ (fpValue x : ℝ) ≤ fpMag r / 2 ^ 149 ∧
        fpMag r / 2 ^ 149 ≤ (1 + 1 / 16) * (2 : ℝ) ^ (fpValue x : ℝ) := by
    rw [logAtMost_units x hr (by decide), logAtLeast_units x hr (by decide), Nat.cast_ofNat, Nat.cast_ofNat]
    constructor <;> rintro ⟨h1, h2⟩ <;> constructor <;> linarith
  unfold expOk EstimateWithin
  rw [abs_of_pos hpos, ← hsign, ← hover, ← hunder]
  split_ifs with hinf hzero
  · simp only [Bool.and_eq_true, Bool.not_eq_true', and_assoc]
  · simp only [Bool.and_eq_true, Bool.not_eq_true', and_assoc]
  · rw [← hmag (fpMag_pos (Bool.eq_false_of_not_eq_true hzero))]
    simp only [Bool.and_eq_true, Bool.not_eq_true', and_assoc]

end

/-! ### The model's own estimate -/

theorem two_zpow_eq_div (j : ℤ) : (2 : ℝ) ^ j = 2 ^ j.toNat / 2 ^ (-j).toNat := by
  rw [eq_div_iff (by positivity), ← zpow_natCast, ← zpow_natCast, ← zpow_add₀ two_ne_zero]
  congr 1
  omega

section
variable {x : Word} {k : ℤ} {f : ℕ}

/-- The quotient that the model rounds for `x = k + f` is 2^k * (1 + f), `f` being in units of 2^-149. -/
theorem expQuotient_eq (k : ℤ) (f : ℕ) :
    (((2 ^ 149 + f) * 2 ^ (k + 149).toNat : ℕ) : ℝ) / (2 ^ (149 + (-(k + 149)).toNat) : ℕ) / 2 ^ 149 =
      (1 + f / 2 ^ 149) * 2 ^ k := by
  have hscale := two_zpow_eq_div (k + 149)
  rw [zpow_add₀ two_ne_zero, eq_div_iff (by positivity)] at hscale
  push_cast
  rw [← hscale, pow_add]
  field_simp
  norm_num

/-- It is at least the power of 2 of exponent `x`, and above it by less than 1/16. -/
theorem expQuotient_near (hx : fpVal x = 2 ^ 149 * k + f) (hf : f < 2 ^ 149) :
    (2 : ℝ) ^ (fpValue x : ℝ) ≤ (1 + f / 2 ^ 149) * 2 ^ k ∧
      (1 + f / 2 ^ 149) * 2 ^ k ≤ 10616 / 10000 * (2 : ℝ) ^ (fpValue x : ℝ) := by
  have hfrac : (f : ℝ) / 2 ^ 149 ≤ 1 := by
    rw [div_le_one (by positivity)]
    exact_mod_cast hf.le
  obtain ⟨hlo, hhi⟩ := one_add_near_two_rpow (f := f / 2 ^ 149) (by positivity) hfrac
  have hexponent : (fpValue x : ℝ) = f / 2 ^ 149 + k := by
    rw [fpValue_real, hx, Int.cast_add, Int.cast_mul, Int.cast_pow, Int.cast_ofNat, Int.cast_natCast, add_div,
      mul_div_cancel_left₀ _ (by positivity), add_comm]
  have hpos : (0 : ℝ) < 2 ^ k := by positivity
  rw [hexponent, Real.rpow_add two_pos, Real.rpow_intCast, ← mul_assoc]
  exact ⟨by gcongr, by gcongr⟩

/-- Where the bound does not reach an underflow, that quotient rounded once meets it. -/
theorem expOk_rounded (hx : fpVal x = 2 ^ 149 * k + f) (hf : f < 2 ^ 149)
    (hnormal : 2 ^ (-126 : ℤ) ≤ (1 - 1 / 16) * (2 : ℝ) ^ (fpValue x : ℝ)) :
    expOk x (roundFp false false ((2 ^ 149 + f) * 2 ^ (k + 149).toNat) (2 ^ (149 + (-(k + 149)).toNat))) = true := by
  have hpos := two_rpow_fpValue_pos x
  obtain ⟨hlo, hhi⟩ := expQuotient_near hx hf
  rw [← expQuotient_eq] at hlo hhi
  have hden : 0 < 2 ^ (149 + (-(k + 149)).toNat) := Nat.two_pow_pos _
  generalize (2 ^ 149 + f) * 2 ^ (k + 149).toNat = num at *
  generalize 2 ^ (149 + (-(k + 149)).toNat) = den at *
  have hdenr : (0 : ℝ) < den := by exact_mod_cast hden
  have hnum : 2 ^ 13 * den ≤ num := by
    have hquotient : (2 : ℝ) ^ 23 / 2 ^ 149 ≤ num / den / 2 ^ 149 := by
      rw [two_pow_neg_126] at hnormal
      linarith
    rw [div_le_div_iff_of_pos_right (by positivity), le_div_iff₀ hdenr] at hquotient
    have : 2 ^ 23 * den ≤ num := by exact_mod_cast hquotient
    omega
  rw [expOk_iff]
  refine roundFp_estimateWithin hden hnum (by simp [hpos.le]) ?_ ?_
  · rw [abs_of_pos hpos]
    linarith
  · rw [abs_of_pos hpos]
    linarith

end

/-- The zero of positive sign as an estimate of a positive number. -/
theorem estimateWithin_zero {ε v : ℝ} (hv : 0 < v) (h : (1 - ε) * v < 2 ^ (-126 : ℤ)) : EstimateWithin ε v 0 := by
  have hsign : fpSign 0 = false := by decide
  refine estimateWithin_of_isZero (by decide) ?_ (by rwa [abs_of_pos hv])
  rw [hsign]
  simpa using hv.le

theorem fpValue_lt_iff (x : Word) (n : ℤ) : fpValue x < n ↔ fpVal x < n * 2 ^ 149 := by
  rw [fpValue_eq_fpVal, div_lt_iff₀ (by positivity)]
  exact_mod_cast Iff.rfl

theorem fpValue_eq_iff (x : Word) (n : ℤ) : fpValue x = n ↔ fpVal x = n * 2 ^ 149 := by
  rw [fpValue_eq_fpVal, div_eq_iff (by positivity)]
  exact_mod_cast Iff.rfl

/-- Below -150 the power is below half the unit. -/
theorem two_rpow_lt_of_lt {x : Word} (h : fpValue x < -150) : (2 : ℝ) ^ (fpValue x : ℝ) < 2 ^ (-150 : ℤ) := by
  rw [← Real.rpow_intCast]
  refine Real.rpow_lt_rpow_of_exponent_lt one_lt_two ?_
  exact_mod_cast h

/-- The model's own estimate meets the bound: below -150 and where rounding breaks it the bound reaches an underflow. -/
theorem expFallback_within (x : Word) : EstimateWithin (1 / 16) (2 ^ (fpValue x : ℝ)) (expFallback x) := by
  have hpos := two_rpow_fpValue_pos x
  unfold expFallback
  split
  · next hsmall =>
    have hlt := two_rpow_lt_of_lt ((fpValue_lt_iff x (-150)).2 hsmall)
    have hle : (1 - 1 / 16) * (2 : ℝ) ^ (fpValue x : ℝ) ≤ 2 ^ (fpValue x : ℝ) :=
      mul_le_of_le_one_left hpos.le (by norm_num)
    exact estimateWithin_zero hpos (hle.trans_lt (hlt.trans_le (zpow_le_zpow_right₀ one_le_two (by decide))))
  · dsimp only
    split
    · next hok => exact (expOk_iff x _).1 hok
    · next hno =>
      refine estimateWithin_zero hpos (not_le.1 fun hnormal => hno ?_)
      have hsplit := Int.mul_ediv_add_emod (fpVal x) (2 ^ 149)
      have hf0 := Int.emod_nonneg (fpVal x) (b := 2 ^ 149) (by positivity)
      have hf1 := Int.emod_lt_of_pos (fpVal x) (b := 2 ^ 149) (by positivity)
      exact expOk_rounded (by omega) (by omega) hnormal

/-! ### Integral operands -/

theorem roundNearest_mul (q : Nat) {den : Nat} (hd : 0 < den) : roundNearest (q * den) den = q := by
  unfold roundNearest
  simp only [Nat.mul_div_cancel q hd, Nat.mul_mod_left]
  exact if_neg (by omega)

/-- The power 2^j, in units of 2^-149, is a single-precision number: denormalized below 2^-126, else of scale j - 23. -/
theorem roundMag_two_pow {j : Nat} (hj : j ≤ 276) : fpMag (roundMag false (2 ^ j) 1) = 2 ^ j := by
  unfold roundMag
  simp only [Nat.div_one, one_mul]
  rcases Nat.lt_or_ge j 23 with hsmall | hlarge
  · have hlt : 2 ^ j < 2 ^ 23 := Nat.pow_lt_pow_right one_lt_two hsmall
    have hround : roundNearest (2 ^ j) 1 = 2 ^ j := by simpa using roundNearest_mul (2 ^ j) one_pos
    have hm := magnitude_scaled (k := 0) (q := 2 ^ j) (.inl ⟨rfl, hlt.le⟩)
    rw [if_pos hlt, if_neg Bool.false_ne_true, hround, fpMag_eq, BitVec.toNat_ofNat, Nat.mod_eq_of_lt (by omega),
      Nat.mod_eq_of_lt (by omega)]
    simpa using hm
  · obtain ⟨k, rfl⟩ := Nat.exists_eq_add_of_le hlarge
    have hge : ¬ 2 ^ (23 + k) < 2 ^ 23 := not_lt.2 (Nat.pow_le_pow_right two_pos hlarge)
    have hround : roundNearest (2 ^ (23 + k)) (2 ^ k) = 2 ^ 23 := by
      rw [pow_add]
      exact roundNearest_mul (2 ^ 23) (Nat.two_pow_pos k)
    rw [if_neg hge, Nat.log2_two_pow, Nat.add_sub_cancel_left, hround, if_neg (by omega), fpMag_eq, BitVec.toNat_ofNat,
      Nat.mod_eq_of_lt (by omega), Nat.mod_eq_of_lt (by omega), magnitude_scaled (.inr ⟨le_rfl, by omega⟩), ← pow_add]

theorem roundFp_two_pow {j : Nat} (hj : j ≤ 276) :
    isFinite (roundFp false false (2 ^ j) 1) ∧ fpSign (roundFp false false (2 ^ j) 1) = false ∧
      fpMag (roundFp false false (2 ^ j) 1) = 2 ^ j := by
  have hlt : 2 ^ j < (2 ^ 25 - 1) * 2 ^ 252 * 1 := by
    calc 2 ^ j ≤ 2 ^ (24 + 252) := Nat.pow_le_pow_right two_pos hj
      _ = 2 ^ 24 * 2 ^ 252 := pow_add 2 24 252
      _ < (2 ^ 25 - 1) * 2 ^ 252 * 1 := by omega
  obtain ⟨hsign, hfin, -⟩ := roundFp_error false one_pos hlt
  obtain ⟨-, hmag, -⟩ := withSign_fields false (roundMag_lt false (2 ^ j) 1)
  exact ⟨hfin, hsign, hmag.trans (roundMag_two_pow hj)⟩

/-- 2^k in units of 2^-149. -/
theorem two_pow_toNat_div {k : ℤ} (hk : -149 ≤ k) : (2 : ℝ) ^ (k + 149).toNat / 2 ^ 149 = 2 ^ k := by
  have h := two_zpow_eq_div (k + 149)
  rw [show (-(k + 149)).toNat = 0 by omega, pow_zero, div_one] at h
  rw [← h, zpow_add₀ two_ne_zero, div_eq_iff (by positivity)]
  norm_num

section
variable {x : Word} (raw : Word)

/-- An integral operand gives its power exactly, after `OUT`; the operand 0, which the model takes apart, is one. -/
theorem fpExp2_integral {k : ℤ} (hfin : isFinite x) (hk : fpVal x = k * 2 ^ 149) (hlo : -149 ≤ k) (hhi : k < 128)
    (nj : Bool) : fpExp2 nj raw x = flush nj (roundFp false false (2 ^ (k + 149).toNat) 1) := by
  simp only [fpExp2, isNaN_eq_false_of_finite hfin, isInf_eq_false_of_finite hfin, Bool.false_eq_true, if_false]
  split_ifs with hzero hlarge hint
  · have hk0 : k = 0 := by
      have hval := fpVal_eq x
      rw [fpMag_of_isZero hzero] at hval
      omega
    have hone : roundFp false false (2 ^ 149) 1 = 0x3F800000 := by decide
    subst hk0
    rw [show (0 + 149 : ℤ).toNat = 149 from rfl, hone]
    cases nj <;> decide
  · omega
  · rw [hk, Int.mul_ediv_cancel _ (by positivity)]
  · omega

/-- A power of 128 or more overflows. -/
theorem fpExp2_of_le (hfin : isFinite x) (hle : 128 ≤ fpValue x) (nj : Bool) : fpExp2 nj raw x = 0x7F800000 := by
  have hval : 128 * 2 ^ 149 ≤ fpVal x := not_lt.1 (mt (fpValue_lt_iff x 128).2 (not_lt.2 hle))
  have hzero : isZero x = false := Bool.eq_false_of_not_eq_true fun hz => by
    have hval0 := fpVal_eq x
    rw [fpMag_of_isZero hz] at hval0
    omega
  simp only [fpExp2, isNaN_eq_false_of_finite hfin, isInf_eq_false_of_finite hfin, hzero, Bool.false_eq_true, if_false]
  rw [if_pos hval]
  rfl

/-- What the result is before `OUT`: a value inside the bound, and of an integral operand exactly its power. -/
theorem fpExp2_ordinary (hfin : isFinite x) (hlt : fpValue x < 128) :
    ∃ r, EstimateWithin (1 / 16) (2 ^ (fpValue x : ℝ)) r ∧ (∀ nj, fpExp2 nj raw x = flush nj r) ∧
      ∀ k : ℤ, fpValue x = k → -149 ≤ k → fpSign r = false ∧ fpMag r = 2 ^ (k + 149).toNat := by
  have hpos := two_rpow_fpValue_pos x
  have hlt' := (fpValue_lt_iff x 128).1 hlt
  by_cases hint : ∃ k : ℤ, fpVal x = k * 2 ^ 149 ∧ -149 ≤ k
  · obtain ⟨k, hk, hlo⟩ := hint
    have hvalue := (fpValue_eq_iff x k).2 hk
    obtain ⟨hrfin, hsign, hmag⟩ := roundFp_two_pow (j := (k + 149).toNat) (by omega)
    refine ⟨_, ?_, fpExp2_integral raw hfin hk hlo (by omega), fun k' hk' _ => ?_⟩
    · have hexact : (2 : ℝ) ^ (fpValue x : ℝ) = fpMag (roundFp false false (2 ^ (k + 149).toNat) 1) / 2 ^ 149 := by
        rw [hmag, Nat.cast_pow, Nat.cast_ofNat, two_pow_toNat_div hlo, hvalue, Rat.cast_intCast, Real.rpow_intCast]
      refine estimateWithin_of_magnitude hrfin (by rw [hmag]; positivity) (by simp [hsign, hpos.le]) ?_
      rw [abs_of_pos hpos, ← hexact]
      constructor <;> linarith
    · obtain rfl : k' = k := by exact_mod_cast hk'.symm.trans hvalue
      exact ⟨hsign, hmag⟩
  · obtain ⟨r, hok, hr⟩ := choose_flush (raw := raw) ((expOk_iff x _).2 (expFallback_within x))
    refine ⟨r, (expOk_iff x r).1 hok, fun nj => ?_, fun k hk hlo => absurd ⟨k, (fpValue_eq_iff x k).1 hk, hlo⟩ hint⟩
    have hzero : isZero x = false := Bool.eq_false_of_not_eq_true fun hz => hint ⟨0, by
      rw [fpVal_eq, fpMag_of_isZero hz]
      simp, by decide⟩
    have hnot : ¬ (fpVal x % 2 ^ 149 = 0 ∧ -149 * 2 ^ 149 ≤ fpVal x) := by
      rintro ⟨hmod, hlo⟩
      exact hint ⟨fpVal x / 2 ^ 149, by omega, by omega⟩
    simp only [fpExp2, isNaN_eq_false_of_finite hfin, isInf_eq_false_of_finite hfin, hzero, Bool.false_eq_true,
      if_false]
    rw [if_neg (by omega), if_neg hnot, hr]

/-- An estimate of a positive number below half the unit is 0: one unit is more than the bound allows. -/
theorem EstimateWithin.eq_zero {v : ℝ} {r : Word} (h : EstimateWithin (1 / 16) v r) (hv : 0 < v)
    (hsmall : v < 2 ^ (-150 : ℤ)) : r = 0 := by
  have hunit : (2 : ℝ) ^ (-150 : ℤ) = 1 / 2 / 2 ^ 149 := by norm_num
  rw [hunit] at hsmall
  have hinf : isInf r = false := Bool.eq_false_of_not_eq_true fun hi => by
    have hover := h.overflow hi
    rw [abs_of_pos hv] at hover
    linarith
  cases hz : isZero r with
  | true => exact eq_zero_of_positive hz (h.sign_eq_false hv)
  | false =>
    obtain ⟨-, hmag⟩ := h.magnitude hinf hz
    have hone : (1 : ℝ) ≤ fpMag r := by exact_mod_cast fpMag_pos hz
    rw [abs_of_pos hv, div_le_iff₀ (by positivity)] at hmag
    rw [lt_div_iff₀ (by positivity)] at hsmall
    linarith

/-- The zero that `OUT` makes of a denormalized number of positive sign. -/
theorem flush_denormal {r : Word} (hpos : 0 < fpMag r) (hlt : fpMag r < 2 ^ 23) (hsign : fpSign r = false) :
    flush true r = 0 := by
  have hden := isDenormal_iff.2 ⟨hpos, hlt⟩
  obtain ⟨hzero, hs, -⟩ := isZero_and_signMask r
  rw [flush_true_of_isDenormal hden]
  exact eq_zero_of_positive hzero (hs.trans hsign)

/-- The power of an integer, exactly where `OUT` does not take it away. -/
theorem flush_power {r : Word} {k : ℤ} (nj : Bool) (hsign : fpSign r = false) (hmag : fpMag r = 2 ^ (k + 149).toNat)
    (hlo : -149 ≤ k) : if nj = true ∧ k < -126 then flush nj r = 0 else fpValue (flush nj r) = 2 ^ k := by
  split_ifs with hout
  · obtain ⟨rfl, hk⟩ := hout
    refine flush_denormal (by rw [hmag]; positivity) ?_ hsign
    rw [hmag]
    exact Nat.pow_lt_pow_right one_lt_two (by omega)
  · have hkeep : flush nj r = r := by
      cases nj with
      | false => rfl
      | true =>
        refine flush_of_le_mag true ?_
        rw [hmag]
        exact Nat.pow_le_pow_right two_pos (by simp only [true_and] at hout; omega)
    have hreal : (fpValue r : ℝ) = ((2 ^ k : ℚ) : ℝ) := by
      rw [fpValue_of_positive hsign, hmag, Nat.cast_pow, Nat.cast_ofNat, two_pow_toNat_div hlo, Rat.cast_zpow,
        Rat.cast_ofNat]
    rw [hkeep]
    exact Rat.cast_injective hreal

theorem fpExp2_exponentialOf (nj : Bool) (x : Word) : ExponentialOf nj x (fpExp2 nj raw x) := by
  unfold ExponentialOf
  split_ifs with hnan hninf hpinf hlarge
  · exact if_pos hnan
  · subst hninf
    rfl
  · subst hpinf
    rfl
  · have hfin := finite_of_not_special hnan hninf hpinf
    exact fpExp2_of_le raw hfin hlarge nj
  · have hfin := finite_of_not_special hnan hninf hpinf
    have hpos := two_rpow_fpValue_pos x
    obtain ⟨r, hwithin, hr, hpower⟩ := fpExp2_ordinary raw hfin (not_le.1 hlarge)
    have h := hwithin.flush nj
    rw [hr]
    refine ⟨h.isNaN_eq_false, h.sign_eq_false hpos, fun k hk hlo => ?_, fun hsmall => ?_, ?_, fun hi => ?_,
      fun hz => ?_, fun hi hz => ?_⟩
    · obtain ⟨hs, hm⟩ := hpower k hk hlo
      exact flush_power nj hs hm hlo
    · exact h.eq_zero hpos (two_rpow_lt_of_lt hsmall)
    · rintro rfl
      exact isDenormal_flush r
    · have hover := h.overflow hi
      rwa [abs_of_pos hpos, mul_comm] at hover
    · have hunder := h.underflow hz
      rwa [abs_of_pos hpos, mul_comm] at hunder
    · have hle := h.abs_sub_le hi hz
      rwa [abs_of_pos hpos, one_div_mul_eq_div] at hle

end

/-! ## The statements -/

/-- The four estimates of an instruction: what holds of the value for every answer of the implementation holds of each
word. -/
theorem estimates_writes {s : State} {i : Instr} {e : Word} {vD vB : VReg} {answer : Nat → Nat → Word → Word}
    {f : Bool → Word → Word → Word} {R : Word → Word → Prop} (hv : s.vecEnabled = true)
    (he : exec i s = resultDrawn s vD (estimates s vB answer f)) (hw : encode i = e)
    (hR : ∀ raw x, R x (f s.nj raw x)) : Writes i e s vD fun d => ∀ k < 4, R (s.fpIn vB k) (word d k) :=
  resultDrawn_writes hv he hw fun _ hk => (word_ofWords _ hk).symm ▸ hR _ _

/-- Settles O30: each word is a reciprocal. -/
theorem reciprocalEstimate : Obligations.ReciprocalEstimate := by
  intro s vD vB hv
  exact estimates_writes hv rfl rfl fun raw x => fpRecip_reciprocalOf s.nj raw x

/-- Settles O31: each word is a reciprocal root. -/
theorem reciprocalRootEstimate : Obligations.ReciprocalRootEstimate := by
  intro s vD vB hv
  exact estimates_writes hv rfl rfl fun raw x => fpRsqrt_reciprocalRootOf s.nj raw x

/-- Settles O32: each word is a logarithm. -/
theorem logarithmEstimate : Obligations.LogarithmEstimate := by
  intro s vD vB hv
  exact estimates_writes hv rfl rfl fun raw x => fpLog2_logarithmOf s.nj raw x

/-- Settles O33: each word is an exponential. -/
theorem exponentialEstimate : Obligations.ExponentialEstimate := by
  intro s vD vB hv
  exact estimates_writes hv rfl rfl fun raw x => fpExp2_exponentialOf raw s.nj x

end Sys2Proof.Machine
